-- ==== Sys2Proof/Word.lean ====
section
/-! DEFINITION. The widths of the engine: bytes, cipher words, command and response words, and the
fixed-length byte strings its registers hold (spec 00_scope.md R6, 20_memory.md R45). -/

namespace Sys2Proof

/-- One byte, the element of every register array and buffer (R40). -/
abbrev Byte := BitVec 8

/-- A 32-bit unsigned word: what XTEA computes with (R9 a) and the width of `pkt_cnt` (R17). -/
abbrev Word := BitVec 32

/-- A command word: 24 bits, one per transfer on the command port (R60). -/
abbrev CommandWord := BitVec 24

/-- A response word: 16 bits, `code` above `data` (R62). -/
abbrev ResponseWord := BitVec 16

/-- A cipher block, `BLOCK` = 8 bytes in index order (R5). -/
abbrev Block := Vector Byte 8

/-- A cipher key, `KEYLEN` = 16 bytes in index order (R5). -/
abbrev Key := Vector Byte 16

end Sys2Proof
end

