-- ==== Sys2Proof/Syntax.lean ====
section
/-! DEFINITION. The 27 commands of the XLINK command set (spec 30_encoding.md R64), one constructor for each
of the 29 rows of spec/opcode_table.json (`XENC` has three). Must-be-zero operands are no part of the syntax
(R63): the decoder checks them. -/

namespace Sys2Proof

/-- A command of the engine. Operands are the unsigned 8-bit immediates of R60, as they stand in the word. -/
inductive Instr where
  /-- `NOP` (R170). -/
  | nop
  /-- `RESET` (R171). -/
  | reset
  /-- `SETROLE role` (R172); the encoding admits 0 and 1 only (R63). -/
  | setrole (role : Byte)
  /-- `RDCSR n` (R173). -/
  | rdcsr (n : Byte)
  /-- `WRMK idx, d` (R90). -/
  | wrmk (idx d : Byte)
  /-- `DERIVE` (R92). -/
  | derive
  /-- `WRCTR idx, d` (R118). -/
  | wrctr (idx d : Byte)
  /-- `RDCTR idx` (R119). -/
  | rdctr (idx : Byte)
  /-- `WRBLK idx, d` (R84). -/
  | wrblk (idx d : Byte)
  /-- `RDBLK idx` (R85). -/
  | rdblk (idx : Byte)
  /-- `ADDCNT k` (R120). -/
  | addcnt (k : Byte)
  /-- `XENC 0`: encrypt `BLK` under `KEY_MAC` (R83). -/
  | xencMac
  /-- `XENC 1`: encrypt `BLK` under `KEY_ENC` (R83). -/
  | xencEnc
  /-- `XENC 2`: encrypt `BLK` under the master key (R83). -/
  | xencMaster
  /-- `MACG off, len` (R103). -/
  | macg (off len : Byte)
  /-- `MACGC off, len` (R104). -/
  | macgc (off len : Byte)
  /-- `MACV off, len` (R105). -/
  | macv (off len : Byte)
  /-- `MACVC off, len` (R106). -/
  | macvc (off len : Byte)
  /-- `CRYPT off, len` (R117). -/
  | crypt (off len : Byte)
  /-- `WRFB idx, d` (R125). -/
  | wrfb (idx d : Byte)
  /-- `RDFB idx` (R126). -/
  | rdfb (idx : Byte)
  /-- `PUTC d` (R127). -/
  | putc (d : Byte)
  /-- `CLRPB` (R128). -/
  | clrpb
  /-- `BUILDD addr` (R141). -/
  | buildd (addr : Byte)
  /-- `BUILDS addr` (R145). -/
  | builds (addr : Byte)
  /-- `SEND` (R146). -/
  | send
  /-- `RXPROC` (R148). -/
  | rxproc
  /-- `RXON` (R174). -/
  | rxon
  /-- `STOP` (R175). -/
  | stop
  deriving DecidableEq, Repr

end Sys2Proof
end

