-- ==== Sys2Proof/WellFormed.lean ====
section
/-! DEFINITION. Which commands the encoding admits (spec 30_encoding.md R63): `idx`, `off`, `len`, `d`,
`addr`, `k`, `n` take any byte, and an operand with an enumerated set stays inside it. The enumerated set of
`XENC` is its three constructors; that of `SETROLE` is checked here. Range checks are no part of this: they
happen at execution (R63). -/

namespace Sys2Proof

/-- The command can be written as a command word (R63). -/
def Instr.wellFormed : Instr → Bool
  | .nop => true
  | .reset => true
  | .setrole role => role.toNat ≤ 1
  | .rdcsr _ => true
  | .wrmk _ _ => true
  | .derive => true
  | .wrctr _ _ => true
  | .rdctr _ => true
  | .wrblk _ _ => true
  | .rdblk _ => true
  | .addcnt _ => true
  | .xencMac => true
  | .xencEnc => true
  | .xencMaster => true
  | .macg _ _ => true
  | .macgc _ _ => true
  | .macv _ _ => true
  | .macvc _ _ => true
  | .crypt _ _ => true
  | .wrfb _ _ => true
  | .rdfb _ => true
  | .putc _ => true
  | .clrpb => true
  | .buildd _ => true
  | .builds _ => true
  | .send => true
  | .rxproc => true
  | .rxon => true
  | .stop => true

end Sys2Proof
end

