-- ==== Sys2Proof/Decode.lean ====
section
/-! DEFINITION. The decoder and the encoder of command words, and the opcode map as data (spec
30_encoding.md R60 to R66). -/

namespace Sys2Proof

/-- Why a command word is illegal (R65). Every reason has the same effect, `ERR_ILLEGAL`. -/
inductive Illegal where
  /-- R65 (a): `op` is not one of the 27 listed values. -/
  | unassignedOpcode (op : Byte)
  /-- R65 (b) and (d): a must-be-zero operand is not zero. -/
  | nonzeroOperand
  /-- R65 (c) and (d): an enumerated operand is outside its set. -/
  | operandOutsideSet (b : Byte)
  deriving DecidableEq, Repr

/-- `op`, bits 23:16 of a command word (R60). -/
def opField (w : CommandWord) : Byte := w.extractLsb' 16 8

/-- `a`, bits 15:8 of a command word (R60). -/
def aField (w : CommandWord) : Byte := w.extractLsb' 8 8

/-- `b`, bits 7:0 of a command word (R60). -/
def bField (w : CommandWord) : Byte := w.extractLsb' 0 8

/-- The word `op·2^16 + a·2^8 + b` (R60). -/
def commandWord (op a b : Byte) : CommandWord := op ++ a ++ b

/-- The command `i`, if the operand `x` is zero as it must be (R63). -/
def ifZero (x : Byte) (i : Instr) : Except Illegal Instr :=
  if x = 0 then .ok i else .error .nonzeroOperand

/-- The command `i`, if both operands are zero as they must be (R63). -/
def ifBothZero (a b : Byte) (i : Instr) : Except Illegal Instr :=
  if a = 0 ∧ b = 0 then .ok i else .error .nonzeroOperand

/-- `SETROLE`: `a` must be zero and `b` a role (R65 c). -/
def decodeSetrole (a b : Byte) : Except Illegal Instr :=
  if a ≠ 0 then .error .nonzeroOperand
  else if 1 < b.toNat then .error (.operandOutsideSet b)
  else .ok (.setrole b)

/-- `XENC`: `a` must be zero and `b` a key selector (R65 d, R15). -/
def decodeXenc (a b : Byte) : Except Illegal Instr :=
  if a ≠ 0 then .error .nonzeroOperand
  else if b = 0 then .ok .xencMac
  else if b = 1 then .ok .xencEnc
  else if b = 2 then .ok .xencMaster
  else .error (.operandOutsideSet b)

/-- The command with opcode `op` and operands `a`, `b` (R64, R65). -/
def decodeFields (op a b : Byte) : Except Illegal Instr :=
  match op with
  | 0x00#8 => ifBothZero a b .nop
  | 0x01#8 => ifBothZero a b .reset
  | 0x02#8 => decodeSetrole a b
  | 0x03#8 => ifZero b (.rdcsr a)
  | 0x10#8 => .ok (.wrmk a b)
  | 0x11#8 => ifBothZero a b .derive
  | 0x12#8 => .ok (.wrctr a b)
  | 0x13#8 => ifZero b (.rdctr a)
  | 0x14#8 => .ok (.wrblk a b)
  | 0x15#8 => ifZero b (.rdblk a)
  | 0x16#8 => ifZero a (.addcnt b)
  | 0x20#8 => decodeXenc a b
  | 0x21#8 => .ok (.macg a b)
  | 0x22#8 => .ok (.macgc a b)
  | 0x23#8 => .ok (.macv a b)
  | 0x24#8 => .ok (.macvc a b)
  | 0x25#8 => .ok (.crypt a b)
  | 0x30#8 => .ok (.wrfb a b)
  | 0x31#8 => ifZero b (.rdfb a)
  | 0x32#8 => ifZero a (.putc b)
  | 0x33#8 => ifBothZero a b .clrpb
  | 0x40#8 => ifZero a (.buildd b)
  | 0x41#8 => ifZero a (.builds b)
  | 0x42#8 => ifBothZero a b .send
  | 0x43#8 => ifBothZero a b .rxproc
  | 0x50#8 => ifBothZero a b .rxon
  | 0x51#8 => ifBothZero a b .stop
  | op => .error (.unassignedOpcode op)

/-- The decoder, total on all 2^24 words: a command or the reason the word is illegal (R65). It reads the
word alone (R66). -/
def decode (w : CommandWord) : Except Illegal Instr :=
  decodeFields (opField w) (aField w) (bField w)

/-- The command word of a command (R64). -/
def encode : Instr → CommandWord
  | .nop => commandWord 0x00 0 0
  | .reset => commandWord 0x01 0 0
  | .setrole role => commandWord 0x02 0 role
  | .rdcsr n => commandWord 0x03 n 0
  | .wrmk idx d => commandWord 0x10 idx d
  | .derive => commandWord 0x11 0 0
  | .wrctr idx d => commandWord 0x12 idx d
  | .rdctr idx => commandWord 0x13 idx 0
  | .wrblk idx d => commandWord 0x14 idx d
  | .rdblk idx => commandWord 0x15 idx 0
  | .addcnt k => commandWord 0x16 0 k
  | .xencMac => commandWord 0x20 0 0
  | .xencEnc => commandWord 0x20 0 1
  | .xencMaster => commandWord 0x20 0 2
  | .macg off len => commandWord 0x21 off len
  | .macgc off len => commandWord 0x22 off len
  | .macv off len => commandWord 0x23 off len
  | .macvc off len => commandWord 0x24 off len
  | .crypt off len => commandWord 0x25 off len
  | .wrfb idx d => commandWord 0x30 idx d
  | .rdfb idx => commandWord 0x31 idx 0
  | .putc d => commandWord 0x32 0 d
  | .clrpb => commandWord 0x33 0 0
  | .buildd addr => commandWord 0x40 0 addr
  | .builds addr => commandWord 0x41 0 addr
  | .send => commandWord 0x42 0 0
  | .rxproc => commandWord 0x43 0 0
  | .rxon => commandWord 0x50 0 0
  | .stop => commandWord 0x51 0 0

/-- One row of the opcode map (R64): a word `w` spells the row's command iff `w & mask = pattern`. -/
structure OpcodeRow where
  mnemonic : String
  pattern : CommandWord
  mask : CommandWord
  deriving DecidableEq, Repr

/-- The row of R64 that a command's words match. -/
def opcodeRow : Instr → OpcodeRow
  | .nop => ⟨"NOP", 0x000000, 0xFFFFFF⟩
  | .reset => ⟨"RESET", 0x010000, 0xFFFFFF⟩
  | .setrole _ => ⟨"SETROLE", 0x020000, 0xFFFFFE⟩
  | .rdcsr _ => ⟨"RDCSR", 0x030000, 0xFF00FF⟩
  | .wrmk _ _ => ⟨"WRMK", 0x100000, 0xFF0000⟩
  | .derive => ⟨"DERIVE", 0x110000, 0xFFFFFF⟩
  | .wrctr _ _ => ⟨"WRCTR", 0x120000, 0xFF0000⟩
  | .rdctr _ => ⟨"RDCTR", 0x130000, 0xFF00FF⟩
  | .wrblk _ _ => ⟨"WRBLK", 0x140000, 0xFF0000⟩
  | .rdblk _ => ⟨"RDBLK", 0x150000, 0xFF00FF⟩
  | .addcnt _ => ⟨"ADDCNT", 0x160000, 0xFFFF00⟩
  | .xencMac => ⟨"XENC", 0x200000, 0xFFFFFF⟩
  | .xencEnc => ⟨"XENC", 0x200001, 0xFFFFFF⟩
  | .xencMaster => ⟨"XENC", 0x200002, 0xFFFFFF⟩
  | .macg _ _ => ⟨"MACG", 0x210000, 0xFF0000⟩
  | .macgc _ _ => ⟨"MACGC", 0x220000, 0xFF0000⟩
  | .macv _ _ => ⟨"MACV", 0x230000, 0xFF0000⟩
  | .macvc _ _ => ⟨"MACVC", 0x240000, 0xFF0000⟩
  | .crypt _ _ => ⟨"CRYPT", 0x250000, 0xFF0000⟩
  | .wrfb _ _ => ⟨"WRFB", 0x300000, 0xFF0000⟩
  | .rdfb _ => ⟨"RDFB", 0x310000, 0xFF00FF⟩
  | .putc _ => ⟨"PUTC", 0x320000, 0xFFFF00⟩
  | .clrpb => ⟨"CLRPB", 0x330000, 0xFFFFFF⟩
  | .buildd _ => ⟨"BUILDD", 0x400000, 0xFFFF00⟩
  | .builds _ => ⟨"BUILDS", 0x410000, 0xFFFF00⟩
  | .send => ⟨"SEND", 0x420000, 0xFFFFFF⟩
  | .rxproc => ⟨"RXPROC", 0x430000, 0xFFFFFF⟩
  | .rxon => ⟨"RXON", 0x500000, 0xFFFFFF⟩
  | .stop => ⟨"STOP", 0x510000, 0xFFFFFF⟩

/-- The opcode map of R64, 29 rows in the table's order. -/
def opcodeTable : List OpcodeRow :=
  [opcodeRow .nop, opcodeRow .reset, opcodeRow (.setrole 0), opcodeRow (.rdcsr 0),
   opcodeRow (.wrmk 0 0), opcodeRow .derive, opcodeRow (.wrctr 0 0), opcodeRow (.rdctr 0),
   opcodeRow (.wrblk 0 0), opcodeRow (.rdblk 0), opcodeRow (.addcnt 0),
   opcodeRow .xencMac, opcodeRow .xencEnc, opcodeRow .xencMaster,
   opcodeRow (.macg 0 0), opcodeRow (.macgc 0 0), opcodeRow (.macv 0 0), opcodeRow (.macvc 0 0),
   opcodeRow (.crypt 0 0), opcodeRow (.wrfb 0 0), opcodeRow (.rdfb 0), opcodeRow (.putc 0),
   opcodeRow .clrpb, opcodeRow (.buildd 0), opcodeRow (.builds 0), opcodeRow .send,
   opcodeRow .rxproc, opcodeRow .rxon, opcodeRow .stop]

/-- The host's question: the command whose word has the `nbits` bits `w`, the bits above them zero. -/
def decodeTableWord (nbits w : Nat) : Option Instr :=
  match decode (BitVec.ofNat 24 (w % 2 ^ nbits)) with
  | .ok i => some i
  | .error _ => none

end Sys2Proof
end

