-- ==== Sys2Proof/Config.lean ====
section
/-! DEFINITION. The implementation parameters of spec 00_scope.md R5. The parameters the spec fixes are
constants here; the open ones are a `Config`, which the machine carries with it (log entry 1), so that a
statement about every state is a statement about every configuration. -/

namespace Sys2Proof

/-- `XTEA_ENDIAN` (R5, R45): how the cipher packs four bytes into a word. -/
inductive Endian where
  | little
  | big
  deriving DecidableEq, Repr

/-- One value of a cipher given by its values: what the key and the block are encrypted to. -/
structure CipherRow where
  key : Key
  block : Block
  result : Block
  deriving DecidableEq, Repr

/-- `E`, the configuration field that 40_xtea.md R82 asks for, as plain data: the algorithm of R81, or a function given
by the list of its values, which can be any function whatever (DESIGN CHOICE, log entry 5). -/
inductive Cipher where
  /-- R81 under `XTEA_ROUNDS` and `XTEA_ENDIAN`, the instance of the reference configuration. -/
  | xtea
  /-- The function with these values; a pair that no row lists is encrypted to the zero block. -/
  | values (rows : List CipherRow)
  deriving DecidableEq, Repr

/-- The open parameters of R5, the argument a model of the engine takes. -/
structure Config where
  /-- `E` (R82). -/
  cipher : Cipher
  /-- `FRAME_MAX`, the size of the frame buffer. -/
  frameMax : Nat
  /-- `XTEA_ROUNDS`, the number of iterations of the cipher's loop. -/
  xteaRounds : Nat
  /-- `XTEA_ENDIAN`. -/
  xteaEndian : Endian
  /-- `SEED_MAC`. -/
  seedMac : Block
  /-- `SEED_ENC_LO`. -/
  seedEncLo : Block
  /-- `SEED_ENC_HI`. -/
  seedEncHi : Block
  /-- `RB`, the doubling constant (conflict C5). -/
  rb : Byte
  /-- `TRAILER`, the filler byte sent twice after the tag. -/
  trailer : Byte
  deriving DecidableEq, Repr

/-- The reference values of R5, which the spec's test vectors use. -/
def Config.reference : Config where
  cipher := .xtea
  frameMax := 80
  xteaRounds := 32
  xteaEndian := .little
  seedMac := #v[0, 0, 0, 0, 0, 0, 0, 0]
  seedEncLo := #v[0, 0, 0, 0, 0, 0, 0, 1]
  seedEncHi := #v[0, 0, 0, 0, 0, 0, 0, 2]
  rb := 0x87
  trailer := 0xAA

/-- The constraints R5 puts on the open parameters. -/
abbrev Config.wf (c : Config) : Prop :=
  16 ≤ c.frameMax ∧ c.frameMax ≤ 256 ∧ 1 ≤ c.xteaRounds ∧
  c.seedMac ≠ c.seedEncLo ∧ c.seedMac ≠ c.seedEncHi ∧ c.seedEncLo ≠ c.seedEncHi

/-- `PREAMBLE` (R5): `AA AA 2D D4`. -/
def preamble : List Byte := [0xAA, 0xAA, 0x2D, 0xD4]

/-- `MINLEN` (R5): the least declared length a frame may have. -/
def minLen : Nat := 6

/-- `MASTER_ADDR` (R5): the address byte reserved for the master. -/
def masterAddr : Byte := 0

end Sys2Proof
end

