-- ==== Sys2Proof/Machine/State.lean ====
section
/-! DEFINITION. Everything the engine remembers between steps (spec 10_state.md), its value after reset
(R32), and the reasons a step can stop. -/

namespace Sys2Proof.Machine

/-- `ROLE` (R20). -/
inductive Role where
  | slave
  | master
  deriving DecidableEq, Repr

/-- `LM`, the link mode (R21). -/
inductive LinkMode where
  | stopped
  | receiving
  | transmitting
  | txDone
  deriving DecidableEq, Repr

/-- `RXRES`, the result of the last `RXPROC` (R24); no other value is ever produced. -/
inductive RxResult where
  /-- `RX_NONE`: no `RXPROC` since reset. -/
  | none
  /-- `RX_DATA_OK`. -/
  | dataOk
  /-- `RX_SYNC_OK`. -/
  | syncOk
  /-- `RX_DATA_MACFAIL`. -/
  | dataMacFail
  /-- `RX_SYNC_MACFAIL`. -/
  | syncMacFail
  /-- `RX_DATA_ADDR`. -/
  | dataAddr
  /-- `RX_SYNC_SHORT`. -/
  | syncShort
  deriving DecidableEq, Repr

/-- The six command errors (60_exceptions.md R190). -/
inductive CommandError where
  /-- `ERR_ILLEGAL`. -/
  | illegal
  /-- `ERR_ROLE`. -/
  | role
  /-- `ERR_STATE`. -/
  | state
  /-- `ERR_NOKEY`. -/
  | nokey
  /-- `ERR_RANGE`. -/
  | range
  /-- `ERR_FULL`. -/
  | full
  deriving DecidableEq, Repr

/-- What arrives at the engine's ports (R10, R70, R71): a command word, a received byte, the
transmission-complete strobe, the reset input. -/
inductive Input where
  | command (w : CommandWord)
  | rxByte (b : Byte)
  | txComplete
  | hardReset
  deriving DecidableEq, Repr

/-- A byte buffer (`FB`, `PB`): address and byte pairs, addresses strictly rising, no byte 0x00 listed. An
unlisted address reads as 0x00, the reset contents R32 gives (log entry 10). -/
abbrev Memory := List Host.Cell

/-- The state of the engine (R12 to R26), and beside it four fields of the model's own. -/
structure State where
  /-- The configuration of R5 the engine is built with; no step changes it (DESIGN CHOICE, log entry 1). -/
  config : Config
  /-- `KEYS[0..39]` (R12). -/
  keys : Vector Byte 40
  /-- `MKMASK` (R13). -/
  mkmask : BitVec 16
  /-- `KRDY` (R16). -/
  krdy : Bool
  /-- `CTR[0..7]` (R17). -/
  ctr : Block
  /-- `BLK[0..7]` (R18). -/
  blk : Block
  /-- `FB[0..FRAME_MAX−1]` (R19). -/
  fb : Memory
  /-- `PB[0..PAYLOAD_MAX−1]` (R19). -/
  pb : Memory
  /-- `PLEN` (R19). -/
  plen : Byte
  /-- `ROLE` (R20). -/
  role : Role
  /-- `LM` (R21). -/
  lm : LinkMode
  /-- `RXPOS` (R22). -/
  rxpos : Byte
  /-- `RXEN` (R22). -/
  rxen : Bool
  /-- `RXFRZ` (R22). -/
  rxfrz : Bool
  /-- `RXREJ` (R23). -/
  rxrej : Bool
  /-- `RXRES` (R24). -/
  rxres : RxResult
  /-- `TXLEN` (R25). -/
  txlen : Byte
  /-- `ERRFLAGS` (R26). -/
  errflags : Byte
  /-- The inputs still to be taken, first one first (R10, R49; DESIGN CHOICE, log entry 2). -/
  inbox : List Input
  /-- The response words so far, oldest first (R29 a, R62; DESIGN CHOICE, log entry 3). -/
  responses : List ResponseWord
  /-- The `TXFRAME` events so far, oldest first (R29 c, R146; DESIGN CHOICE, log entry 3). -/
  txframes : List (List Byte)
  deriving DecidableEq, Repr

/-- Why a step can stop the machine. -/
inductive Fault where
  /-- Raised by `PUTC`, `BUILDD`, `BUILDS`, `SEND` and `RXPROC` when `PLEN`, `TXLEN` or `RXPOS` would take them
  to a byte outside `FB` or `PB` (R40, R52), which exists nowhere. No state with the invariants of R30 raises it,
  so no run from reset does. Safe: the model stops where the spec gives no byte
  (DESIGN CHOICE, log entry 4). -/
  | outsideBuffer
  deriving DecidableEq, Repr

/-- Why a step can have no meaning. -/
inductive Refusal where
  /-- Raised by an arm of `exec` whose command has no meaning yet; no arm does. Safe: the model stops. -/
  | notModelled (mnemonic : String)
  deriving DecidableEq, Repr

/-- The engine right after reset (R32, R215), in the reference configuration of R5 (log entry 1), with no input
waiting and no output given (log entries 2 and 3). -/
def State.reset : State where
  config := Config.reference
  keys := .replicate 40 0
  mkmask := 0
  krdy := false
  ctr := .replicate 8 0
  blk := .replicate 8 0
  fb := []
  pb := []
  plen := 0
  role := .slave
  lm := .stopped
  rxpos := 0
  rxen := false
  rxfrz := false
  rxrej := false
  rxres := .none
  txlen := 0
  errflags := 0
  inbox := []
  responses := []
  txframes := []

end Sys2Proof.Machine
end

