-- ==== Sys2Proof/Machine/Ops.lean ====
section
/-! DEFINITION. The shared operations: byte strings, byte orders (spec 00_scope.md R6, R7, 20_memory.md R45),
the buffers (20_memory.md R40), the counter (10_state.md R17), the end of a command with success or with an
error (30_encoding.md R61, R62, 60_exceptions.md R191), and reset (70_reset_and_hazards.md R215). -/

namespace Sys2Proof.Machine

/-! ## Byte strings of fixed length -/

/-- The byte string whose byte `i` is `f i`. -/
def tabulate (n : Nat) (f : Nat → Byte) : Vector Byte n :=
  ⟨((List.range n).map f).toArray, by simp⟩

/-- `v[i]` (R7); callers keep `i` inside the string. -/
def byteAt {n : Nat} (v : Vector Byte n) (i : Nat) : Byte := v.toList.getD i 0

/-- `v[i] <- d` (R7); callers keep `i` inside the string. -/
def setByte {n : Nat} (v : Vector Byte n) (i : Nat) (d : Byte) : Vector Byte n :=
  tabulate n fun j => if j = i then d else byteAt v j

/-- `v[off .. off+m−1]` (R7). -/
def slice {n : Nat} (v : Vector Byte n) (off m : Nat) : Vector Byte m :=
  tabulate m fun i => byteAt v (off + i)

/-- `v[off .. off+m−1] <- b` (R7). -/
def setSlice {n m : Nat} (v : Vector Byte n) (off : Nat) (b : Vector Byte m) : Vector Byte n :=
  tabulate n fun i => if off ≤ i ∧ i < off + m then byteAt b (i - off) else byteAt v i

/-- `x ⊕ y` of byte strings of equal length (R6). -/
def xorBytes {n : Nat} (x y : Vector Byte n) : Vector Byte n :=
  tabulate n fun i => byteAt x i ^^^ byteAt y i

/-- The block `0^8` (R6). -/
def zeroBlock : Block := tabulate 8 fun _ => 0

/-- The first eight bytes of a byte string as a block, zeros where it is shorter (the pad `0^n` of R101). -/
def blockOf (l : List Byte) : Block := tabulate 8 fun i => l.getD i 0

/-! ## Byte orders (R7, R45) -/

/-- `le32(b0, b1, b2, b3)`. -/
def le32 (b0 b1 b2 b3 : Byte) : Word := b3 ++ b2 ++ b1 ++ b0

/-- `be32(b0, b1, b2, b3)`. -/
def be32 (b0 b1 b2 b3 : Byte) : Word := b0 ++ b1 ++ b2 ++ b3

/-- Byte `i` of `bytes_le32(w)`. -/
def le32Byte (w : Word) (i : Nat) : Byte := w.extractLsb' (8 * i) 8

/-- Byte `i` of `bytes_be32(w)`, `i` at most 3. -/
def be32Byte (w : Word) (i : Nat) : Byte := w.extractLsb' (8 * (3 - i)) 8

/-- `be64(X)`: byte 0 most significant. -/
def be64 (x : Block) : BitVec 64 :=
  byteAt x 0 ++ byteAt x 1 ++ byteAt x 2 ++ byteAt x 3 ++
  byteAt x 4 ++ byteAt x 5 ++ byteAt x 6 ++ byteAt x 7

/-- `bytes_be64(y)`. -/
def bytesBe64 (y : BitVec 64) : Block := tabulate 8 fun i => y.extractLsb' (8 * (7 - i)) 8

/-- `ceil8(n)` = ⌈n/8⌉ (R7). -/
def ceil8 (n : Nat) : Nat := (n + 7) / 8

/-! ## Buffers -/

/-- The byte at an address; an unlisted address reads as 0x00 (R32). -/
def Memory.read : Memory → Nat → Byte
  | [], _ => 0
  | (b, w) :: m, a => if b = a then w else Memory.read m a

/-- The buffer with no byte listed at address `a`. -/
def Memory.erase (m : Memory) (a : Nat) : Memory := m.filter fun c => c.1 != a

/-- The buffer with byte `v` listed at address `a` before the first greater address. -/
def Memory.insert : Memory → Nat → Byte → Memory
  | [], a, v => [(a, v)]
  | (b, w) :: m, a, v => if a < b then (a, v) :: (b, w) :: m else (b, w) :: Memory.insert m a v

/-- The buffer with byte `v` at address `a`; writing 0x00 removes the entry, so the canonical form is kept. -/
def Memory.write (m : Memory) (a : Nat) (v : Byte) : Memory :=
  if v = 0 then Memory.erase m a else Memory.insert (Memory.erase m a) a v

/-- The bytes at `a .. a+n−1` in index order (`MemRead`, R7). -/
def Memory.readBytes (m : Memory) (a n : Nat) : List Byte := (List.range n).map fun i => Memory.read m (a + i)

/-- The buffer with the bytes `bs` at `a ..` in index order (`MemWrite`, R7). -/
def Memory.writeBytes : Memory → Nat → List Byte → Memory
  | m, _, [] => m
  | m, a, b :: bs => Memory.writeBytes (Memory.write m a b) (a + 1) bs

/-- The canonical form from address `lo` on: addresses strictly rising, none below `lo`, no byte 0x00 listed. -/
def Memory.wfFrom : Nat → Memory → Bool
  | _, [] => true
  | lo, (a, v) :: m => lo ≤ a && v != 0 && Memory.wfFrom (a + 1) m

/-- The canonical form of a buffer. -/
def Memory.wf (m : Memory) : Bool := Memory.wfFrom 0 m

/-- Every listed address lies in the space `0 .. size−1` (R40). -/
def Memory.within (m : Memory) (size : Nat) : Bool := m.all fun c => c.1 < size

/-- `PAYLOAD_MAX` = min(FRAME_MAX − 12, 121) (R5). -/
def payloadMax (c : Config) : Nat := min (c.frameMax - 12) 121

/-! ## The counter (R17) -/

/-- `pkt_cnt` = le32(CTR[4], CTR[5], CTR[6], CTR[7]). -/
def pktCnt (c : Block) : Word := le32 (byteAt c 4) (byteAt c 5) (byteAt c 6) (byteAt c 7)

/-- `with_cnt(C, n)`: the time bytes of `C`, then `bytes_le32(n)`. -/
def withCnt (c : Block) (n : Word) : Block :=
  tabulate 8 fun i => if i < 4 then byteAt c i else le32Byte n (i - 4)

/-- `pkt_cnt <- (pkt_cnt + k) mod 2^32`, the time bytes untouched (R9 b). -/
def addCnt (c : Block) (k : Word) : Block := withCnt c (pktCnt c + k)

/-! ## How a command ends -/

/-- The response word `code·2^8 + data` (R62). -/
def responseWord (code data : Byte) : ResponseWord := code ++ data

/-- `s` after the response with `code` and `data` has been given (R29 a). -/
def State.respond (s : State) (code data : Byte) : State :=
  { s with responses := s.responses ++ [responseWord code data] }

/-- The code of a command error (R190). -/
def CommandError.code : CommandError → Byte
  | .illegal => 1
  | .role => 2
  | .state => 3
  | .nokey => 4
  | .range => 5
  | .full => 6

/-- Bit `code − 1` of `ERRFLAGS` (R26). -/
def CommandError.flag : CommandError → Byte
  | .illegal => 0x01
  | .role => 0x02
  | .state => 0x04
  | .nokey => 0x08
  | .range => 0x10
  | .full => 0x20

/-- `s` with the sticky bit of the error set (R26). -/
def State.flagError (s : State) (e : CommandError) : State :=
  { s with errflags := s.errflags ||| e.flag }

/-- The command succeeds: its effects are `s`, its response code is 0x00 (R61, R62). -/
def succeed (s : State) (data : Byte) : Host.Outcome State Fault Refusal :=
  .next (s.respond 0 data)

/-- `fail ERR_x`, the engine's one exception entry (R7, R191, R196): the sticky bit, the response with data 0x00,
and nothing else. Nothing is saved and no command returns from it (R197). -/
def fail (e : CommandError) (s : State) : Host.Outcome State Fault Refusal :=
  .next ((s.flagError e).respond e.code 0)

/-- `s` after the output event `TXFRAME(frame)` (R29 c, R146). -/
def State.emitFrame (s : State) (frame : List Byte) : State :=
  { s with txframes := s.txframes ++ [frame] }

/-- Every piece of the spec's state at its reset value (R32, R215). The configuration, the inputs still to come
and the outputs already given are no state of the engine. -/
def State.cleared (s : State) : State :=
  { State.reset with
    config := s.config, inbox := s.inbox, responses := s.responses, txframes := s.txframes }

end Sys2Proof.Machine
end

