-- ==== Sys2Proof/Machine/Operands.lean ====
section
/-! DEFINITION. What a command's operands name: index spaces and ranges (spec 20_memory.md R40, R52), the owner
of the frame buffer (R44), and the key operands of the cipher (10_state.md R14, R15). -/

namespace Sys2Proof.Machine

/-- A single index operand is in range: `idx < size` (R52). -/
def inSpace (idx : Byte) (size : Nat) : Bool := idx.toNat < size

/-- `(off, len)` is in range: `off + len ≤ FRAME_MAX`, on natural numbers (R52). -/
def rangeInFb (s : State) (off len : Byte) : Bool := off.toNat + len.toNat ≤ s.config.frameMax

/-- A MAC command's message and tag are in range: `off + len + 4 ≤ FRAME_MAX` (R52). -/
def macRangeInFb (s : State) (off len : Byte) : Bool := off.toNat + len.toNat + 4 ≤ s.config.frameMax

/-- `HOSTFB`: the host owns the frame buffer (R44). -/
def State.hostFb (s : State) : Bool := !s.rxen && s.lm != .transmitting

/-- The three cipher key operands of R15, as `XENC` selects them. -/
inductive KeySel where
  /-- `KEY_MAC`, selector 0. -/
  | mac
  /-- `KEY_ENC`, selector 1. -/
  | enc
  /-- `KEY_M`, selector 2. -/
  | master
  deriving DecidableEq, Repr

/-- The index in `KEYS` where a key operand begins (R15). -/
def keyOffset : KeySel → Nat
  | .mac => 0
  | .enc => 8
  | .master => 24

/-- The 16 key bytes of an operand, as `KEYS` stands (R15). -/
def keyOperand (keys : Vector Byte 40) (k : KeySel) : Key := slice keys (keyOffset k) 16

/-- `K1` = `KEYS[24..31]` (R14). -/
def subkey1 (keys : Vector Byte 40) : Block := slice keys 24 8

/-- `K2` = `KEYS[32..39]` (R14). -/
def subkey2 (keys : Vector Byte 40) : Block := slice keys 32 8

/-- The key material an operand needs is there (R16, R83): `KRDY` for the derived keys, all of `MKMASK` for the
master key. -/
def keyPresent (s : State) : KeySel → Bool
  | .mac => s.krdy
  | .enc => s.krdy
  | .master => s.mkmask = 0xFFFF

/-- A frame built from a payload of `n` bytes has its bytes in `PB` and its place in `FB` (R141: always so when
`PLEN ≤ PAYLOAD_MAX`). -/
def frameFits (c : Config) (n : Nat) : Bool := n ≤ payloadMax c && n + 12 ≤ c.frameMax

end Sys2Proof.Machine
end

