-- ==== Sys2Proof/Machine/Buffers.lean ====
section
/-! DEFINITION. The buffer access commands (spec 44_buffers.md). -/

namespace Sys2Proof.Machine

/-- `WRFB idx, d` (R125). -/
def execWrfb (idx d : Byte) (s : State) : Host.Outcome State Fault Refusal :=
  if s.hostFb = false then fail .state s
  else if inSpace idx s.config.frameMax = false then fail .range s
  else succeed { s with fb := s.fb.write idx.toNat d } 0

/-- `RDFB idx` (R126). -/
def execRdfb (idx : Byte) (s : State) : Host.Outcome State Fault Refusal :=
  if inSpace idx s.config.frameMax = false then fail .range s
  else succeed s (s.fb.read idx.toNat)

/-- `PUTC d` (R127). -/
def execPutc (d : Byte) (s : State) : Host.Outcome State Fault Refusal :=
  if s.plen.toNat = payloadMax s.config then fail .full s
  else if payloadMax s.config < s.plen.toNat then .fault .outsideBuffer
  else succeed { s with pb := s.pb.write s.plen.toNat d, plen := s.plen + 1 } (s.plen + 1)

/-- `CLRPB` (R128). -/
def execClrpb (s : State) : Host.Outcome State Fault Refusal :=
  succeed { s with plen := 0 } 0

end Sys2Proof.Machine
end

