-- ==== Sys2Proof/Machine/Xtea.lean ====
section
/-! DEFINITION. The XTEA encrypt primitive `E` and the commands on the block register (spec 40_xtea.md). -/

namespace Sys2Proof.Machine

/-- `DELTA` (R81). -/
def xteaDelta : Word := 0x9E3779B9

/-- What the loop of R81 carries: `v0`, `v1`, `sum`. -/
structure XteaRegs where
  v0 : Word
  v1 : Word
  sum : Word
  deriving DecidableEq, Repr

/-- The mixing `((v << 4) ⊕ (v >> 5)) + v` of R81. -/
def xteaMix (v : Word) : Word := ((v <<< 4) ^^^ (v >>> 5)) + v

/-- One iteration of the loop of R81; `k` gives the four key words. -/
def xteaCycle (k : Nat → Word) (r : XteaRegs) : XteaRegs :=
  let v0 := r.v0 + (xteaMix r.v1 ^^^ (r.sum + k (r.sum &&& 3).toNat))
  let sum := r.sum + xteaDelta
  let v1 := r.v1 + (xteaMix v0 ^^^ (sum + k ((sum >>> 11) &&& 3).toNat))
  { v0 := v0, v1 := v1, sum := sum }

/-- The loop of R81, run the given number of times. -/
def xteaLoop (k : Nat → Word) : Nat → XteaRegs → XteaRegs
  | 0, r => r
  | n + 1, r => xteaLoop k n (xteaCycle k r)

/-- Four bytes packed into a cipher word under `XTEA_ENDIAN` (R45, R81). -/
def packWord (e : Endian) (b0 b1 b2 b3 : Byte) : Word :=
  match e with
  | .little => le32 b0 b1 b2 b3
  | .big => be32 b0 b1 b2 b3

/-- Byte `i` of a cipher word written back under `XTEA_ENDIAN` (R45, R81). -/
def unpackByte (e : Endian) (w : Word) (i : Nat) : Byte :=
  match e with
  | .little => le32Byte w i
  | .big => be32Byte w i

/-- Cipher word `j` of a byte string: its bytes `4j .. 4j+3` packed (R81). -/
def cipherWord {n : Nat} (e : Endian) (v : Vector Byte n) (j : Nat) : Word :=
  packWord e (byteAt v (4 * j)) (byteAt v (4 * j + 1)) (byteAt v (4 * j + 2)) (byteAt v (4 * j + 3))

/-- The block that `v0`, `v1` pack into (R81). -/
def packBlock (e : Endian) (v0 v1 : Word) : Block :=
  tabulate 8 fun i => if i < 4 then unpackByte e v0 i else unpackByte e v1 (i - 4)

/-- The reference instance of `E(K, X)` (R81): XTEA encryption of the block `x` under the key `k` (PRESUMED: the spec
marks the algorithm as general knowledge; log entry 5). -/
def xteaEncrypt (c : Config) (k : Key) (x : Block) : Block :=
  let r := xteaLoop (cipherWord c.xteaEndian k) c.xteaRounds
    { v0 := cipherWord c.xteaEndian x 0, v1 := cipherWord c.xteaEndian x 1, sum := 0 }
  packBlock c.xteaEndian r.v0 r.v1

/-- The value that the first row for `k` and `x` gives. -/
def cipherValue (k : Key) (x : Block) : List CipherRow → Block
  | [] => zeroBlock
  | r :: rows => if r.key = k ∧ r.block = x then r.result else cipherValue k x rows

/-- `E(K, X)` of a configuration (R82): every command that encrypts does so through this function. -/
def blockEncrypt (c : Config) (k : Key) (x : Block) : Block :=
  match c.cipher with
  | .xtea => xteaEncrypt c k x
  | .values rows => cipherValue k x rows

/-- `E` under a key operand of `KEYS` as it stands (R15). -/
def encryptUnder (s : State) (k : KeySel) (x : Block) : Block :=
  blockEncrypt s.config (keyOperand s.keys k) x

/-- `XENC` with a key selector (R83). -/
def encryptBlk (k : KeySel) (s : State) : Host.Outcome State Fault Refusal :=
  if keyPresent s k = false then fail .nokey s
  else succeed { s with blk := encryptUnder s k s.blk } 0

/-- `XENC 0` (R83). -/
def execXencMac (s : State) : Host.Outcome State Fault Refusal := encryptBlk .mac s

/-- `XENC 1` (R83). -/
def execXencEnc (s : State) : Host.Outcome State Fault Refusal := encryptBlk .enc s

/-- `XENC 2` (R83). -/
def execXencMaster (s : State) : Host.Outcome State Fault Refusal := encryptBlk .master s

/-- `WRBLK idx, d` (R84). -/
def execWrblk (idx d : Byte) (s : State) : Host.Outcome State Fault Refusal :=
  if inSpace idx 8 = false then fail .range s
  else succeed { s with blk := setByte s.blk idx.toNat d } 0

/-- `RDBLK idx` (R85). -/
def execRdblk (idx : Byte) (s : State) : Host.Outcome State Fault Refusal :=
  if inSpace idx 8 = false then fail .range s
  else succeed s (byteAt s.blk idx.toNat)

end Sys2Proof.Machine
end

