-- ==== Sys2Proof/Machine/Cmac.lean ====
section
/-! DEFINITION. The CMAC authenticator (spec 42_cmac.md). -/

namespace Sys2Proof.Machine

/-- The padding decision (R108): the message's length is a positive multiple of 8. -/
def endsOnBlock (len : Nat) : Bool := 0 < len && len % 8 == 0

/-- `nfull`, the number of blocks chained before the last one (R101). -/
def fullBlocks (len : Nat) : Nat := if endsOnBlock len then len / 8 - 1 else len / 8

/-- `last`, the final block before the last encryption (R101): under `K1` as it stands, or padded with `0x80` and
zeros under `K2`. -/
def lastBlock (k1 k2 : Block) (msg : List Byte) : Block :=
  let rest := msg.drop (8 * fullBlocks msg.length)
  if endsOnBlock msg.length then xorBytes (blockOf rest) k1
  else xorBytes (blockOf (rest ++ [0x80])) k2

/-- The chain of R101 over the first `n` blocks of a message, from the chain value `c`; `enc` is `E(KEY_MAC, ·)`. -/
def chainBlocks (enc : Block → Block) : Nat → List Byte → Block → Block
  | 0, _, c => c
  | n + 1, msg, c => chainBlocks enc n (msg.drop 8) (enc (xorBytes c (blockOf msg)))

/-- `CMAC(msg, pfx)` (R101): the final chain value, for the cipher `enc` = `E(KEY_MAC, ·)` and the subkeys. -/
def cmac (enc : Block → Block) (k1 k2 : Block) (msg : List Byte) (pfx : Option Block) : Block :=
  let c0 := match pfx with
    | none => zeroBlock
    | some p => enc p
  enc (xorBytes (chainBlocks enc (fullBlocks msg.length) msg c0) (lastBlock k1 k2 msg))

/-- `tag(msg, pfx)` (R102): bytes 0..3 of the chain value, under the keys of `s`. -/
def macTag (s : State) (msg : List Byte) (pfx : Option Block) : List Byte :=
  (cmac (encryptUnder s .mac) (subkey1 s.keys) (subkey2 s.keys) msg pfx).toList.take 4

/-- The checks of the four MAC commands in their order (42_cmac.md section 2), then the command. -/
def checkMac (off len : Byte) (s : State) (command : Host.Outcome State Fault Refusal) :
    Host.Outcome State Fault Refusal :=
  if s.hostFb = false then fail .state s
  else if s.krdy = false then fail .nokey s
  else if macRangeInFb s off len = false then fail .range s
  else command

/-- Generate mode: the tag is written after the message (R103, R104). -/
def macGenerate (off len : Byte) (pfx : Option Block) (s : State) : Host.Outcome State Fault Refusal :=
  checkMac off len s <|
    succeed { s with
      fb := s.fb.writeBytes (off.toNat + len.toNat) (macTag s (s.fb.readBytes off.toNat len.toNat) pfx) } 0

/-- The four bytes after the message are its tag (R105). -/
def macMatches (off len : Byte) (pfx : Option Block) (s : State) : Bool :=
  macTag s (s.fb.readBytes off.toNat len.toNat) pfx = s.fb.readBytes (off.toNat + len.toNat) 4

/-- Verify mode: the answer is the data byte, the state is unchanged (R105, R106). -/
def macVerify (off len : Byte) (pfx : Option Block) (s : State) : Host.Outcome State Fault Refusal :=
  checkMac off len s <| succeed s (if macMatches off len pfx s then 1 else 0)

/-- `MACG off, len` (R103). -/
def execMacg (off len : Byte) (s : State) : Host.Outcome State Fault Refusal := macGenerate off len none s

/-- `MACGC off, len` (R104). -/
def execMacgc (off len : Byte) (s : State) : Host.Outcome State Fault Refusal :=
  macGenerate off len (some s.ctr) s

/-- `MACV off, len` (R105). -/
def execMacv (off len : Byte) (s : State) : Host.Outcome State Fault Refusal := macVerify off len none s

/-- `MACVC off, len` (R106). -/
def execMacvc (off len : Byte) (s : State) : Host.Outcome State Fault Refusal :=
  macVerify off len (some s.ctr) s

end Sys2Proof.Machine
end

