-- ==== Sys2Proof/Machine/Ctr.lean ====
section
/-! DEFINITION. The counter-mode stream cipher and the counter register (spec 43_ctr.md). -/

namespace Sys2Proof.Machine

/-- What `ctr_crypt` works on (R116): the frame buffer and the counter. -/
structure CryptRegs where
  fb : Memory
  ctr : Block
  deriving DecidableEq, Repr

/-- The bytes `bs` XORed with the leading bytes of a keystream block (R116 c). -/
def xorStream (bs : List Byte) (ks : Block) : List Byte := bs.zipWith (· ^^^ ·) ks.toList

/-- One turn of the loop of R116: a keystream block of the counter as it stands, the counter advanced by 1, and the
next `m` bytes XORed; `enc` is `E(KEY_ENC, ·)`. -/
def cryptBlock (enc : Block → Block) (off m : Nat) (r : CryptRegs) : CryptRegs :=
  { fb := r.fb.writeBytes off (xorStream (r.fb.readBytes off m) (enc r.ctr))
    ctr := addCnt r.ctr 1 }

/-- The loop of R116, `blocks` turns, with `left` bytes still to do from `off` on. -/
def cryptLoop (enc : Block → Block) : Nat → Nat → Nat → CryptRegs → CryptRegs
  | 0, _, _, r => r
  | blocks + 1, off, left, r =>
    cryptLoop enc blocks (off + 8) (left - 8) (cryptBlock enc off (min 8 left) r)

/-- `ctr_crypt(off, len)` (R116). -/
def ctrCrypt (enc : Block → Block) (off len : Nat) (r : CryptRegs) : CryptRegs :=
  cryptLoop enc (ceil8 len) off len r

/-- `CRYPT off, len` (R117). -/
def execCrypt (off len : Byte) (s : State) : Host.Outcome State Fault Refusal :=
  if s.hostFb = false then fail .state s
  else if s.krdy = false then fail .nokey s
  else if rangeInFb s off len = false then fail .range s
  else
    let r := ctrCrypt (encryptUnder s .enc) off.toNat len.toNat { fb := s.fb, ctr := s.ctr }
    succeed { s with fb := r.fb, ctr := r.ctr } 0

/-- `WRCTR idx, d` (R118). -/
def execWrctr (idx d : Byte) (s : State) : Host.Outcome State Fault Refusal :=
  if inSpace idx 8 = false then fail .range s
  else succeed { s with ctr := setByte s.ctr idx.toNat d } 0

/-- `RDCTR idx` (R119). -/
def execRdctr (idx : Byte) (s : State) : Host.Outcome State Fault Refusal :=
  if inSpace idx 8 = false then fail .range s
  else succeed s (byteAt s.ctr idx.toNat)

/-- `ADDCNT k` (R120). -/
def execAddcnt (k : Byte) (s : State) : Host.Outcome State Fault Refusal :=
  succeed { s with ctr := addCnt s.ctr (k.setWidth 32) } 0

end Sys2Proof.Machine
end

