-- ==== Sys2Proof/Machine/Flags.lean ====
section
/-! DEFINITION. The status the engine shows: the interrupt line (spec 60_exceptions.md R195), `STATUS`
(10_state.md R28) and the control and status registers (R27). The one flag update a command makes, a bit of
`ERRFLAGS`, is `State.flagError` of Ops. -/

namespace Sys2Proof.Machine

/-- `ROLE` as a bit: 0 slave, 1 master (R20). -/
def Role.code : Role → BitVec 1
  | .slave => 0
  | .master => 1

/-- `LM` as a number, in the listing order of R21. -/
def LinkMode.code : LinkMode → BitVec 2
  | .stopped => 0
  | .receiving => 1
  | .transmitting => 2
  | .txDone => 3

/-- `RXRES` as a byte (R24). -/
def RxResult.code : RxResult → Byte
  | .none => 0
  | .dataOk => 1
  | .syncOk => 2
  | .dataMacFail => 3
  | .syncMacFail => 4
  | .dataAddr => 5
  | .syncShort => 6

/-- The interrupt line: a frame is frozen or a transmission is done (R29 b, R195). -/
def State.irq (s : State) : Bool := s.rxfrz || s.lm == .txDone

/-- `STATUS` (R28), bit 7 first: `IRQ`, `RXREJ`, `RXFRZ`, `RXEN`, `LM`, `ROLE`, `KRDY`. -/
def State.status (s : State) : Byte :=
  BitVec.ofBool s.irq ++ BitVec.ofBool s.rxrej ++ BitVec.ofBool s.rxfrz ++ BitVec.ofBool s.rxen ++
  s.lm.code ++ s.role.code ++ BitVec.ofBool s.krdy

/-- The control and status register `n`, none where `n` is reserved (R27). -/
def State.csr (s : State) (n : Byte) : Option Byte :=
  match n with
  | 0#8 => some s.status
  | 1#8 => some s.errflags
  | 2#8 => some s.rxpos
  | 3#8 => some s.plen
  | 4#8 => some s.txlen
  | 5#8 => some s.rxres.code
  | 6#8 => some (s.mkmask.extractLsb' 0 8)
  | 7#8 => some (s.mkmask.extractLsb' 8 8)
  | _ => none

end Sys2Proof.Machine
end

