-- ==== Sys2Proof/Machine/Framer.lean ====
section
/-! DEFINITION. The packet framer and deframer (spec 45_framer.md; frame layouts 20_memory.md R41 to R43). -/

namespace Sys2Proof.Machine

/-! ## Building and sending -/

/-- The frame buffer with preamble, length byte, address and the payload of `n` bytes laid out in the TX view (R42,
R141 steps 1 and 2, R145). -/
def layFrame (s : State) (lengthByte addr : Byte) (n : Nat) : Memory :=
  ((s.fb.writeBytes 0 preamble).writeBytes 4 [lengthByte, addr]).writeBytes 6 (s.pb.readBytes 0 n)

/-- The frame buffer with the tag and the two trailer bytes after a payload of `n` bytes (R42, R141 steps 3b and 5). -/
def sealFrame (s : State) (fb : Memory) (n : Nat) (tag : List Byte) : Memory :=
  (fb.writeBytes (6 + n) tag).writeBytes (10 + n) [s.config.trailer, s.config.trailer]

/-- What both builds do once the frame of `n` payload bytes stands in `fb` and the counter is `ctr` (R141, R145): the
payload is consumed, the frame is pending, a received frame is gone; the answer is the frame's length. -/
def finishBuild (s : State) (fb : Memory) (ctr : Block) (n : Nat) : Host.Outcome State Fault Refusal :=
  succeed { s with
    fb := fb, ctr := ctr, txlen := BitVec.ofNat 8 (n + 12), plen := 0, rxpos := 0, rxfrz := false }
    (BitVec.ofNat 8 (n + 12))

/-- `BUILDD addr` (R141, R142). -/
def execBuildd (addr : Byte) (s : State) : Host.Outcome State Fault Refusal :=
  if s.hostFb = false then fail .state s
  else if s.krdy = false then fail .nokey s
  else if frameFits s.config s.plen.toNat = false then .fault .outsideBuffer
  else
    let n := s.plen.toNat
    let r := ctrCrypt (encryptUnder s .enc) 6 n
      { fb := layFrame s (BitVec.ofNat 8 (n + 6)) addr n, ctr := s.ctr }
    let tag := macTag s (r.fb.readBytes 5 (n + 1)) (some r.ctr)
    finishBuild s (sealFrame s r.fb n tag) (addCnt r.ctr 1) n

/-- The counter after a sync frame whose four time bytes stand at `a` in `fb` (R145, R149): the time bytes, and
`pkt_cnt` zero. -/
def syncCounter (fb : Memory) (a : Nat) : Block := blockOf (fb.readBytes a 4)

/-- `BUILDS addr` (R145). -/
def execBuilds (addr : Byte) (s : State) : Host.Outcome State Fault Refusal :=
  if s.role ≠ .master then fail .role s
  else if s.hostFb = false then fail .state s
  else if s.krdy = false then fail .nokey s
  else if s.plen.toNat < 4 then fail .range s
  else if frameFits s.config s.plen.toNat = false then .fault .outsideBuffer
  else
    let n := s.plen.toNat
    let fb := layFrame s (0x80 ||| BitVec.ofNat 8 (n + 6)) addr n
    let tag := macTag s (fb.readBytes 6 n) none
    let sealed := sealFrame s fb n tag
    finishBuild s sealed (syncCounter sealed 6) n

/-- `SEND` (R146). -/
def execSend (s : State) : Host.Outcome State Fault Refusal :=
  if s.hostFb = false ∨ s.txlen = 0 then fail .state s
  else if s.config.frameMax < s.txlen.toNat then .fault .outsideBuffer
  else
    succeed { s.emitFrame (s.fb.readBytes 0 s.txlen.toNat) with
      lm := .transmitting, rxpos := 0, rxfrz := false, txlen := 0 } s.txlen

/-! ## Receiving bytes -/

/-- `L`, the declared length: the low seven bits of the length byte `FB[0]` (R147). -/
def declaredLength (fb : Memory) : Nat := (fb.read 0 &&& 0x7F).toNat

/-- Byte-level rejection (R147): start over and keep listening. -/
def rejectFrame (s : State) : State := { s with rxpos := 0, rxrej := true }

/-- The radio event `RXBYTE(b)` (R147): no response, and it cannot fail. -/
def receiveByte (b : Byte) (s : State) : State :=
  if s.rxen = false then s
  else if s.config.frameMax ≤ s.rxpos.toNat then rejectFrame s
  else
    let stored := { s with fb := s.fb.write s.rxpos.toNat b, rxpos := s.rxpos + 1 }
    let l := declaredLength stored.fb
    if s.config.frameMax ≤ l ∨ l < minLen then rejectFrame stored
    else if l ≤ s.rxpos.toNat + 1 then { stored with rxen := false, rxfrz := true }
    else stored

/-! ## Processing a frozen frame -/

/-- `sync_branch(n)` on a frame whose `RXFRZ` has been cleared (R149). -/
def syncBranch (n : Nat) (s : State) : State × RxResult :=
  if macTag s (s.fb.readBytes 2 n) none ≠ s.fb.readBytes (2 + n) 4 then (s, .syncMacFail)
  else if n < 4 then (s, .syncShort)
  else ({ s with ctr := syncCounter s.fb 2, lm := .stopped }, .syncOk)

/-- `data_branch(n)` on a frame whose `RXFRZ` has been cleared (R150, R151). -/
def dataBranch (n : Nat) (s : State) : State × RxResult :=
  let adjusted := addCnt s.ctr (BitVec.ofNat 32 (ceil8 n))
  if macTag s (s.fb.readBytes 1 (n + 1)) (some adjusted) ≠ s.fb.readBytes (2 + n) 4 then (s, .dataMacFail)
  else
    let r := ctrCrypt (encryptUnder s .enc) 2 n { fb := s.fb, ctr := s.ctr }
    let decrypted := { s with fb := r.fb, ctr := addCnt r.ctr 1 }
    if s.role = .slave ∧ s.fb.read 1 ≠ masterAddr then (decrypted, .dataAddr) else (decrypted, .dataOk)

/-- The branch the sync flag, bit 7 of the length byte, selects (R148). -/
def processFrame (n : Nat) (s : State) : State × RxResult :=
  if (s.fb.read 0).getLsbD 7 then syncBranch n s else dataBranch n s

/-- `RXPROC` (R148). -/
def execRxproc (s : State) : Host.Outcome State Fault Refusal :=
  if s.rxfrz = false then fail .state s
  else if s.krdy = false then fail .nokey s
  else if s.rxpos.toNat < minLen ∨ s.config.frameMax < s.rxpos.toNat then .fault .outsideBuffer
  else
    let (t, result) := processFrame (s.rxpos.toNat - minLen) { s with rxfrz := false }
    succeed { t with rxres := result } result.code

end Sys2Proof.Machine
end

