-- ==== Sys2Proof/Machine/KeySchedule.lean ====
section
/-! DEFINITION. The key schedule (spec 41_key_schedule.md). -/

namespace Sys2Proof.Machine

/-- `dbl(X)` (R91): the block as a big-endian number shifted left by one, `RB` XORed into byte 7 if the bit
shifted out was 1. -/
def dbl (rb : Byte) (x : Block) : Block :=
  let n := be64 x
  let y := bytesBe64 (n <<< 1)
  if n.getLsbD 63 then setByte y 7 (byteAt y 7 ^^^ rb) else y

/-- The key block after the schedule (R92, steps 1 to 4 in order), for a cipher `enc`. -/
def deriveKeys (enc : Key → Block → Block) (c : Config) (keys : Vector Byte 40) : Vector Byte 40 :=
  let mk := keyOperand keys .master
  let step1 := setSlice (setSlice (setSlice keys 0 (enc mk c.seedMac)) 8 (enc mk c.seedEncLo)) 16 (enc mk c.seedEncHi)
  let l := enc (keyOperand step1 .mac) zeroBlock
  let k1 := dbl c.rb l
  let k2 := dbl c.rb k1
  setSlice (setSlice step1 24 k1) 32 k2

/-- `WRMK idx, d` (R90): the byte, its bit of `MKMASK`, and `KRDY` dropped. -/
def execWrmk (idx d : Byte) (s : State) : Host.Outcome State Fault Refusal :=
  if inSpace idx 16 = false then fail .range s
  else succeed { s with
    keys := setByte s.keys (24 + idx.toNat) d
    mkmask := s.mkmask ||| (1#16 <<< idx.toNat)
    krdy := false } 0

/-- `DERIVE` (R92). -/
def execDerive (s : State) : Host.Outcome State Fault Refusal :=
  if s.mkmask ≠ 0xFFFF then fail .nokey s
  else succeed { s with
    keys := deriveKeys (blockEncrypt s.config) s.config s.keys
    mkmask := 0
    krdy := true } 0

end Sys2Proof.Machine
end

