-- ==== Sys2Proof/Machine/Link.lean ====
section
/-! DEFINITION. The system and link-mode commands and the radio event `TXCOMPLETE` (spec 46_link_system.md), and
the reset input (70_reset_and_hazards.md R215). -/

namespace Sys2Proof.Machine

/-- `NOP` (R170). -/
def execNop (s : State) : Host.Outcome State Fault Refusal := succeed s 0

/-- `RESET` (R171): as a hardware reset, and a response. -/
def execReset (s : State) : Host.Outcome State Fault Refusal := succeed s.cleared 0

/-- `SETROLE role` (R172); a role byte above 1 is an illegal operand (R63), which the decoder never gives
(DEDUCED, log entry 8). -/
def execSetrole (role : Byte) (s : State) : Host.Outcome State Fault Refusal :=
  if 1 < role.toNat then fail .illegal s
  else succeed { s with role := if role = 1 then .master else .slave } 0

/-- `RDCSR n` (R173). -/
def execRdcsr (n : Byte) (s : State) : Host.Outcome State Fault Refusal :=
  match s.csr n with
  | some v => succeed s v
  | none => fail .range s

/-- `RXON` (R174). -/
def execRxon (s : State) : Host.Outcome State Fault Refusal :=
  succeed { s with
    lm := .receiving, rxpos := 0, rxfrz := false, rxrej := false, txlen := 0, rxen := true } 0

/-- `STOP` (R175). -/
def execStop (s : State) : Host.Outcome State Fault Refusal :=
  succeed { s with
    lm := .stopped, rxen := false, rxpos := 0, rxfrz := false, rxrej := false, txlen := 0 } 0

/-- The radio event `TXCOMPLETE` (R177): no response, and ignored outside `transmitting`. -/
def completeTransmission (s : State) : State :=
  if s.lm = .transmitting then { s with lm := .txDone } else s

end Sys2Proof.Machine
end

