-- ==== Sys2Proof/Machine/Dispatch.lean ====
section
/-! DEFINITION. One arm per command (spec 30_encoding.md R64). -/

namespace Sys2Proof.Machine

def exec (i : Instr) (s : State) : Host.Outcome State Fault Refusal :=
  match i with
  | .nop => Sys2Proof.Machine.execNop s
  | .reset => Sys2Proof.Machine.execReset s
  | .setrole role => Sys2Proof.Machine.execSetrole role s
  | .rdcsr n => Sys2Proof.Machine.execRdcsr n s
  | .wrmk idx d => Sys2Proof.Machine.execWrmk idx d s
  | .derive => Sys2Proof.Machine.execDerive s
  | .wrctr idx d => Sys2Proof.Machine.execWrctr idx d s
  | .rdctr idx => Sys2Proof.Machine.execRdctr idx s
  | .wrblk idx d => Sys2Proof.Machine.execWrblk idx d s
  | .rdblk idx => Sys2Proof.Machine.execRdblk idx s
  | .addcnt k => Sys2Proof.Machine.execAddcnt k s
  | .xencMac => Sys2Proof.Machine.execXencMac s
  | .xencEnc => Sys2Proof.Machine.execXencEnc s
  | .xencMaster => Sys2Proof.Machine.execXencMaster s
  | .macg off len => Sys2Proof.Machine.execMacg off len s
  | .macgc off len => Sys2Proof.Machine.execMacgc off len s
  | .macv off len => Sys2Proof.Machine.execMacv off len s
  | .macvc off len => Sys2Proof.Machine.execMacvc off len s
  | .crypt off len => Sys2Proof.Machine.execCrypt off len s
  | .wrfb idx d => Sys2Proof.Machine.execWrfb idx d s
  | .rdfb idx => Sys2Proof.Machine.execRdfb idx s
  | .putc d => Sys2Proof.Machine.execPutc d s
  | .clrpb => Sys2Proof.Machine.execClrpb s
  | .buildd addr => Sys2Proof.Machine.execBuildd addr s
  | .builds addr => Sys2Proof.Machine.execBuilds addr s
  | .send => Sys2Proof.Machine.execSend s
  | .rxproc => Sys2Proof.Machine.execRxproc s
  | .rxon => Sys2Proof.Machine.execRxon s
  | .stop => Sys2Proof.Machine.execStop s

end Sys2Proof.Machine
end

