-- ==== Sys2Proof/Machine/Ports.lean ====
section
/-! DEFINITION. What the engine does with each thing that arrives at a port (spec 10_state.md R10, 30_encoding.md
R61, R65, R70, R71). -/

namespace Sys2Proof.Machine

/-- A command word (R61): the command it spells, or `ERR_ILLEGAL` (R65). -/
def acceptCommand (w : CommandWord) (s : State) : Host.Outcome State Fault Refusal :=
  match decode w with
  | .ok i => exec i s
  | .error _ => fail .illegal s

/-- One input, taken as one step (R10, R49). -/
def acceptInput (i : Input) (s : State) : Host.Outcome State Fault Refusal :=
  match i with
  | .command w => acceptCommand w s
  | .rxByte b => .next (receiveByte b s)
  | .txComplete => .next (completeTransmission s)
  | .hardReset => .next s.cleared

/-- The next input of the inbox is taken; with none the engine does nothing (R10: it takes no step of its own;
DESIGN CHOICE, log entry 2). -/
def takeInput (s : State) : Host.Outcome State Fault Refusal :=
  match s.inbox with
  | [] => .next s
  | i :: rest => acceptInput i { s with inbox := rest }

/-- The command word with the `nbits` bits `w`, the bits above them zero. -/
def tableWord (nbits w : Nat) : CommandWord := BitVec.ofNat 24 (w % 2 ^ nbits)

end Sys2Proof.Machine
end

