-- ==== Sys2Proof/Machine/Step.lean ====
section
/-! DEFINITION. One step of the machine: the host's next command or the next event from outside (spec 10_state.md
R10, 20_memory.md R49). -/

namespace Sys2Proof.Machine

/-- One step: the first input of the inbox is taken. -/
def step (s : State) : Host.Outcome State Fault Refusal := takeInput s

/-- `s` with a command word presented at the command port, so that the next step runs it. -/
def State.withFetchWord (s : State) (nbits w : Nat) : State :=
  { s with inbox := .command (tableWord nbits w) :: s.inbox }

end Sys2Proof.Machine
end

