-- ==== Sys2Proof/Machine/Assembly.lean ====
section
/-! DEFINITION. The spec's own textual form of command words, radio events and expected responses, and its
pseudo-instructions (spec 30_encoding.md R67, R68). No step of the machine reads it. What the two rules leave open of
the form of a line is settled in log entry 11 (DESIGN CHOICE): a line that is not of their form stands for nothing. -/

namespace Sys2Proof.Machine

/-- One line of a program: what arrives at a port, and the response the line expects, if it says one (R67). -/
structure AsmLine where
  input : Input
  expected : Option ResponseWord
  deriving DecidableEq, Repr

/-! ## The pseudo-instructions (R68) -/

/-- The lines `line off h0`, `line (off+1) h1`, … of R68, one a byte in ascending index. An index above 255 is no
operand byte (R60) and no index wraps (00_scope.md R9 d), so a string that would pass 255 has no expansion (DESIGN
CHOICE, log entry 11: R68 does not say so). -/
def indexedLines (line : Byte → Byte → AsmLine) (off : Nat) (bs : List Byte) : Option (List AsmLine) :=
  if off + bs.length ≤ 256 then some (bs.mapIdx fun k h => line (BitVec.ofNat 8 (off + k)) h) else none

/-- The command `op i, h`, with no response expected. -/
def commandLine (op i h : Byte) : AsmLine := ⟨.command (commandWord op i h), none⟩

/-- The lines of a register load, which takes exactly `size` bytes from index 0 on (R68). -/
def loadLines (op : Byte) (size : Nat) (bs : List Byte) : Option (List AsmLine) :=
  if bs.length = size then indexedLines (commandLine op) 0 bs else none

/-- `LDMK <16 bytes>`: `WRMK 0, h0` … `WRMK 15, h15`. -/
def pseudoLdmk (bs : List Byte) : Option (List AsmLine) := loadLines 0x10 16 bs

/-- `LDCTR <8 bytes>`: `WRCTR 0, h0` … `WRCTR 7, h7`. -/
def pseudoLdctr (bs : List Byte) : Option (List AsmLine) := loadLines 0x12 8 bs

/-- `LDBLK <8 bytes>`: `WRBLK 0, h0` … `WRBLK 7, h7`. -/
def pseudoLdblk (bs : List Byte) : Option (List AsmLine) := loadLines 0x14 8 bs

/-- `LDFB off, <m bytes>`: `WRFB off, h0` … `WRFB off+m−1, h(m−1)`. -/
def pseudoLdfb (off : Byte) (bs : List Byte) : Option (List AsmLine) := indexedLines (commandLine 0x30) off.toNat bs

/-- `PUTS <m bytes>`: `PUTC c0` … `PUTC c(m−1)`. -/
def pseudoPuts (bs : List Byte) : List AsmLine := bs.map fun c => commandLine 0x32 0 c

/-- `@RXS <m bytes>`: `@RX h0` … `@RX h(m−1)`. -/
def pseudoRxs (bs : List Byte) : List AsmLine := bs.map fun h => ⟨.rxByte h, none⟩

/-- `RDFB i -> 00h`. -/
def expectLine (i h : Byte) : AsmLine := ⟨.command (commandWord 0x31 i 0), some ((0 : Byte) ++ h)⟩

/-- `EXPECT FB off, <m bytes>`: `RDFB off -> 00h0` …, m reads, each with its expected response. -/
def pseudoExpectFb (off : Byte) (bs : List Byte) : Option (List AsmLine) := indexedLines expectLine off.toNat bs

/-! ## Reading a line (R67) -/

/-- A blank. -/
def isBlank (c : Char) : Bool := c = ' ' || c = '\t'

/-- The line up to a `;`, which starts a comment, inside a quoted text too (DESIGN CHOICE, log entry 11). -/
def dropComment : List Char → List Char
  | [] => []
  | c :: cs => if c = ';' then [] else c :: dropComment cs

/-- A word that ends before `rest`; `word` is the word read so far, reversed. -/
def endWord (word : List Char) (rest : List (List Char)) : List (List Char) :=
  match word with
  | [] => rest
  | _ :: _ => word.reverse :: rest

/-- The words of a line: blanks separate them, and a comma is a word of its own. `word` is the word being read,
reversed. -/
def lineWords : List Char → List Char → List (List Char)
  | [], word => endWord word []
  | c :: cs, word =>
    if isBlank c then endWord word (lineWords cs [])
    else if c = ',' then endWord word ([','] :: lineWords cs [])
    else lineWords cs (c :: word)

/-- The value of a digit, hexadecimal digits included. -/
def digitValue (c : Char) : Option Nat :=
  if '0' ≤ c ∧ c ≤ '9' then some (c.toNat - '0'.toNat)
  else if 'a' ≤ c ∧ c ≤ 'f' then some (c.toNat - 'a'.toNat + 10)
  else if 'A' ≤ c ∧ c ≤ 'F' then some (c.toNat - 'A'.toNat + 10)
  else none

/-- The digits read in a base, on from the number `acc`. -/
def readDigits (base : Nat) : List Char → Nat → Option Nat
  | [], acc => some acc
  | c :: cs, acc =>
    match digitValue c with
    | some d => if d < base then readDigits base cs (acc * base + d) else none
    | none => none

/-- A number, decimal or `0x` hexadecimal (R67). -/
def readNumber : List Char → Option Nat
  | [] => none
  | '0' :: 'x' :: c :: cs => readDigits 16 (c :: cs) 0
  | cs => readDigits 10 cs 0

/-- A number that is a byte. -/
def readByte (cs : List Char) : Option Byte :=
  match readNumber cs with
  | some n => if n < 256 then some (BitVec.ofNat 8 n) else none
  | none => none

/-- The bytes of a string of hexadecimal digits, two a byte. -/
def readHexPairs : List Char → Option (List Byte)
  | [] => some []
  | [_] => none
  | h :: l :: cs =>
    (readDigits 16 [h, l] 0).bind fun n => (readHexPairs cs).map (BitVec.ofNat 8 n :: ·)

/-- `<hex>`, a string of hexadecimal byte pairs, written with or without blanks between them (R68). -/
def readHex : List (List Char) → Option (List Byte)
  | [] => some []
  | w :: ws => (readHexPairs w).bind fun bs => (readHex ws).map (bs ++ ·)

/-- The operands that follow the first, each after a comma (R67). -/
def moreOperands : List (List Char) → Option (List Byte)
  | [] => some []
  | [_] => none
  | c :: w :: ws =>
    if c = [','] then (readByte w).bind fun b => (moreOperands ws).map (b :: ·) else none

/-- The operands of a command, separated by commas (R67). -/
def readOperands : List (List Char) → Option (List Byte)
  | [] => some []
  | w :: ws => (readByte w).bind fun b => (moreOperands ws).map (b :: ·)

/-- The opcode of a mnemonic and which of `a`, `b` it takes (R64, R67). -/
def mnemonicForm (m : String) : Option (Byte × Bool × Bool) :=
  match m with
  | "NOP" => some (0x00, false, false)
  | "RESET" => some (0x01, false, false)
  | "SETROLE" => some (0x02, false, true)
  | "RDCSR" => some (0x03, true, false)
  | "WRMK" => some (0x10, true, true)
  | "DERIVE" => some (0x11, false, false)
  | "WRCTR" => some (0x12, true, true)
  | "RDCTR" => some (0x13, true, false)
  | "WRBLK" => some (0x14, true, true)
  | "RDBLK" => some (0x15, true, false)
  | "ADDCNT" => some (0x16, false, true)
  | "XENC" => some (0x20, false, true)
  | "MACG" => some (0x21, true, true)
  | "MACGC" => some (0x22, true, true)
  | "MACV" => some (0x23, true, true)
  | "MACVC" => some (0x24, true, true)
  | "CRYPT" => some (0x25, true, true)
  | "WRFB" => some (0x30, true, true)
  | "RDFB" => some (0x31, true, false)
  | "PUTC" => some (0x32, false, true)
  | "CLRPB" => some (0x33, false, false)
  | "BUILDD" => some (0x40, false, true)
  | "BUILDS" => some (0x41, false, true)
  | "SEND" => some (0x42, false, false)
  | "RXPROC" => some (0x43, false, false)
  | "RXON" => some (0x50, false, false)
  | "STOP" => some (0x51, false, false)
  | _ => none

/-- The command word of a mnemonic and its operands, in the order `a`, `b` (R67). -/
def assembleWord (m : String) (operands : List Byte) : Option CommandWord :=
  match mnemonicForm m, operands with
  | some (op, false, false), [] => some (commandWord op 0 0)
  | some (op, true, false), [a] => some (commandWord op a 0)
  | some (op, false, true), [b] => some (commandWord op 0 b)
  | some (op, true, true), [a, b] => some (commandWord op a b)
  | _, _ => none

/-- The bytes of a quoted text after its opening quote, "ASCII for text" (R68); after the closing quote stand blanks
only. -/
def quotedBytes : List Char → Option (List Byte)
  | [] => none
  | c :: cs =>
    if c = '"' then (if cs.all isBlank then some [] else none)
    else if c.toNat < 128 then (quotedBytes cs).map (BitVec.ofNat 8 c.toNat :: ·)
    else none

/-- A command line: its mnemonic and operands, and the response it expects (R67). -/
def readCommand (m : List Char) (operands : List (List Char)) (r : Option ResponseWord) : Option (List AsmLine) :=
  (readOperands operands).bind fun bs => (assembleWord (String.ofList m) bs).map fun w => [⟨.command w, r⟩]

/-- An operand byte, a comma and a string of byte pairs, as `LDFB` and `EXPECT FB` take them (R68). -/
def readOffsetHex (ws : List (List Char)) (expand : Byte → List Byte → Option (List AsmLine)) : Option (List AsmLine) :=
  match ws with
  | off :: c :: hs =>
    if c = [','] then (readByte off).bind fun o => (readHex hs).bind (expand o) else none
  | _ => none

/-- The lines that a line without an expected response stands for: a pseudo-instruction (R68), a radio event, or a
command (R67). -/
def assembleWords : List (List Char) → Option (List AsmLine)
  | [] => some []
  | m :: rest =>
    match String.ofList m with
    | "LDMK" => (readHex rest).bind pseudoLdmk
    | "LDCTR" => (readHex rest).bind pseudoLdctr
    | "LDBLK" => (readHex rest).bind pseudoLdblk
    | "LDFB" => readOffsetHex rest pseudoLdfb
    | "PUTS" => (readHex rest).map pseudoPuts
    | "@RX" =>
      match rest with
      | [w] => (readByte w).map fun b => pseudoRxs [b]
      | _ => none
    | "@RXS" => (readHex rest).map pseudoRxs
    | "@TXC" => if rest = [] then some [⟨.txComplete, none⟩] else none
    | "EXPECT" =>
      match rest with
      | fb :: args => if String.ofList fb = "FB" then readOffsetHex args pseudoExpectFb else none
      | [] => none
    | _ => readCommand m rest none

/-- The words before the arrow, and the words after it if there is one (R67). -/
def splitArrow : List (List Char) → List (List Char) × Option (List (List Char))
  | [] => ([], none)
  | w :: ws =>
    if w = ['-', '>'] then ([], some ws)
    else let (before, after) := splitArrow ws; (w :: before, after)

/-- A response word, written as four hexadecimal digits (R67). -/
def readResponse (w : List Char) : Option ResponseWord :=
  if w.length = 4 then (readDigits 16 w 0).map (BitVec.ofNat 16) else none

/-- One line of a program, as its words (R67, R68). Only a command has a response to expect. -/
def assembleSplit : List (List Char) × Option (List (List Char)) → Option (List AsmLine)
  | (words, none) => assembleWords words
  | (m :: operands, some [w]) => (readResponse w).bind fun r => readCommand m operands (some r)
  | _ => none

/-- A line with a quoted text, which only `PUTS` takes (R68). -/
def assembleQuoted (cs : List Char) : Option (List AsmLine) :=
  match cs.dropWhile isBlank with
  | 'P' :: 'U' :: 'T' :: 'S' :: text =>
    match text.dropWhile isBlank with
    | '"' :: quoted => (quotedBytes quoted).map pseudoPuts
    | _ => none
  | _ => none

/-- One line of a program (R67, R68): the inputs it stands for with their expected responses; none where the line
is not of the spec's form. -/
def assembleLine (line : String) : Option (List AsmLine) :=
  let cs := dropComment line.toList
  if cs.any (· = '"') then assembleQuoted cs else assembleSplit (splitArrow (lineWords cs []))

/-! ## Writing a line (R67, R68) -/

/-- The operands of a command that are not must-be-zero, in the order `a`, `b` (R67). -/
def asmOperands : Instr → List Byte
  | .nop => []
  | .reset => []
  | .setrole role => [role]
  | .rdcsr n => [n]
  | .wrmk idx d => [idx, d]
  | .derive => []
  | .wrctr idx d => [idx, d]
  | .rdctr idx => [idx]
  | .wrblk idx d => [idx, d]
  | .rdblk idx => [idx]
  | .addcnt k => [k]
  | .xencMac => [0]
  | .xencEnc => [1]
  | .xencMaster => [2]
  | .macg off len => [off, len]
  | .macgc off len => [off, len]
  | .macv off len => [off, len]
  | .macvc off len => [off, len]
  | .crypt off len => [off, len]
  | .wrfb idx d => [idx, d]
  | .rdfb idx => [idx]
  | .putc d => [d]
  | .clrpb => []
  | .buildd addr => [addr]
  | .builds addr => [addr]
  | .send => []
  | .rxproc => []
  | .rxon => []
  | .stop => []

/-- A hexadecimal digit. -/
def hexDigit (n : BitVec 4) : Char := ("0123456789ABCDEF".toList).getD n.toNat '0'

/-- A byte as two hexadecimal digits. -/
def hexChars (b : Byte) : List Char := [hexDigit (b.extractLsb' 4 4), hexDigit (b.extractLsb' 0 4)]

/-- A byte as a `0x` hexadecimal number. -/
def byteText (b : Byte) : String := String.ofList ('0' :: 'x' :: hexChars b)

/-- A string of byte pairs, a blank before each. -/
def hexText (bs : List Byte) : String := String.ofList (bs.flatMap fun b => ' ' :: hexChars b)

/-- A response word as four hexadecimal digits. -/
def responseText (r : ResponseWord) : String :=
  String.ofList (hexChars (r.extractLsb' 8 8) ++ hexChars (r.extractLsb' 0 8))

/-- The operands of a command with a comma and a blank between them. -/
def operandText : List Byte → String
  | [] => ""
  | [x] => " " ++ byteText x
  | x :: xs => " " ++ byteText x ++ "," ++ operandText xs

/-- A command in the spec's textual form (R67). -/
def toAssembly (i : Instr) : String := (opcodeRow i).mnemonic ++ operandText (asmOperands i)

end Sys2Proof.Machine
end

