-- ==== Sys2Proof/Safety.lean ====
section
/-! DEFINITION. What claims about the engine are said in: the invariants of spec 10_state.md R30, an idle state
(70_reset_and_hazards.md R225), and a command that fails (60_exceptions.md R191). -/

namespace Sys2Proof.Machine

/-- The invariants of R30, with what keeps them: the canonical form and the size of the two buffers, the constraints
of R5 on the parameters, and that a frame being collected has an acceptable length byte (R147 c, e). -/
structure State.Inv (s : State) : Prop where
  config_wf : s.config.wf
  fb_wf : Memory.wf s.fb = true
  pb_wf : Memory.wf s.pb = true
  fb_within : Memory.within s.fb s.config.frameMax = true
  pb_within : Memory.within s.pb (payloadMax s.config) = true
  /-- R30 (a). -/
  armed : s.rxen = true → s.lm = .receiving ∧ s.rxfrz = false
  /-- R30 (b). -/
  frozen : s.rxfrz = true →
    s.rxen = false ∧ s.lm = .receiving ∧ 6 ≤ s.rxpos.toNat ∧ s.rxpos.toNat < s.config.frameMax ∧ s.rxpos.toNat ≤ 127
  /-- R30 (c). -/
  plen_le : s.plen.toNat ≤ payloadMax s.config
  /-- R30 (d). -/
  txlen_ok : s.txlen = 0 ∨
    (12 ≤ s.txlen.toNat ∧ s.txlen.toNat ≤ payloadMax s.config + 12 ∧ payloadMax s.config + 12 ≤ s.config.frameMax)
  /-- R30 (e). -/
  keys_ready : s.krdy = true → s.mkmask = 0
  /-- R30 (f). -/
  errflags_high : s.errflags &&& 0xC0 = 0
  /-- R30 (g). -/
  rxpos_lt : s.rxen = true → s.rxpos.toNat < s.config.frameMax
  /-- R147 (c), (e). -/
  collecting : s.rxen = true → s.rxpos ≠ 0 →
    s.rxpos.toNat < declaredLength s.fb ∧ 6 ≤ declaredLength s.fb ∧ declaredLength s.fb < s.config.frameMax

/-- A state is idle (R225). -/
def State.Idle (s : State) : Prop := s.lm = .stopped ∧ s.rxen = false ∧ s.rxfrz = false ∧ s.txlen = 0

/-- The outcome `o` is that of a command that failed on `s` with error code `code` (R191): bit `code − 1` of
`ERRFLAGS`, the response `code·2^8`, and nothing else. -/
def FailsWith (o : Host.Outcome State Fault Refusal) (s : State) (code : Nat) : Prop :=
  o = .next { s with
    errflags := s.errflags ||| BitVec.ofNat 8 (2 ^ (code - 1))
    responses := s.responses ++ [BitVec.ofNat 16 (code * 256)] }

/-- The last response word given, if any. -/
def State.lastResponse (s : State) : Option ResponseWord := s.responses.getLast?

end Sys2Proof.Machine
end

