-- ==== Sys2Proof/Certificates/Slice0/Obligations.lean ====
section
/-! DEFINITION. The statements for the provers. Each docstring names the rule of spec/ it formalises.

`blockEncrypt s.config` is the cipher `E` of the configuration: by `CipherIsAnyFunctionOrXtea` it can be any function of
a key and a block, so a statement about every state is a statement about every `E` (40_xtea.md R82). -/

open Sys2Proof Sys2Proof.Machine

/-! ## Encoding and the step -/

/-- R64, R60: every well-formed command decodes from its word, with every operand. -/
def Obligations.DecodeInvertsEncode : Prop :=
  ∀ i : Instr, i.wellFormed = true → decode (encode i) = .ok i

/-- R60, R65: a word that decodes is the word of its command, so no bit of it is dropped and no other word spells
the same command. -/
def Obligations.EncodeInvertsDecode : Prop :=
  ∀ (w : CommandWord) (i : Instr), decode w = .ok i → encode i = w ∧ i.wellFormed = true

/-- R64: a word spells a row of the opcode map iff it decodes to a command of that row; the 29 rows. -/
def Obligations.WordSpellsRowIffItDecodesToIt : Prop :=
  opcodeTable.length = 29 ∧
  (∀ (w : CommandWord) (r : OpcodeRow), r ∈ opcodeTable →
    (w &&& r.mask = r.pattern ↔ ∃ i : Instr, decode w = .ok i ∧ opcodeRow i = r)) ∧
  (∀ i : Instr, opcodeRow i ∈ opcodeTable) ∧
  opcodeTable.Pairwise (fun r r' => ∀ w : CommandWord, ¬(w &&& r.mask = r.pattern ∧ w &&& r'.mask = r'.pattern))

/-- R65: a word is illegal iff it matches no row, that is iff one of (a) to (d) holds of its fields, and then its step
sets `ERRFLAGS[0]`, answers 0x0100 and does nothing else. -/
def Obligations.IllegalWordMatchesNoRowAndAnswersIllegal : Prop :=
  ∀ w : CommandWord,
    let op := w.extractLsb' 16 8
    let a := w.extractLsb' 8 8
    let b := w.extractLsb' 0 8
    ((∀ i : Instr, decode w ≠ .ok i) ↔ ∀ r ∈ opcodeTable, w &&& r.mask ≠ r.pattern) ∧
    ((∀ i : Instr, decode w ≠ .ok i) ↔
      (op.toNat ∉ [0x00, 0x01, 0x02, 0x03, 0x10, 0x11, 0x12, 0x13, 0x14, 0x15, 0x16, 0x20, 0x21, 0x22, 0x23, 0x24,
          0x25, 0x30, 0x31, 0x32, 0x33, 0x40, 0x41, 0x42, 0x43, 0x50, 0x51] ∨
       (a ≠ 0 ∧ op.toNat ∈ [0x00, 0x01, 0x02, 0x11, 0x16, 0x20, 0x32, 0x33, 0x40, 0x41, 0x42, 0x43, 0x50, 0x51]) ∨
       (b ≠ 0 ∧ op.toNat ∈ [0x00, 0x01, 0x03, 0x11, 0x13, 0x15, 0x31, 0x33, 0x42, 0x43, 0x50, 0x51]) ∨
       (op = 0x02 ∧ 1 < b.toNat) ∨
       (op = 0x20 ∧ 2 < b.toNat))) ∧
    ∀ (s : State) (rest : List Input), (∀ i : Instr, decode w ≠ .ok i) → s.inbox = .command w :: rest →
      step s = .next { s with
        inbox := rest
        errflags := s.errflags ||| 0x01
        responses := s.responses ++ [0x0100#16] }

/-- R64, R67: one word for each of the 29 rows of the opcode map, written out from it, decodes to the command it stands
for. -/
def Obligations.SampleWordsDecode : Prop :=
  decode 0x000000#24 = .ok .nop ∧ decode 0x010000#24 = .ok .reset ∧ decode 0x020001#24 = .ok (.setrole 1) ∧
  decode 0x030700#24 = .ok (.rdcsr 7) ∧ decode 0x10037F#24 = .ok (.wrmk 3 0x7F) ∧ decode 0x110000#24 = .ok .derive ∧
  decode 0x120405#24 = .ok (.wrctr 4 5) ∧ decode 0x130400#24 = .ok (.rdctr 4) ∧
  decode 0x140748#24 = .ok (.wrblk 7 0x48) ∧ decode 0x150600#24 = .ok (.rdblk 6) ∧
  decode 0x160002#24 = .ok (.addcnt 2) ∧ decode 0x200000#24 = .ok .xencMac ∧ decode 0x200001#24 = .ok .xencEnc ∧
  decode 0x200002#24 = .ok .xencMaster ∧ decode 0x210108#24 = .ok (.macg 1 8) ∧
  decode 0x22050A#24 = .ok (.macgc 5 10) ∧ decode 0x230207#24 = .ok (.macv 2 7) ∧
  decode 0x240306#24 = .ok (.macvc 3 6) ∧ decode 0x250414#24 = .ok (.crypt 4 20) ∧
  decode 0x304F5A#24 = .ok (.wrfb 79 0x5A) ∧ decode 0x310400#24 = .ok (.rdfb 4) ∧
  decode 0x320056#24 = .ok (.putc 0x56) ∧ decode 0x330000#24 = .ok .clrpb ∧ decode 0x400007#24 = .ok (.buildd 7) ∧
  decode 0x410009#24 = .ok (.builds 9) ∧ decode 0x420000#24 = .ok .send ∧ decode 0x430000#24 = .ok .rxproc ∧
  decode 0x500000#24 = .ok .rxon ∧ decode 0x510000#24 = .ok .stop

/-- R61, R66: with a command word next, the step takes it from the inbox and runs the decoded command on what is left;
a word that is no command is accepted as an illegal one. -/
def Obligations.StepRunsTheDecodedCommand : Prop :=
  ∀ (s : State) (w : CommandWord) (rest : List Input), s.inbox = .command w :: rest →
    (∀ i : Instr, decode w = .ok i → step s = exec i { s with inbox := rest }) ∧
    ((∀ i : Instr, decode w ≠ .ok i) → FailsWith (step s) { s with inbox := rest } 1) ∧
    step s = acceptCommand w { s with inbox := rest }

/-- The model's own convention (log entry 2): with no input waiting, a step changes nothing. -/
def Obligations.StepWithoutInputChangesNothing : Prop :=
  ∀ s : State, s.inbox = [] → step s = .next s

/-! ## Reset and the invariants -/

/-- R32, R171: after the `RESET` command, which answers 0x0000, and after a hardware reset, every piece of state has the
table's value. That the configuration, the inputs still to come and the outputs already given stay as they are is the
model's choice (log entries 1, 2 and 3): they are no state of the engine in the spec. -/
def Obligations.ResetClearsEveryPieceOfState : Prop :=
  encode .reset = 0x010000#24 ∧
  (∀ (a b : Byte) (s : State), (a ≠ 0 ∨ b ≠ 0) → FailsWith (acceptCommand (0x01#8 ++ a ++ b) s) s 1) ∧
  ∀ s : State,
    let z : State :=
      { config := s.config
        keys := Vector.replicate 40 0, mkmask := 0x0000, krdy := false
        ctr := Vector.replicate 8 0, blk := Vector.replicate 8 0
        fb := [], pb := [], plen := 0
        role := .slave, lm := .stopped
        rxpos := 0, rxen := false, rxfrz := false, rxrej := false, rxres := .none
        txlen := 0, errflags := 0x00
        inbox := s.inbox, responses := s.responses, txframes := s.txframes }
    exec .reset s = .next { z with responses := s.responses ++ [0x0000#16] } ∧
    (∀ rest, s.inbox = .hardReset :: rest → step s = .next { z with inbox := rest }) ∧
    (∀ a, Memory.read z.fb a = 0 ∧ Memory.read z.pb a = 0) ∧ z.irq = false

/-- R32: the state the machine starts from has the table's values. -/
def Obligations.InitialStateHasTheResetValues : Prop :=
  let z := State.reset
  (∀ j, j < 40 → byteAt z.keys j = 0) ∧ z.mkmask = 0 ∧ z.krdy = false ∧
  (∀ j, j < 8 → byteAt z.ctr j = 0) ∧ (∀ j, j < 8 → byteAt z.blk j = 0) ∧
  (∀ a, Memory.read z.fb a = 0) ∧ (∀ a, Memory.read z.pb a = 0) ∧ z.plen = 0 ∧
  z.role = .slave ∧ z.lm = .stopped ∧ z.rxpos = 0 ∧ z.rxen = false ∧ z.rxfrz = false ∧ z.rxrej = false ∧
  z.rxres = .none ∧ z.txlen = 0 ∧ z.errflags = 0 ∧ z.irq = false

/-- R30: the invariants hold after reset. -/
def Obligations.ResetStateHasTheInvariants : Prop := State.reset.Inv

/-- R30: every step keeps the invariants, whatever input it takes. -/
def Obligations.StepKeepsTheInvariants : Prop :=
  ∀ s t : State, s.Inv → step s = .next t → t.Inv

/-- R226: in every state with the invariants, every input has a defined outcome: no step stops the machine. -/
def Obligations.EveryInputHasADefinedOutcome : Prop :=
  ∀ s : State, s.Inv → ∃ t, step s = .next t

/-! ## System and link commands, radio strobe -/

/-- R170: `NOP` answers 0x0000 and does nothing else. -/
def Obligations.NopOnlyAnswers : Prop :=
  encode .nop = 0x000000#24 ∧
  (∀ (a b : Byte) (s : State), (a ≠ 0 ∨ b ≠ 0) → FailsWith (acceptCommand (0x00#8 ++ a ++ b) s) s 1) ∧
  ∀ s, exec .nop s = .next { s with responses := s.responses ++ [0x0000#16] }

/-- R172: `SETROLE` writes `ROLE` and nothing else; an operand outside {0, 1} is illegal. That `exec` of the term with
such an operand, which no word spells, fails in the same way is the model's reading (DEDUCED, log entry 8). -/
def Obligations.SetroleWritesTheRole : Prop :=
  (∀ role, encode (.setrole role) = 0x02#8 ++ 0x00#8 ++ role) ∧
  (∀ (a b : Byte) (s : State), (a ≠ 0 ∨ 1 < b.toNat) → FailsWith (acceptCommand (0x02#8 ++ a ++ b) s) s 1) ∧
  (∀ (role : Byte) (s : State), 1 < role.toNat → FailsWith (exec (.setrole role) s) s 1) ∧
  (∀ s, exec (.setrole 0) s = .next { s with role := .slave, responses := s.responses ++ [0x0000#16] }) ∧
  (∀ s, exec (.setrole 1) s = .next { s with role := .master, responses := s.responses ++ [0x0000#16] })

/-- R27, R28, R173: `RDCSR` answers the register and changes nothing; the fields of `STATUS` bit by bit. -/
def Obligations.RdcsrAnswersTheRegister : Prop :=
  (∀ n, encode (.rdcsr n) = 0x03#8 ++ n ++ 0x00#8) ∧
  (∀ (n b : Byte) (s : State), b ≠ 0 → FailsWith (acceptCommand (0x03#8 ++ n ++ b) s) s 1) ∧
  (∀ (n : Byte) (s : State), 8 ≤ n.toNat → FailsWith (exec (.rdcsr n) s) s 5) ∧
  ∀ s : State, ∃ status mkmaskLo mkmaskHi : Byte,
    exec (.rdcsr 0) s = .next { s with responses := s.responses ++ [0x00#8 ++ status] } ∧
    exec (.rdcsr 1) s = .next { s with responses := s.responses ++ [0x00#8 ++ s.errflags] } ∧
    exec (.rdcsr 2) s = .next { s with responses := s.responses ++ [0x00#8 ++ s.rxpos] } ∧
    exec (.rdcsr 3) s = .next { s with responses := s.responses ++ [0x00#8 ++ s.plen] } ∧
    exec (.rdcsr 4) s = .next { s with responses := s.responses ++ [0x00#8 ++ s.txlen] } ∧
    exec (.rdcsr 5) s = .next { s with responses := s.responses ++
      [match s.rxres with
        | .none => 0x0000#16 | .dataOk => 0x0001#16 | .syncOk => 0x0002#16 | .dataMacFail => 0x0003#16
        | .syncMacFail => 0x0004#16 | .dataAddr => 0x0005#16 | .syncShort => 0x0006#16] } ∧
    exec (.rdcsr 6) s = .next { s with responses := s.responses ++ [0x00#8 ++ mkmaskLo] } ∧
    exec (.rdcsr 7) s = .next { s with responses := s.responses ++ [0x00#8 ++ mkmaskHi] } ∧
    mkmaskHi ++ mkmaskLo = s.mkmask ∧
    status.getLsbD 0 = s.krdy ∧
    (status.getLsbD 1 = true ↔ s.role = .master) ∧
    (status.extractLsb' 2 2).toNat =
      (match s.lm with | .stopped => 0 | .receiving => 1 | .transmitting => 2 | .txDone => 3) ∧
    status.getLsbD 4 = s.rxen ∧ status.getLsbD 5 = s.rxfrz ∧ status.getLsbD 6 = s.rxrej ∧
    (status.getLsbD 7 = true ↔ s.rxfrz = true ∨ s.lm = .txDone)

/-- R174: `RXON` arms reception in one step, from every state. -/
def Obligations.RxonArmsReception : Prop :=
  encode .rxon = 0x500000#24 ∧
  (∀ (a b : Byte) (s : State), (a ≠ 0 ∨ b ≠ 0) → FailsWith (acceptCommand (0x50#8 ++ a ++ b) s) s 1) ∧
  ∀ s, exec .rxon s = .next { s with
    lm := .receiving, rxpos := 0, rxfrz := false, rxrej := false, txlen := 0, rxen := true
    responses := s.responses ++ [0x0000#16] }

/-- R175: `STOP` stops the link in one step, from every state. -/
def Obligations.StopStopsTheLink : Prop :=
  encode .stop = 0x510000#24 ∧
  (∀ (a b : Byte) (s : State), (a ≠ 0 ∨ b ≠ 0) → FailsWith (acceptCommand (0x51#8 ++ a ++ b) s) s 1) ∧
  ∀ s, exec .stop s = .next { s with
    lm := .stopped, rxen := false, rxpos := 0, rxfrz := false, rxrej := false, txlen := 0
    responses := s.responses ++ [0x0000#16] }

/-- R177: the step that takes `TXCOMPLETE` moves `transmitting` to `tx-done`, raises the line, gives no response; in
every other mode it does nothing. -/
def Obligations.TxCompleteEndsATransmission : Prop :=
  ∀ (s : State) (rest : List Input), s.inbox = .txComplete :: rest →
    (s.lm = .transmitting → step s = .next { s with inbox := rest, lm := .txDone }) ∧
    (s.lm ≠ .transmitting → step s = .next { s with inbox := rest })

/-- R178: every change of the link mode a command or an event can make. -/
def Obligations.LinkModeTransitions : Prop :=
  (∀ (i : Instr) (s t : State), s.Inv → exec i s = .next t →
    (i = .rxon ∧ t.lm = .receiving) ∨
    (i = .stop ∧ t.lm = .stopped) ∨
    (i = .reset ∧ t.lm = .stopped) ∨
    (i = .send ∧ s.lm ≠ .transmitting ∧ s.rxen = false ∧ s.txlen ≠ 0 ∧ t.lm = .transmitting) ∨
    (i = .rxproc ∧ s.lm = .receiving ∧ s.rxfrz = true ∧ t.rxfrz = false ∧ t.rxres = .syncOk ∧ t.lm = .stopped) ∨
    (i ≠ .rxon ∧ i ≠ .stop ∧ i ≠ .reset ∧ t.lm = s.lm)) ∧
  (∀ (s t : State) (rest : List Input), step s = .next t →
    (∀ b, s.inbox = .rxByte b :: rest → t.lm = s.lm) ∧
    (s.inbox = .txComplete :: rest → t.lm = if s.lm = .transmitting then .txDone else s.lm) ∧
    (s.inbox = .hardReset :: rest → t.lm = .stopped))

/-! ## Keys -/

/-- R90: `WRMK` writes one byte of the master key, sets its bit of `MKMASK` and drops `KRDY`. -/
def Obligations.WrmkWritesAMasterKeyByte : Prop :=
  (∀ idx d, encode (.wrmk idx d) = 0x10#8 ++ idx ++ d) ∧
  ∀ (idx d : Byte) (s : State),
    (16 ≤ idx.toNat → FailsWith (exec (.wrmk idx d) s) s 5) ∧
    (idx.toNat < 16 → ∃ (keys : Vector Byte 40) (mkmask : BitVec 16),
      exec (.wrmk idx d) s = .next { s with
        keys := keys, mkmask := mkmask, krdy := false, responses := s.responses ++ [0x0000#16] } ∧
      (∀ j, j < 40 → byteAt keys j = if j = 24 + idx.toNat then d else byteAt s.keys j) ∧
      (∀ k, k < 16 → mkmask.getLsbD k = (decide (k = idx.toNat) || s.mkmask.getLsbD k)))

/-- R92: `DERIVE` without a loaded master key fails; with one it writes the key block in the order of the rule. -/
def Obligations.DeriveRunsTheKeySchedule : Prop :=
  encode .derive = 0x110000#24 ∧
  ∀ s : State,
    (s.mkmask ≠ 0xFFFF → FailsWith (exec .derive s) s 4) ∧
    (s.mkmask = 0xFFFF → ∃ keys : Vector Byte 40,
      exec .derive s = .next { s with
        keys := keys, mkmask := 0, krdy := true, responses := s.responses ++ [0x0000#16] } ∧
      slice keys 0 8 = blockEncrypt s.config (slice s.keys 24 16) s.config.seedMac ∧
      slice keys 8 8 = blockEncrypt s.config (slice s.keys 24 16) s.config.seedEncLo ∧
      slice keys 16 8 = blockEncrypt s.config (slice s.keys 24 16) s.config.seedEncHi ∧
      slice keys 24 8 = dbl s.config.rb (blockEncrypt s.config (slice keys 0 16) (Vector.replicate 8 0)) ∧
      slice keys 32 8 = dbl s.config.rb (slice keys 24 8))

/-- R91: doubling, byte by byte. -/
def Obligations.DoublingByteByByte : Prop :=
  ∀ (rb : Byte) (x : Block),
    (∀ i, i < 7 → byteAt (dbl rb x) i = (byteAt x i <<< 1) ||| (byteAt x (i + 1) >>> 7)) ∧
    byteAt (dbl rb x) 7 = (byteAt x 7 <<< 1) ^^^ (if (byteAt x 0).getLsbD 7 then rb else 0)

/-- R93: the whole key block after `DERIVE` is a function of the master key and the parameters: two engines with the
same master key bytes and parameters hold the same `KEYS`, whatever else they hold. -/
def Obligations.DerivedKeysDependOnTheMasterKeyAlone : Prop :=
  ∀ s s' t t' : State, s.config = s'.config → slice s.keys 24 16 = slice s'.keys 24 16 →
    s.mkmask = 0xFFFF → s'.mkmask = 0xFFFF → exec .derive s = .next t → exec .derive s' = .next t' →
    t.keys = t'.keys ∧ t.krdy = true ∧ t'.krdy = true

/-- R92, R16: after a successful derivation the master key is gone: a second `DERIVE` and `XENC 2` fail with
`ERR_NOKEY`; its sixteen bytes are overwritten by `K1` and `K2`, which depend on `KEYS[0..15]` alone (R93 a); and a
`WRMK` after it makes the derived keys unusable. -/
def Obligations.DeriveErasesTheMasterKey : Prop :=
  ∀ s t : State, s.mkmask = 0xFFFF → exec .derive s = .next t →
    FailsWith (exec .derive t) t 4 ∧ FailsWith (exec .xencMaster t) t 4 ∧
    slice t.keys 24 8 = dbl t.config.rb (blockEncrypt t.config (slice t.keys 0 16) (Vector.replicate 8 0)) ∧
    slice t.keys 32 8 = dbl t.config.rb (slice t.keys 24 8) ∧
    ∀ (idx d : Byte) (u : State), idx.toNat < 16 → exec (.wrmk idx d) t = .next u →
      u.krdy = false ∧ FailsWith (exec .xencMac u) u 4

/-! ## The cipher and the block register -/

/-- R82, R81, R80: the cipher `E` of a configuration. Every function of a key and a block is the cipher of some
configuration, which differs in that field alone. Under the reference cipher `E` is XTEA: two words packed in the
configured byte order, `XTEA_ROUNDS` iterations of the two assignments of R81, the words packed back; and it is then a
permutation of the blocks for every key. That a cipher other than XTEA is given by its values is the model's choice, and
the algorithm is the spec's general knowledge (log entry 5). -/
def Obligations.CipherIsAnyFunctionOrXtea : Prop :=
  (∀ (f : Key → Block → Block) (c : Config), ∃ rows : List CipherRow,
    ∀ k x, blockEncrypt { c with cipher := .values rows } k x = f k x) ∧
  (∀ (c : Config) (k : Key) (x : Block), c.cipher = .xtea →
    let y := blockEncrypt c k x
    let word (b : Nat → Byte) : Nat := match c.xteaEndian with
      | .little => (b 0).toNat + 2 ^ 8 * (b 1).toNat + 2 ^ 16 * (b 2).toNat + 2 ^ 24 * (b 3).toNat
      | .big => 2 ^ 24 * (b 0).toNat + 2 ^ 16 * (b 1).toNat + 2 ^ 8 * (b 2).toNat + (b 3).toNat
    ∃ (kw : Nat → Word) (v0 v1 sum : Nat → Word),
      (∀ j, j < 4 → (kw j).toNat = word fun i => byteAt k (4 * j + i)) ∧
      ((v0 0).toNat = word fun i => byteAt x i) ∧ ((v1 0).toNat = word fun i => byteAt x (4 + i)) ∧ sum 0 = 0 ∧
      (∀ n,
        v0 (n + 1) = v0 n + ((((v1 n <<< 4) ^^^ (v1 n >>> 5)) + v1 n) ^^^ (sum n + kw ((sum n).toNat % 4))) ∧
        sum (n + 1) = sum n + 0x9E3779B9 ∧
        v1 (n + 1) = v1 n + ((((v0 (n + 1) <<< 4) ^^^ (v0 (n + 1) >>> 5)) + v0 (n + 1)) ^^^
          (sum (n + 1) + kw ((sum (n + 1)).toNat / 2 ^ 11 % 4)))) ∧
      (v0 c.xteaRounds).toNat = (word fun i => byteAt y i) ∧
      (v1 c.xteaRounds).toNat = (word fun i => byteAt y (4 + i))) ∧
  (∀ (c : Config) (k : Key), c.cipher = .xtea → Function.Bijective (blockEncrypt c k))

/-- R83: `XENC` encrypts `BLK` under the selected key operand and writes nothing else; without the key material it fails
with `ERR_NOKEY`; a selector above 2 is illegal. -/
def Obligations.XencEncryptsTheBlock : Prop :=
  encode .xencMac = 0x200000#24 ∧ encode .xencEnc = 0x200001#24 ∧ encode .xencMaster = 0x200002#24 ∧
  (∀ (a b : Byte) (s : State), (a ≠ 0 ∨ 2 < b.toNat) → FailsWith (acceptCommand (0x20#8 ++ a ++ b) s) s 1) ∧
  ∀ s : State,
    (s.krdy = false → FailsWith (exec .xencMac s) s 4 ∧ FailsWith (exec .xencEnc s) s 4) ∧
    (s.mkmask ≠ 0xFFFF → FailsWith (exec .xencMaster s) s 4) ∧
    (s.krdy = true →
      exec .xencMac s = .next { s with
        blk := blockEncrypt s.config (slice s.keys 0 16) s.blk, responses := s.responses ++ [0x0000#16] } ∧
      exec .xencEnc s = .next { s with
        blk := blockEncrypt s.config (slice s.keys 8 16) s.blk, responses := s.responses ++ [0x0000#16] }) ∧
    (s.mkmask = 0xFFFF →
      exec .xencMaster s = .next { s with
        blk := blockEncrypt s.config (slice s.keys 24 16) s.blk, responses := s.responses ++ [0x0000#16] })

/-- R84, R85: `WRBLK` writes one byte of `BLK`; `RDBLK` answers one byte of it and changes nothing. -/
def Obligations.BlockRegisterByteAccess : Prop :=
  (∀ idx d, encode (.wrblk idx d) = 0x14#8 ++ idx ++ d) ∧
  (∀ idx, encode (.rdblk idx) = 0x15#8 ++ idx ++ 0x00#8) ∧
  (∀ (idx b : Byte) (s : State), b ≠ 0 → FailsWith (acceptCommand (0x15#8 ++ idx ++ b) s) s 1) ∧
  ∀ (idx d : Byte) (s : State),
    (8 ≤ idx.toNat → FailsWith (exec (.wrblk idx d) s) s 5 ∧ FailsWith (exec (.rdblk idx) s) s 5) ∧
    (idx.toNat < 8 → ∃ blk : Block,
      exec (.wrblk idx d) s = .next { s with blk := blk, responses := s.responses ++ [0x0000#16] } ∧
      ∀ j, j < 8 → byteAt blk j = if j = idx.toNat then d else byteAt s.blk j) ∧
    (∀ h : idx.toNat < 8, exec (.rdblk idx) s = .next { s with
      responses := s.responses ++ [0x00#8 ++ s.blk[idx.toNat]] })

/-! ## The authenticator -/

/-- 42_cmac.md section 2, R52, R117, R192: the words of the four MAC commands and of `CRYPT`, and their checks in
order. -/
def Obligations.MacAndCryptChecksInOrder : Prop :=
  (∀ off len : Byte, encode (.macg off len) = 0x21#8 ++ off ++ len ∧ encode (.macgc off len) = 0x22#8 ++ off ++ len ∧
    encode (.macv off len) = 0x23#8 ++ off ++ len ∧ encode (.macvc off len) = 0x24#8 ++ off ++ len ∧
    encode (.crypt off len) = 0x25#8 ++ off ++ len) ∧
  ∀ (off len : Byte) (s : State) (i : Instr),
    (i = .macg off len ∨ i = .macgc off len ∨ i = .macv off len ∨ i = .macvc off len ∨ i = .crypt off len) →
    ((s.rxen = true ∨ s.lm = .transmitting) → FailsWith (exec i s) s 3) ∧
    (s.rxen = false → s.lm ≠ .transmitting → s.krdy = false → FailsWith (exec i s) s 4) ∧
    (s.rxen = false → s.lm ≠ .transmitting → s.krdy = true →
      s.config.frameMax < off.toNat + len.toNat + (if i = .crypt off len then 0 else 4) → FailsWith (exec i s) s 5)

/-- R103, R104: `MACG` and `MACGC` write the tag of the message, under no prefix or under `CTR`, in the four bytes that
follow it, and nothing else. -/
def Obligations.MacGenerateWritesTheTag : Prop :=
  (∀ off len : Byte, encode (.macg off len) = 0x21#8 ++ off ++ len ∧ encode (.macgc off len) = 0x22#8 ++ off ++ len) ∧
  ∀ (off len : Byte) (s : State), s.hostFb = true → s.krdy = true →
    off.toNat + len.toNat + 4 ≤ s.config.frameMax →
    let msg := (List.range len.toNat).map fun k => Memory.read s.fb (off.toNat + k)
    let tag (pfx : Option Block) := cmac (fun x => blockEncrypt s.config (slice s.keys 0 16) x)
      (slice s.keys 24 8) (slice s.keys 32 8) msg pfx
    (∃ fb : Memory,
      exec (.macg off len) s = .next { s with fb := fb, responses := s.responses ++ [0x0000#16] } ∧
      ∀ a, Memory.read fb a =
        if off.toNat + len.toNat ≤ a ∧ a < off.toNat + len.toNat + 4
        then byteAt (tag none) (a - (off.toNat + len.toNat)) else Memory.read s.fb a) ∧
    (∃ fb : Memory,
      exec (.macgc off len) s = .next { s with fb := fb, responses := s.responses ++ [0x0000#16] } ∧
      ∀ a, Memory.read fb a =
        if off.toNat + len.toNat ≤ a ∧ a < off.toNat + len.toNat + 4
        then byteAt (tag (some s.ctr)) (a - (off.toNat + len.toNat)) else Memory.read s.fb a)

/-- R105, R106: `MACV` and `MACVC` answer 1 iff the four bytes after the message are its tag, else 0, and change no
state. -/
def Obligations.MacVerifyComparesTheTag : Prop :=
  (∀ off len : Byte, encode (.macv off len) = 0x23#8 ++ off ++ len ∧ encode (.macvc off len) = 0x24#8 ++ off ++ len) ∧
  ∀ (off len : Byte) (s : State), s.hostFb = true → s.krdy = true →
    off.toNat + len.toNat + 4 ≤ s.config.frameMax →
    let msg := (List.range len.toNat).map fun k => Memory.read s.fb (off.toNat + k)
    let tag (pfx : Option Block) := cmac (fun x => blockEncrypt s.config (slice s.keys 0 16) x)
      (slice s.keys 24 8) (slice s.keys 32 8) msg pfx
    let verified (pfx : Option Block) : Prop :=
      ∀ k, k < 4 → Memory.read s.fb (off.toNat + len.toNat + k) = byteAt (tag pfx) k
    (verified none → exec (.macv off len) s = .next { s with responses := s.responses ++ [0x0001#16] }) ∧
    (¬verified none → exec (.macv off len) s = .next { s with responses := s.responses ++ [0x0000#16] }) ∧
    (verified (some s.ctr) → exec (.macvc off len) s = .next { s with responses := s.responses ++ [0x0001#16] }) ∧
    (¬verified (some s.ctr) → exec (.macvc off len) s = .next { s with responses := s.responses ++ [0x0000#16] })

/-- R107 (a): a generated tag verifies, without a prefix and with the counter. -/
def Obligations.GeneratedTagVerifies : Prop :=
  ∀ (off len : Byte) (s : State), s.hostFb = true → s.krdy = true →
    off.toNat + len.toNat + 4 ≤ s.config.frameMax →
    (∃ t u, exec (.macg off len) s = .next t ∧ exec (.macv off len) t = .next u ∧
      u.lastResponse = some 0x0001#16) ∧
    (∃ t u, exec (.macgc off len) s = .next t ∧ exec (.macvc off len) t = .next u ∧
      u.lastResponse = some 0x0001#16)

/-- R107 (b), (d): after a tag was generated, changing any one of its four bytes makes the verification answer 0,
without a prefix and with the counter, which neither command changes. -/
def Obligations.ChangedTagByteFailsVerification : Prop :=
  ∀ (off len idx d : Byte) (k : Nat) (s t u : State), s.hostFb = true → s.krdy = true →
    off.toNat + len.toNat + 4 ≤ s.config.frameMax → k < 4 → idx.toNat = off.toNat + len.toNat + k →
    d ≠ Memory.read t.fb idx.toNat → exec (.wrfb idx d) t = .next u →
    (exec (.macg off len) s = .next t →
      exec (.macv off len) u = .next { u with responses := u.responses ++ [0x0000#16] }) ∧
    (exec (.macgc off len) s = .next t →
      u.ctr = s.ctr ∧ exec (.macvc off len) u = .next { u with responses := u.responses ++ [0x0000#16] })

/-- R101, R108: the chain and the padding decision, for every cipher. A block that is not the last is XORed into the
chain value and encrypted, whatever follows; a message whose length is a positive multiple of 8 is finished under `K1`,
every other one, the empty one included, under `K2` with the `0x80` pad. -/
def Obligations.CmacChainAndPaddingByLength : Prop :=
  ∀ (enc : Block → Block) (k1 k2 : Block) (msg : List Byte) (pfx : Option Block),
    let c0 : Block := match pfx with | none => Vector.replicate 8 0 | some p => enc p
    ((0 < msg.length ∧ msg.length % 8 = 0) → ∀ k, cmac enc k1 k2 msg pfx = cmac enc k1 k msg pfx) ∧
    (¬(0 < msg.length ∧ msg.length % 8 = 0) → ∀ k, cmac enc k1 k2 msg pfx = cmac enc k k2 msg pfx) ∧
    (msg.length = 8 → cmac enc k1 k2 msg pfx =
      enc (tabulate 8 fun i => byteAt c0 i ^^^ (msg.getD i 0 ^^^ byteAt k1 i))) ∧
    (msg.length < 8 → cmac enc k1 k2 msg pfx =
      enc (tabulate 8 fun i => byteAt c0 i ^^^ ((msg ++ [0x80]).getD i 0 ^^^ byteAt k2 i))) ∧
    (msg ≠ [] → ∀ block : Block, cmac enc k1 k2 (block.toList ++ msg) pfx =
      cmac enc k1 k2 msg (some (tabulate 8 fun i => byteAt c0 i ^^^ byteAt block i)))

/-! ## The counter and counter mode -/

/-- R118, R119: `WRCTR` writes one byte of `CTR`; `RDCTR` answers one byte of it and changes nothing; in every
state. -/
def Obligations.CounterRegisterByteAccess : Prop :=
  (∀ idx d, encode (.wrctr idx d) = 0x12#8 ++ idx ++ d) ∧
  (∀ idx, encode (.rdctr idx) = 0x13#8 ++ idx ++ 0x00#8) ∧
  (∀ (idx b : Byte) (s : State), b ≠ 0 → FailsWith (acceptCommand (0x13#8 ++ idx ++ b) s) s 1) ∧
  ∀ (idx d : Byte) (s : State),
    (8 ≤ idx.toNat → FailsWith (exec (.wrctr idx d) s) s 5 ∧ FailsWith (exec (.rdctr idx) s) s 5) ∧
    (idx.toNat < 8 → ∃ ctr : Block,
      exec (.wrctr idx d) s = .next { s with ctr := ctr, responses := s.responses ++ [0x0000#16] } ∧
      ∀ j, j < 8 → byteAt ctr j = if j = idx.toNat then d else byteAt s.ctr j) ∧
    (∀ h : idx.toNat < 8, exec (.rdctr idx) s = .next { s with
      responses := s.responses ++ [0x00#8 ++ s.ctr[idx.toNat]] })

/-- R120: `ADDCNT` adds to the packet count modulo 2^32 and leaves the time bytes alone. -/
def Obligations.AddcntAddsToThePacketCount : Prop :=
  (∀ k, encode (.addcnt k) = 0x16#8 ++ 0x00#8 ++ k) ∧
  (∀ (a k : Byte) (s : State), a ≠ 0 → FailsWith (acceptCommand (0x16#8 ++ a ++ k) s) s 1) ∧
  ∀ (k : Byte) (s : State), ∃ ctr : Block,
    exec (.addcnt k) s = .next { s with ctr := ctr, responses := s.responses ++ [0x0000#16] } ∧
    (∀ j, j < 4 → byteAt ctr j = byteAt s.ctr j) ∧
    (pktCnt ctr).toNat = ((pktCnt s.ctr).toNat + k.toNat) % 2 ^ 32 ∧
    (k = 0 → ctr = s.ctr)

/-- R116, R117: `CRYPT` XORs keystream block `t`, the encryption of the counter at `c + t`, into the bytes
`off+8t ..`, leaves every other byte, and ends with the count `⌈len/8⌉` higher modulo 2^32. -/
def Obligations.CryptXorsTheKeystream : Prop :=
  (∀ off len : Byte, encode (.crypt off len) = 0x25#8 ++ off ++ len) ∧
  ∀ (off len : Byte) (s : State), s.hostFb = true → s.krdy = true →
    off.toNat + len.toNat ≤ s.config.frameMax →
    ∃ (fb : Memory) (ctr : Block),
      exec (.crypt off len) s = .next { s with fb := fb, ctr := ctr, responses := s.responses ++ [0x0000#16] } ∧
      (∀ a, Memory.read fb a =
        if off.toNat ≤ a ∧ a < off.toNat + len.toNat then
          Memory.read s.fb a ^^^
            byteAt (blockEncrypt s.config (slice s.keys 8 16)
              (withCnt s.ctr (pktCnt s.ctr + BitVec.ofNat 32 ((a - off.toNat) / 8)))) ((a - off.toNat) % 8)
        else Memory.read s.fb a) ∧
      (∀ j, j < 4 → byteAt ctr j = byteAt s.ctr j) ∧
      (pktCnt ctr).toNat = ((pktCnt s.ctr).toNat + (len.toNat + 7) / 8) % 2 ^ 32

/-- R121 (a): with the counter restored in between, `CRYPT` applied twice gives the frame buffer back. -/
def Obligations.CryptTwiceRestoresTheBuffer : Prop :=
  ∀ (off len : Byte) (s : State), s.hostFb = true → s.krdy = true → Memory.wf s.fb = true →
    off.toNat + len.toNat ≤ s.config.frameMax →
    ∃ t u, exec (.crypt off len) s = .next t ∧ exec (.crypt off len) { t with ctr := s.ctr } = .next u ∧
      u.fb = s.fb ∧ u.ctr = t.ctr

/-! ## The buffers -/

/-- R125: `WRFB` writes one byte of the frame buffer if the host owns it. -/
def Obligations.WrfbWritesOneByte : Prop :=
  (∀ idx d, encode (.wrfb idx d) = 0x30#8 ++ idx ++ d) ∧
  ∀ (idx d : Byte) (s : State),
    ((s.rxen = true ∨ s.lm = .transmitting) → FailsWith (exec (.wrfb idx d) s) s 3) ∧
    (s.rxen = false → s.lm ≠ .transmitting → s.config.frameMax ≤ idx.toNat →
      FailsWith (exec (.wrfb idx d) s) s 5) ∧
    (s.rxen = false → s.lm ≠ .transmitting → idx.toNat < s.config.frameMax → ∃ fb : Memory,
      exec (.wrfb idx d) s = .next { s with fb := fb, responses := s.responses ++ [0x0000#16] } ∧
      ∀ a, Memory.read fb a = if a = idx.toNat then d else Memory.read s.fb a)

/-- R126: `RDFB` answers one byte of the frame buffer, in every state, and changes nothing. -/
def Obligations.RdfbAnswersOneByte : Prop :=
  (∀ idx, encode (.rdfb idx) = 0x31#8 ++ idx ++ 0x00#8) ∧
  (∀ (idx b : Byte) (s : State), b ≠ 0 → FailsWith (acceptCommand (0x31#8 ++ idx ++ b) s) s 1) ∧
  ∀ (idx : Byte) (s : State),
    (s.config.frameMax ≤ idx.toNat → FailsWith (exec (.rdfb idx) s) s 5) ∧
    (idx.toNat < s.config.frameMax → exec (.rdfb idx) s = .next { s with
      responses := s.responses ++ [0x00#8 ++ Memory.read s.fb idx.toNat] })

/-- R127: `PUTC` appends one byte to the pending payload and answers the new count; on a full buffer it drops the byte.
The premise `PLEN ≤ PAYLOAD_MAX` is R30 (c). -/
def Obligations.PutcAppendsAByte : Prop :=
  (∀ d, encode (.putc d) = 0x32#8 ++ 0x00#8 ++ d) ∧
  (∀ (a d : Byte) (s : State), a ≠ 0 → FailsWith (acceptCommand (0x32#8 ++ a ++ d) s) s 1) ∧
  ∀ (d : Byte) (s : State),
    (s.plen.toNat = min (s.config.frameMax - 12) 121 → FailsWith (exec (.putc d) s) s 6) ∧
    (s.plen.toNat < min (s.config.frameMax - 12) 121 → ∃ (pb : Memory) (plen : Byte),
      exec (.putc d) s = .next { s with pb := pb, plen := plen, responses := s.responses ++ [0x00#8 ++ plen] } ∧
      plen.toNat = s.plen.toNat + 1 ∧
      ∀ a, Memory.read pb a = if a = s.plen.toNat then d else Memory.read s.pb a)

/-- R128: `CLRPB` discards the pending payload; the bytes of `PB` keep their values. -/
def Obligations.ClrpbDiscardsThePayload : Prop :=
  encode .clrpb = 0x330000#24 ∧
  (∀ (a b : Byte) (s : State), (a ≠ 0 ∨ b ≠ 0) → FailsWith (acceptCommand (0x33#8 ++ a ++ b) s) s 1) ∧
  ∀ s, exec .clrpb s = .next { s with plen := 0, responses := s.responses ++ [0x0000#16] }

/-! ## Building and sending -/

/-- R141, R142, R42: `BUILDD` lays out a data frame: preamble, length, address, the payload under the keystream of the
counters `c ..`, the tag of address and ciphertext under the counter at `c + B`, two trailer bytes; the count ends at
`c + B + 1`. Nothing else changes. -/
def Obligations.BuilddBuildsADataFrame : Prop :=
  (∀ addr : Byte, encode (.buildd addr) = 0x40#8 ++ 0x00#8 ++ addr) ∧
  (∀ (a addr : Byte) (s : State), a ≠ 0 → FailsWith (acceptCommand (0x40#8 ++ a ++ addr) s) s 1) ∧
  ∀ (addr : Byte) (s : State),
    ((s.rxen = true ∨ s.lm = .transmitting) → FailsWith (exec (.buildd addr) s) s 3) ∧
    (s.rxen = false → s.lm ≠ .transmitting → s.krdy = false → FailsWith (exec (.buildd addr) s) s 4) ∧
    (s.rxen = false → s.lm ≠ .transmitting → s.krdy = true →
      s.plen.toNat ≤ min (s.config.frameMax - 12) 121 → 12 ≤ s.config.frameMax →
      let n := s.plen.toNat
      let c := pktCnt s.ctr
      let blocks := (n + 7) / 8
      let ks := fun j => byteAt (blockEncrypt s.config (slice s.keys 8 16)
        (withCnt s.ctr (c + BitVec.ofNat 32 (j / 8)))) (j % 8)
      let cipher := (List.range n).map fun j => Memory.read s.pb j ^^^ ks j
      let chain := cmac (fun x => blockEncrypt s.config (slice s.keys 0 16) x) (slice s.keys 24 8) (slice s.keys 32 8)
        (addr :: cipher) (some (withCnt s.ctr (c + BitVec.ofNat 32 blocks)))
      let frame := [0xAA, 0xAA, 0x2D, 0xD4, BitVec.ofNat 8 (n + 6), addr] ++ cipher ++ chain.toList.take 4 ++
        [s.config.trailer, s.config.trailer]
      ∃ fb : Memory,
        exec (.buildd addr) s = .next { s with
          fb := fb, ctr := withCnt s.ctr (c + BitVec.ofNat 32 (blocks + 1))
          txlen := BitVec.ofNat 8 (n + 12), plen := 0, rxpos := 0, rxfrz := false
          responses := s.responses ++ [BitVec.ofNat 16 (n + 12)] } ∧
        ∀ a, Memory.read fb a = if a < n + 12 then frame.getD a 0 else Memory.read s.fb a)

/-- R145, R42: `BUILDS` on a master lays out a sync frame: the payload in clear, the tag of the payload alone under no
prefix; the counter takes the first four payload bytes and count 0. Nothing else changes. -/
def Obligations.BuildsBuildsASyncFrame : Prop :=
  (∀ addr : Byte, encode (.builds addr) = 0x41#8 ++ 0x00#8 ++ addr) ∧
  (∀ (a addr : Byte) (s : State), a ≠ 0 → FailsWith (acceptCommand (0x41#8 ++ a ++ addr) s) s 1) ∧
  ∀ (addr : Byte) (s : State),
    (s.role = .slave → FailsWith (exec (.builds addr) s) s 2) ∧
    (s.role = .master → (s.rxen = true ∨ s.lm = .transmitting) → FailsWith (exec (.builds addr) s) s 3) ∧
    (s.role = .master → s.rxen = false → s.lm ≠ .transmitting → s.krdy = false →
      FailsWith (exec (.builds addr) s) s 4) ∧
    (s.role = .master → s.rxen = false → s.lm ≠ .transmitting → s.krdy = true → s.plen.toNat < 4 →
      FailsWith (exec (.builds addr) s) s 5) ∧
    (s.role = .master → s.rxen = false → s.lm ≠ .transmitting → s.krdy = true → 4 ≤ s.plen.toNat →
      s.plen.toNat ≤ min (s.config.frameMax - 12) 121 →
      let n := s.plen.toNat
      let payload := (List.range n).map fun j => Memory.read s.pb j
      let chain := cmac (fun x => blockEncrypt s.config (slice s.keys 0 16) x) (slice s.keys 24 8) (slice s.keys 32 8)
        payload none
      let frame := [0xAA, 0xAA, 0x2D, 0xD4, 0x80 ||| BitVec.ofNat 8 (n + 6), addr] ++ payload ++
        chain.toList.take 4 ++ [s.config.trailer, s.config.trailer]
      ∃ (fb : Memory) (ctr : Block),
        exec (.builds addr) s = .next { s with
          fb := fb, ctr := ctr, txlen := BitVec.ofNat 8 (n + 12), plen := 0, rxpos := 0, rxfrz := false
          responses := s.responses ++ [BitVec.ofNat 16 (n + 12)] } ∧
        (∀ a, Memory.read fb a = if a < n + 12 then frame.getD a 0 else Memory.read s.fb a) ∧
        (∀ j, j < 4 → byteAt ctr j = Memory.read s.pb j) ∧ pktCnt ctr = 0)

/-- R144: a build in a state with the invariants either fails with an error, or leaves a frame whose length byte
declares its length, which an engine with the same `FRAME_MAX` never rejects, and which fits the buffer. -/
def Obligations.BuiltFrameDeclaresItsLength : Prop :=
  ∀ (addr : Byte) (s : State) (i : Instr), s.Inv → (i = .buildd addr ∨ i = .builds addr) →
    (∃ code, 2 ≤ code ∧ code ≤ 5 ∧ FailsWith (exec i s) s code) ∨
    ∃ t : State, exec i s = .next t ∧ t.errflags = s.errflags ∧
      (Memory.read t.fb 4 &&& 0x7F).toNat = t.txlen.toNat - 6 ∧
      6 ≤ t.txlen.toNat - 6 ∧ t.txlen.toNat - 6 ≤ min 127 (s.config.frameMax - 6) ∧
      t.txlen.toNat ≤ s.config.frameMax

/-- R146: `SEND` emits the built frame as it stands, locks the buffer and forgets the frame; without one, or while the
host does not own the buffer, it fails. The premise `TXLEN ≤ FRAME_MAX` is R30 (d). -/
def Obligations.SendEmitsTheBuiltFrame : Prop :=
  encode .send = 0x420000#24 ∧
  (∀ (a b : Byte) (s : State), (a ≠ 0 ∨ b ≠ 0) → FailsWith (acceptCommand (0x42#8 ++ a ++ b) s) s 1) ∧
  ∀ s : State,
    ((s.rxen = true ∨ s.lm = .transmitting ∨ s.txlen = 0) → FailsWith (exec .send s) s 3) ∧
    (s.rxen = false → s.lm ≠ .transmitting → s.txlen ≠ 0 → s.txlen.toNat ≤ s.config.frameMax →
      exec .send s = .next { s with
        txframes := s.txframes ++ [(List.range s.txlen.toNat).map fun a => Memory.read s.fb a]
        lm := .transmitting, rxpos := 0, rxfrz := false, txlen := 0
        responses := s.responses ++ [0x00#8 ++ s.txlen] })

/-! ## Receiving -/

/-- R147: the step that takes `RXBYTE(b)`, case by case: dropped when not armed, else stored at `RXPOS` and counted, and
then rejected, frozen or kept by the declared length. It never answers and touches nothing else. -/
def Obligations.RxbyteCollectsRejectsOrFreezes : Prop :=
  ∀ (s : State) (b : Byte) (rest : List Input), s.inbox = .rxByte b :: rest →
    (s.rxen = false → step s = .next { s with inbox := rest }) ∧
    (s.rxen = true → s.config.frameMax ≤ s.rxpos.toNat →
      step s = .next { s with inbox := rest, rxpos := 0, rxrej := true }) ∧
    (s.rxen = true → s.rxpos.toNat < s.config.frameMax → ∃ fb : Memory,
      (∀ a, Memory.read fb a = if a = s.rxpos.toNat then b else Memory.read s.fb a) ∧
      let l := (Memory.read fb 0).toNat % 128
      step s = .next (
        if s.config.frameMax ≤ l ∨ l < 6 then { s with inbox := rest, fb := fb, rxpos := 0, rxrej := true }
        else if l ≤ s.rxpos.toNat + 1 then
          { s with inbox := rest, fb := fb, rxpos := s.rxpos + 1, rxen := false, rxfrz := true }
        else { s with inbox := rest, fb := fb, rxpos := s.rxpos + 1 }))

/-- R148: the checks of `RXPROC`, and that a failing one leaves the frame frozen. -/
def Obligations.RxprocNeedsAFrozenFrameAndKeys : Prop :=
  encode .rxproc = 0x430000#24 ∧
  (∀ (a b : Byte) (s : State), (a ≠ 0 ∨ b ≠ 0) → FailsWith (acceptCommand (0x43#8 ++ a ++ b) s) s 1) ∧
  ∀ s : State, (s.rxfrz = false → FailsWith (exec .rxproc s) s 3) ∧
    (s.rxfrz = true → s.krdy = false → FailsWith (exec .rxproc s) s 4)

/-- R149: `RXPROC` on a frozen sync frame: verified without a prefix over the payload; applied only if it has four time
bytes. The premise on `RXPOS` is R30 (b). -/
def Obligations.RxprocOnASyncFrame : Prop :=
  ∀ s : State, s.rxfrz = true → s.krdy = true → 6 ≤ s.rxpos.toNat → s.rxpos.toNat ≤ s.config.frameMax →
    (Memory.read s.fb 0).getLsbD 7 = true →
    let n := s.rxpos.toNat - 6
    let payload := (List.range n).map fun j => Memory.read s.fb (2 + j)
    let chain := cmac (fun x => blockEncrypt s.config (slice s.keys 0 16) x) (slice s.keys 24 8) (slice s.keys 32 8)
      payload none
    let verified : Prop := ∀ k, k < 4 → Memory.read s.fb (2 + n + k) = byteAt chain k
    (¬verified → exec .rxproc s = .next { s with
      rxfrz := false, rxres := .syncMacFail, responses := s.responses ++ [0x0004#16] }) ∧
    (verified → n < 4 → exec .rxproc s = .next { s with
      rxfrz := false, rxres := .syncShort, responses := s.responses ++ [0x0006#16] }) ∧
    (verified → 4 ≤ n → ∃ ctr : Block, exec .rxproc s = .next { s with
        rxfrz := false, rxres := .syncOk, ctr := ctr, lm := .stopped, responses := s.responses ++ [0x0002#16] } ∧
      (∀ j, j < 4 → byteAt ctr j = Memory.read s.fb (2 + j)) ∧ pktCnt ctr = 0)

/-- R150, R151: `RXPROC` on a frozen data frame: verified over address and payload under the counter at `c + B`, then
decrypted with the counters `c ..`, the count ending at `c + B + 1`; a slave reports an address that is not the
master's. The premise on `RXPOS` is R30 (b). -/
def Obligations.RxprocOnADataFrame : Prop :=
  ∀ s : State, s.rxfrz = true → s.krdy = true → 6 ≤ s.rxpos.toNat → s.rxpos.toNat ≤ s.config.frameMax →
    (Memory.read s.fb 0).getLsbD 7 = false →
    let n := s.rxpos.toNat - 6
    let c := pktCnt s.ctr
    let blocks := (n + 7) / 8
    let body := (List.range (n + 1)).map fun j => Memory.read s.fb (1 + j)
    let chain := cmac (fun x => blockEncrypt s.config (slice s.keys 0 16) x) (slice s.keys 24 8) (slice s.keys 32 8)
      body (some (withCnt s.ctr (c + BitVec.ofNat 32 blocks)))
    let verified : Prop := ∀ k, k < 4 → Memory.read s.fb (2 + n + k) = byteAt chain k
    (¬verified → exec .rxproc s = .next { s with
      rxfrz := false, rxres := .dataMacFail, responses := s.responses ++ [0x0003#16] }) ∧
    (verified → ∃ fb : Memory,
      (∀ a, Memory.read fb a =
        if 2 ≤ a ∧ a < 2 + n then
          Memory.read s.fb a ^^^ byteAt (blockEncrypt s.config (slice s.keys 8 16)
            (withCnt s.ctr (c + BitVec.ofNat 32 ((a - 2) / 8)))) ((a - 2) % 8)
        else Memory.read s.fb a) ∧
      (s.role = .slave → Memory.read s.fb 1 ≠ 0 → exec .rxproc s = .next { s with
        rxfrz := false, rxres := .dataAddr, fb := fb, ctr := withCnt s.ctr (c + BitVec.ofNat 32 (blocks + 1))
        responses := s.responses ++ [0x0005#16] }) ∧
      ((s.role = .master ∨ Memory.read s.fb 1 = 0) → exec .rxproc s = .next { s with
        rxfrz := false, rxres := .dataOk, fb := fb, ctr := withCnt s.ctr (c + BitVec.ofNat 32 (blocks + 1))
        responses := s.responses ++ [0x0001#16] }))

/-- R153: when `RXPROC` answers 3 or 4 it changed only `RXFRZ` and `RXRES`. -/
def Obligations.MacFailureChangesNothingElse : Prop :=
  ∀ s t : State, exec .rxproc s = .next t →
    (t.lastResponse = some 0x0003#16 → t = { s with rxfrz := false, rxres := .dataMacFail, responses := t.responses }) ∧
    (t.lastResponse = some 0x0004#16 → t = { s with rxfrz := false, rxres := .syncMacFail, responses := t.responses })

/-! ## Two engines -/

/-- R151, the lockstep theorem: a sender `s` and a receiver `r` with equal keys, counters and parameters; the sender
builds and sends, the receiver takes the bytes from the length byte on and processes the frame. The receiver answers 1
(5 if it is a slave and the address is not 0), holds address and payload in clear, and the counters are equal again. -/
def Obligations.DataFrameKeepsTheCountersInLockstep : Prop :=
  ∀ (s r : State) (addr : Byte), s.Inv → r.Inv →
    s.config = r.config → s.keys = r.keys → s.ctr = r.ctr → s.krdy = true → r.krdy = true →
    s.hostFb = true → r.rxen = true → r.rxpos = 0 →
    ∃ (w : List Byte) (s' : State),
      Host.Core.run core 2 { s with inbox := [.command (encode (.buildd addr)), .command (encode .send)] } =
        .next s' ∧
      s'.txframes = s.txframes ++ [w] ∧ w.length = s.plen.toNat + 12 ∧
      ∃ r' : State,
        Host.Core.run core (s.plen.toNat + 9)
          { r with inbox := (w.drop 4).map Input.rxByte ++ [.command (encode .rxproc)] } = .next r' ∧
        r'.responses = r.responses ++ [if r.role = .slave ∧ addr ≠ 0 then 0x0005#16 else 0x0001#16] ∧
        Memory.read r'.fb 1 = addr ∧
        (∀ j, j < s.plen.toNat → Memory.read r'.fb (2 + j) = Memory.read s.pb j) ∧
        r'.ctr = s'.ctr

/-- R145, R149: a sync frame that a master builds and sends is accepted by every engine with the same keys and
parameters, whatever its counter, and leaves both counters equal. -/
def Obligations.SyncFrameAlignsTheCounters : Prop :=
  ∀ (s r : State) (addr : Byte), s.Inv → r.Inv →
    s.config = r.config → s.keys = r.keys → s.krdy = true → r.krdy = true →
    s.role = .master → s.hostFb = true → 4 ≤ s.plen.toNat → r.rxen = true → r.rxpos = 0 →
    ∃ (w : List Byte) (s' : State),
      Host.Core.run core 2 { s with inbox := [.command (encode (.builds addr)), .command (encode .send)] } =
        .next s' ∧
      s'.txframes = s.txframes ++ [w] ∧ w.length = s.plen.toNat + 12 ∧
      ∃ r' : State,
        Host.Core.run core (s.plen.toNat + 9)
          { r with inbox := (w.drop 4).map Input.rxByte ++ [.command (encode .rxproc)] } = .next r' ∧
        r'.responses = r.responses ++ [0x0002#16] ∧ r'.lm = .stopped ∧ r'.ctr = s'.ctr ∧
        (∀ j, j < 4 → byteAt r'.ctr j = Memory.read s.pb j) ∧ pktCnt r'.ctr = 0

/-! ## All commands -/

/-- R61, R62, R190, R191: every command answers exactly one response word; a code is at most 6; with a code other than 0
the data is 0x00 and one bit of `ERRFLAGS` is all that changes; with code 0 no bit of `ERRFLAGS` is set. -/
def Obligations.FailingCommandChangesOneFlagOnly : Prop :=
  ∀ (i : Instr) (s t : State), exec i s = .next t →
    ∃ code data : Byte, t.responses = s.responses ++ [code ++ data] ∧ code.toNat ≤ 6 ∧
      (code ≠ 0 → FailsWith (exec i s) s code.toNat ∧ data = 0) ∧
      (code = 0 → t.errflags = if i = .reset then 0 else s.errflags)

/-- R26: `ERRFLAGS` is sticky: no step but a reset clears a bit of it. -/
def Obligations.ErrflagsAreSticky : Prop :=
  ∀ (s t : State) (k : Nat), step s = .next t → s.errflags.getLsbD k = true →
    t.errflags.getLsbD k = true ∨
    ∃ rest, s.inbox = .hardReset :: rest ∨ ∃ w, s.inbox = .command w :: rest ∧ decode w = .ok .reset

/-- R16, R191: while `KRDY = 0` every command that uses the derived keys fails, with `ERR_NOKEY` or a lower code. -/
def Obligations.CommandsWithoutKeysFail : Prop :=
  ∀ (i : Instr) (s : State) (off len addr : Byte), s.krdy = false →
    (i = .xencMac ∨ i = .xencEnc ∨ i = .macg off len ∨ i = .macgc off len ∨ i = .macv off len ∨ i = .macvc off len ∨
      i = .crypt off len ∨ i = .buildd addr ∨ i = .builds addr ∨ i = .rxproc) →
    FailsWith (exec i s) s 2 ∨ FailsWith (exec i s) s 3 ∨ FailsWith (exec i s) s 4

/-- R44: while the deframer or the transmitter owns the frame buffer, no command but `RESET` changes it, and a received
byte changes it only while the deframer owns it. -/
def Obligations.OnlyTheOwnerWritesTheFrameBuffer : Prop :=
  (∀ (i : Instr) (s t : State), s.Inv → (s.rxen = true ∨ s.lm = .transmitting) → i ≠ .reset →
    exec i s = .next t → t.fb = s.fb) ∧
  (∀ (s t : State) (b : Byte) (rest : List Input), s.inbox = .rxByte b :: rest → step s = .next t →
    s.rxen = false → t.fb = s.fb)

/-- R33, R18, R12, R17, R191: which commands write which register. Every command not named for a piece of state leaves it
alone, and `ERRFLAGS` is changed by a failing command alone. `RESET` writes every piece of state (R171). The first clause
is on fields of the model's own, which no command writes (log entries 1 and 2). -/
def Obligations.WhoWritesWhat : Prop :=
  ∀ (i : Instr) (s t : State), exec i s = .next t → i ≠ .reset →
    (t.config = s.config ∧ t.inbox = s.inbox) ∧
    ((∀ idx d, i ≠ .wrmk idx d) → i ≠ .derive → t.keys = s.keys ∧ t.mkmask = s.mkmask ∧ t.krdy = s.krdy) ∧
    ((∀ idx d, i ≠ .wrctr idx d) → (∀ k, i ≠ .addcnt k) → (∀ off len, i ≠ .crypt off len) →
      (∀ addr, i ≠ .buildd addr) → (∀ addr, i ≠ .builds addr) → i ≠ .rxproc → t.ctr = s.ctr) ∧
    ((∀ idx d, i ≠ .wrblk idx d) → i ≠ .xencMac → i ≠ .xencEnc → i ≠ .xencMaster → t.blk = s.blk) ∧
    ((∀ off len, i ≠ .macg off len) → (∀ off len, i ≠ .macgc off len) → (∀ off len, i ≠ .crypt off len) →
      (∀ idx d, i ≠ .wrfb idx d) → (∀ addr, i ≠ .buildd addr) → (∀ addr, i ≠ .builds addr) → i ≠ .rxproc →
      t.fb = s.fb) ∧
    ((∀ d, i ≠ .putc d) → t.pb = s.pb) ∧
    ((∀ d, i ≠ .putc d) → i ≠ .clrpb → (∀ addr, i ≠ .buildd addr) → (∀ addr, i ≠ .builds addr) →
      t.plen = s.plen) ∧
    ((∀ r, i ≠ .setrole r) → t.role = s.role) ∧
    (i ≠ .rxon → i ≠ .stop → t.rxen = s.rxen ∧ t.rxrej = s.rxrej) ∧
    (i ≠ .rxon → i ≠ .stop → i ≠ .send → (∀ addr, i ≠ .buildd addr) → (∀ addr, i ≠ .builds addr) →
      t.rxpos = s.rxpos ∧ t.txlen = s.txlen ∧ (i ≠ .rxproc → t.rxfrz = s.rxfrz)) ∧
    (i ≠ .rxproc → t.rxres = s.rxres) ∧
    (i ≠ .send → i ≠ .rxproc → i ≠ .rxon → i ≠ .stop → t.lm = s.lm) ∧
    (t.errflags = s.errflags ∨ ∃ code, 1 ≤ code ∧ code ≤ 6 ∧ FailsWith (exec i s) s code) ∧
    (i ≠ .send → t.txframes = s.txframes)

/-- R195, R194: the interrupt line is a function of the state and its two sources never hold together; no command raises
it; frame ready is cleared by `RXPROC`, `RXON`, `STOP`, `SEND`, `BUILDD`, `BUILDS` and `RESET` where they succeed, and by
no other command; transmit done by `RXON`, `STOP`, `SEND` and `RESET` where they succeed, and by no other command. -/
def Obligations.InterruptLineAndItsSources : Prop :=
  (∀ s : State, s.irq = true ↔ s.rxfrz = true ∨ s.lm = .txDone) ∧
  (∀ s : State, s.Inv → ¬(s.rxfrz = true ∧ s.lm = .txDone)) ∧
  (∀ (i : Instr) (s t : State), s.Inv → exec i s = .next t → s.irq = false → t.irq = false) ∧
  (∀ (i : Instr) (s t : State), s.Inv → exec i s = .next t → s.rxfrz = true → t.rxfrz = false →
    i = .rxproc ∨ i = .rxon ∨ i = .stop ∨ i = .send ∨ (∃ addr, i = .buildd addr) ∨ (∃ addr, i = .builds addr) ∨
      i = .reset) ∧
  (∀ (i : Instr) (s t : State) (data : Byte), s.Inv → exec i s = .next t →
    t.responses = s.responses ++ [0x00#8 ++ data] → s.rxfrz = true →
    (i = .rxproc ∨ i = .rxon ∨ i = .stop ∨ i = .send ∨ (∃ addr, i = .buildd addr) ∨ (∃ addr, i = .builds addr) ∨
      i = .reset) → t.rxfrz = false ∧ t.irq = false) ∧
  (∀ (i : Instr) (s t : State), s.Inv → exec i s = .next t → s.lm = .txDone → t.lm ≠ .txDone →
    i = .rxon ∨ i = .stop ∨ i = .send ∨ i = .reset) ∧
  (∀ (i : Instr) (s t : State) (data : Byte), s.Inv → exec i s = .next t →
    t.responses = s.responses ++ [0x00#8 ++ data] → s.lm = .txDone →
    (i = .rxon ∨ i = .stop ∨ i = .send ∨ i = .reset) → t.lm ≠ .txDone ∧ t.irq = false) ∧
  (∀ s : State, s.Idle → s.irq = false)

/-- The model's one stop (log entry 4): no command is refused, and a command stops with `outsideBuffer` exactly where the
byte it needs lies outside `PB` or `FB`, which no state with the invariants of R30 allows. -/
def Obligations.CommandsStopOnlyOutsideTheBuffers : Prop :=
  ∀ (i : Instr) (s : State),
    (∀ r, exec i s ≠ .refused r) ∧
    (s.Inv → ∀ f, exec i s ≠ .fault f) ∧
    ((∃ f, exec i s = .fault f) ↔
      ((∃ d, i = .putc d) ∧ payloadMax s.config < s.plen.toNat) ∨
      ((∃ addr, i = .buildd addr) ∧ s.hostFb = true ∧ s.krdy = true ∧
        (payloadMax s.config < s.plen.toNat ∨ s.config.frameMax < s.plen.toNat + 12)) ∨
      ((∃ addr, i = .builds addr) ∧ s.role = .master ∧ s.hostFb = true ∧ s.krdy = true ∧ 4 ≤ s.plen.toNat ∧
        (payloadMax s.config < s.plen.toNat ∨ s.config.frameMax < s.plen.toNat + 12)) ∨
      (i = .send ∧ s.hostFb = true ∧ s.config.frameMax < s.txlen.toNat ∧ s.txlen ≠ 0) ∨
      (i = .rxproc ∧ s.rxfrz = true ∧ s.krdy = true ∧
        (s.rxpos.toNat < 6 ∨ s.config.frameMax < s.rxpos.toNat)))

/-! ## The textual form -/

/-- R67, R68: the text of a command, alone or with the response it expects, assembles to its word; the text of a radio
event to the event; and the loading pseudo-instructions, `EXPECT FB` among them, to one line a byte in ascending index,
where the string has the length of R68 and no index passes 255. That `assembleLine` answers none otherwise, and what
separates the words of a line, is the model's choice (log entry 11). -/
def Obligations.AssemblyGivesTheCommandWord : Prop :=
  (∀ i : Instr, assembleWord (opcodeRow i).mnemonic (asmOperands i) = some (encode i) ∧
    assembleLine (toAssembly i) = some [⟨.command (encode i), none⟩] ∧
    ∀ r : ResponseWord, assembleLine (toAssembly i ++ " -> " ++ responseText r) =
      some [⟨.command (encode i), some r⟩]) ∧
  (∀ b : Byte, assembleLine ("@RX " ++ byteText b) = some [⟨.rxByte b, none⟩]) ∧
  assembleLine "@TXC" = some [⟨.txComplete, none⟩] ∧
  ∀ bs : List Byte,
    (bs.length = 16 → assembleLine ("LDMK" ++ hexText bs) = some ((List.range 16).map fun k =>
      ⟨.command (encode (.wrmk (BitVec.ofNat 8 k) (bs.getD k 0))), none⟩)) ∧
    (bs.length ≠ 16 → assembleLine ("LDMK" ++ hexText bs) = none) ∧
    (bs.length = 8 → assembleLine ("LDCTR" ++ hexText bs) = some ((List.range 8).map fun k =>
      ⟨.command (encode (.wrctr (BitVec.ofNat 8 k) (bs.getD k 0))), none⟩)) ∧
    (bs.length = 8 → assembleLine ("LDBLK" ++ hexText bs) = some ((List.range 8).map fun k =>
      ⟨.command (encode (.wrblk (BitVec.ofNat 8 k) (bs.getD k 0))), none⟩)) ∧
    (bs.length ≠ 8 → assembleLine ("LDCTR" ++ hexText bs) = none ∧ assembleLine ("LDBLK" ++ hexText bs) = none) ∧
    (∀ off : Byte, off.toNat + bs.length ≤ 256 →
      assembleLine ("LDFB " ++ byteText off ++ "," ++ hexText bs) = some ((List.range bs.length).map fun k =>
        ⟨.command (encode (.wrfb (BitVec.ofNat 8 (off.toNat + k)) (bs.getD k 0))), none⟩) ∧
      assembleLine ("EXPECT FB " ++ byteText off ++ "," ++ hexText bs) = some ((List.range bs.length).map fun k =>
        ⟨.command (encode (.rdfb (BitVec.ofNat 8 (off.toNat + k)))), some (0x00#8 ++ bs.getD k 0)⟩)) ∧
    (∀ off : Byte, 256 < off.toNat + bs.length →
      assembleLine ("LDFB " ++ byteText off ++ "," ++ hexText bs) = none ∧
      assembleLine ("EXPECT FB " ++ byteText off ++ "," ++ hexText bs) = none) ∧
    assembleLine ("PUTS" ++ hexText bs) = some (bs.map fun c => ⟨.command (encode (.putc c)), none⟩) ∧
    assembleLine ("@RXS" ++ hexText bs) = some (bs.map fun h => ⟨.rxByte h, none⟩) ∧
    ((∀ c ∈ bs, c.toNat < 128 ∧ c ≠ 0x22 ∧ c ≠ 0x3B) →
      assembleLine ("PUTS \"" ++ String.ofList (bs.map fun c => Char.ofNat c.toNat) ++ "\"") =
        some (bs.map fun c => ⟨.command (encode (.putc c)), none⟩))
end

