-- ==== Sys2Proof/Laws/Assembly.lean ====
section
/-! SUPPORT. What the parts of the assembler do, each said once (spec 30_encoding.md R67, R68): the words of a written
line, and what is read back from a written byte, string of byte pairs, operand list and response. -/

namespace Sys2Proof.Machine

/-- A character that neither ends a word nor starts a comment or a quoted text. -/
def plainChar (c : Char) : Bool := !isBlank c && c != ',' && c != ';' && c != '"'

/-! ## Digits -/

theorem plain_hexDigit : ∀ n : BitVec 4, plainChar (hexDigit n) = true := by decide

theorem digitValue_hexDigit : ∀ n : BitVec 4, digitValue (hexDigit n) = some n.toNat := by decide

theorem plain_hexChars (b : Byte) : (hexChars b).all plainChar = true := by simp [hexChars, plain_hexDigit]

theorem hexChars_ne_nil (b : Byte) : hexChars b ≠ [] := by simp [hexChars]

theorem toNat_nibbles (b : Byte) : (b.extractLsb' 4 4).toNat * 16 + (b.extractLsb' 0 4).toNat = b.toNat := by
  have := b.isLt
  simp only [BitVec.extractLsb'_toNat]
  omega

/-- The two digits of a byte read back, on from the number `acc`. -/
theorem readDigits_hexChars (b : Byte) (cs : List Char) (acc : Nat) :
    readDigits 16 (hexChars b ++ cs) acc = readDigits 16 cs (acc * 256 + b.toNat) := by
  have h1 : (b.extractLsb' 4 4).toNat < 16 := (b.extractLsb' 4 4).isLt
  have h0 : (b.extractLsb' 0 4).toNat < 16 := (b.extractLsb' 0 4).isLt
  have e : (acc * 16 + (b.extractLsb' 4 4).toNat) * 16 + (b.extractLsb' 0 4).toNat = acc * 256 + b.toNat := by
    rw [← toNat_nibbles b]
    omega
  simp only [hexChars, List.cons_append, List.nil_append, readDigits, digitValue_hexDigit, if_pos h1, if_pos h0, e]

theorem readByte_hexChars (b : Byte) : readByte ('0' :: 'x' :: hexChars b) = some b := by
  have := readDigits_hexChars b [] 0
  have hb := b.isLt
  simp only [List.append_nil, readDigits, Nat.zero_mul, Nat.zero_add] at this
  simp only [readByte, readNumber, hexChars] at this ⊢
  simp [this, hb]

theorem readHexPairs_hexChars (b : Byte) : readHexPairs (hexChars b) = some [b] := by
  have := readDigits_hexChars b [] 0
  simp only [List.append_nil, readDigits, Nat.zero_mul, Nat.zero_add] at this
  simp only [hexChars] at this ⊢
  simp [readHexPairs, this]

/-- A string of byte pairs is read back, one word a byte. -/
theorem readHex_hexChars (bs : List Byte) : readHex (bs.map hexChars) = some bs := by
  induction bs with
  | nil => rfl
  | cons b bs ih => simp [readHex, readHexPairs_hexChars, ih]

theorem readResponse_digits (r : ResponseWord) :
    readResponse (hexChars (r.extractLsb' 8 8) ++ hexChars (r.extractLsb' 0 8)) = some r := by
  have hl : (hexChars (r.extractLsb' 8 8) ++ hexChars (r.extractLsb' 0 8)).length = 4 := rfl
  have h0 := readDigits_hexChars (r.extractLsb' 0 8) [] (r.extractLsb' 8 8).toNat
  have hr := r.isLt
  rw [List.append_nil] at h0
  rw [readResponse, if_pos hl, readDigits_hexChars, Nat.zero_mul, Nat.zero_add, h0]
  simp only [readDigits, Option.map_some, Option.some.injEq, BitVec.extractLsb'_toNat]
  apply BitVec.eq_of_toNat_eq
  simp only [BitVec.toNat_ofNat]
  omega

/-! ## The words of a line -/

@[simp] theorem lineWords_blank (cs word : List Char) :
    lineWords (' ' :: cs) word = endWord word (lineWords cs []) := rfl

@[simp] theorem lineWords_comma (cs word : List Char) :
    lineWords (',' :: cs) word = endWord word ([','] :: lineWords cs []) := rfl

/-- Plain characters join the word being read. -/
theorem lineWords_plain (w cs word : List Char) (hw : w.all plainChar = true) :
    lineWords (w ++ cs) word = lineWords cs (w.reverse ++ word) := by
  induction w generalizing word with
  | nil => rfl
  | cons c w ih =>
    simp only [List.all_cons, Bool.and_eq_true] at hw
    have hc : isBlank c = false ∧ c ≠ ',' := by
      have := hw.1
      simp only [plainChar, Bool.and_eq_true, Bool.not_eq_true', bne_iff_ne] at this
      exact ⟨this.1.1.1, this.1.1.2⟩
    simp [lineWords, hc.1, hc.2, ih _ hw.2]

/-- The word read so far ends at a word's end. -/
theorem endWord_reverse (w : List Char) (rest : List (List Char)) (h : w ≠ []) :
    endWord w.reverse rest = w :: rest := by
  cases hr : w.reverse with
  | nil => simp_all
  | cons c cs => simp [endWord, ← hr]

/-- The words of a string of byte pairs. -/
theorem lineWords_hexText (bs : List Byte) (word : List Char) :
    lineWords (bs.flatMap fun b => ' ' :: hexChars b) word = endWord word (bs.map hexChars) := by
  induction bs generalizing word with
  | nil => rfl
  | cons b bs ih =>
    rw [List.flatMap_cons, List.cons_append, lineWords_blank, lineWords_plain _ _ _ (plain_hexChars b),
      List.append_nil, ih, endWord_reverse _ _ (hexChars_ne_nil b), List.map_cons]

/-- A line without a `;` has no comment. -/
theorem dropComment_of_not_mem (cs : List Char) (h : ';' ∉ cs) : dropComment cs = cs := by
  induction cs with
  | nil => rfl
  | cons c cs ih =>
    simp only [List.mem_cons, not_or] at h
    simp [dropComment, Ne.symm h.1, ih h.2]

/-- Words none of which is the arrow hold no expected response. -/
theorem splitArrow_none (ws : List (List Char)) (h : ['-', '>'] ∉ ws) : splitArrow ws = (ws, none) := by
  induction ws with
  | nil => rfl
  | cons w ws ih =>
    simp only [List.mem_cons, not_or] at h
    simp [splitArrow, Ne.symm h.1, ih h.2]

/-- The words before and after the first arrow. -/
theorem splitArrow_arrow (ws after : List (List Char)) (h : ['-', '>'] ∉ ws) :
    splitArrow (ws ++ ['-', '>'] :: after) = (ws, some after) := by
  induction ws with
  | nil => rfl
  | cons w ws ih =>
    simp only [List.mem_cons, not_or] at h
    simp [splitArrow, Ne.symm h.1, ih h.2]

end Sys2Proof.Machine
end

