-- ==== Sys2Proof/Laws/Bytes.lean ====
section
/-! SUPPORT. What the byte-string operations of Ops do, one byte at a time. -/

namespace Sys2Proof.Machine

@[simp] theorem byteAt_tabulate {n : Nat} (f : Nat → Byte) (i : Nat) :
    byteAt (tabulate n f) i = if i < n then f i else 0 := by
  unfold byteAt tabulate
  by_cases h : i < n
  · simp [List.getD, h]
  · simp [List.getD, h]

theorem byteAt_eq_getElem {n : Nat} (v : Vector Byte n) (i : Nat) (h : i < n) : byteAt v i = v[i] := by
  simp [byteAt, List.getD, h]

theorem byteAt_of_le {n : Nat} (v : Vector Byte n) (i : Nat) (h : n ≤ i) : byteAt v i = 0 := by
  simp [byteAt, List.getD, h]

/-- Two byte strings are equal when their bytes are. -/
theorem bytes_ext {n : Nat} {x y : Vector Byte n} (h : ∀ i, i < n → byteAt x i = byteAt y i) : x = y := by
  apply Vector.ext
  intro i hi
  have := h i hi
  rwa [byteAt_eq_getElem x i hi, byteAt_eq_getElem y i hi] at this

theorem byteAt_setByte {n : Nat} (v : Vector Byte n) (i j : Nat) (d : Byte) (h : i < n) :
    byteAt (setByte v i d) j = if j = i then d else byteAt v j := by
  unfold setByte
  by_cases hj : j < n
  · simp [hj]
  · have : j ≠ i := by omega
    simp [hj, this, byteAt_of_le v j (by omega)]

@[simp] theorem byteAt_slice {n : Nat} (v : Vector Byte n) (off m i : Nat) :
    byteAt (slice v off m) i = if i < m then byteAt v (off + i) else 0 := by
  simp [slice]

theorem byteAt_setSlice {n m : Nat} (v : Vector Byte n) (off : Nat) (b : Vector Byte m) (i : Nat) (h : i < n) :
    byteAt (setSlice v off b) i = if off ≤ i ∧ i < off + m then byteAt b (i - off) else byteAt v i := by
  simp [setSlice, h]

@[simp] theorem byteAt_xorBytes {n : Nat} (x y : Vector Byte n) (i : Nat) :
    byteAt (xorBytes x y) i = byteAt x i ^^^ byteAt y i := by
  unfold xorBytes
  by_cases h : i < n
  · simp [h]
  · simp [h, byteAt_of_le x i (by omega), byteAt_of_le y i (by omega)]

@[simp] theorem byteAt_zeroBlock (i : Nat) : byteAt zeroBlock i = 0 := by simp [zeroBlock]

@[simp] theorem byteAt_blockOf (l : List Byte) (i : Nat) :
    byteAt (blockOf l) i = if i < 8 then l.getD i 0 else 0 := by simp [blockOf]

/-- Writing a byte string and reading it back gives it. -/
theorem slice_setSlice_same {n m : Nat} (v : Vector Byte n) (off : Nat) (b : Vector Byte m) (h : off + m ≤ n) :
    slice (setSlice v off b) off m = b := by
  apply bytes_ext
  intro i hi
  rw [byteAt_slice, if_pos hi, byteAt_setSlice _ _ _ _ (by omega), if_pos (by omega)]
  congr 1
  omega

/-- Writing a byte string leaves a slice outside it alone. -/
theorem slice_setSlice_disjoint {n m k : Nat} (v : Vector Byte n) (off off' : Nat) (b : Vector Byte m)
    (h : off' + k ≤ n) (hd : off' + k ≤ off ∨ off + m ≤ off') :
    slice (setSlice v off b) off' k = slice v off' k := by
  apply bytes_ext
  intro i hi
  rw [byteAt_slice, byteAt_slice, if_pos hi, if_pos hi, byteAt_setSlice _ _ _ _ (by omega), if_neg (by omega)]

@[simp] theorem toList_take_length {n : Nat} (x : Vector Byte n) (k : Nat) :
    (x.toList.take k).length = min k n := by simp

/-! ## Byte orders -/

@[simp] theorem le32_le32Byte (w : Word) :
    le32 (le32Byte w 0) (le32Byte w 1) (le32Byte w 2) (le32Byte w 3) = w := by
  unfold le32 le32Byte
  ext i hi
  simp only [BitVec.getElem_append, BitVec.getElem_extractLsb']
  split_ifs <;> (rw [← BitVec.getLsbD_eq_getElem hi]; congr 1; omega)

theorem le32Byte_le32 (b0 b1 b2 b3 : Byte) :
    le32Byte (le32 b0 b1 b2 b3) 0 = b0 ∧ le32Byte (le32 b0 b1 b2 b3) 1 = b1 ∧
    le32Byte (le32 b0 b1 b2 b3) 2 = b2 ∧ le32Byte (le32 b0 b1 b2 b3) 3 = b3 := by
  unfold le32 le32Byte
  refine ⟨?_, ?_, ?_, ?_⟩ <;>
  · ext i hi
    simp only [BitVec.getElem_extractLsb', BitVec.getLsbD_append]
    split_ifs <;> first | omega | (rw [← BitVec.getLsbD_eq_getElem hi]; congr 1; omega)

/-! ## The counter -/

theorem byteAt_withCnt (c : Block) (n : Word) (i : Nat) :
    byteAt (withCnt c n) i = if i < 4 then byteAt c i else if i < 8 then le32Byte n (i - 4) else 0 := by
  unfold withCnt
  by_cases h : i < 4
  · have h8 : i < 8 := by omega
    simp [h, h8]
  · by_cases h8 : i < 8 <;> simp [h, h8]

@[simp] theorem pktCnt_withCnt (c : Block) (n : Word) : pktCnt (withCnt c n) = n := by
  simp [pktCnt, byteAt_withCnt]

@[simp] theorem withCnt_withCnt (c : Block) (m n : Word) : withCnt (withCnt c m) n = withCnt c n := by
  apply bytes_ext
  intro i _
  simp only [byteAt_withCnt]
  split_ifs <;> rfl

@[simp] theorem withCnt_pktCnt (c : Block) : withCnt c (pktCnt c) = c := by
  apply bytes_ext
  intro i hi
  have := le32Byte_le32 (byteAt c 4) (byteAt c 5) (byteAt c 6) (byteAt c 7)
  rw [byteAt_withCnt]
  unfold pktCnt
  by_cases h : i < 4
  · simp [h]
  · have h' : i = 4 ∨ i = 5 ∨ i = 6 ∨ i = 7 := by omega
    rcases h' with rfl | rfl | rfl | rfl <;> simp [this]

@[simp] theorem pktCnt_addCnt (c : Block) (k : Word) : pktCnt (addCnt c k) = pktCnt c + k := by simp [addCnt]

@[simp] theorem addCnt_addCnt (c : Block) (j k : Word) : addCnt (addCnt c j) k = addCnt c (j + k) := by
  simp [addCnt, BitVec.add_assoc]

@[simp] theorem addCnt_zero (c : Block) : addCnt c 0#32 = c := by simp [addCnt]

theorem withCnt_addCnt (c : Block) (k n : Word) : withCnt (addCnt c k) n = withCnt c n := by simp [addCnt]

end Sys2Proof.Machine
end

