-- ==== Sys2Proof/Laws/Cipher.lean ====
section
/-! SUPPORT. What the cipher of a configuration is (spec 40_xtea.md R81, R82), said once for each of its two forms. -/

namespace Sys2Proof.Machine

@[simp] theorem blockEncrypt_xtea {c : Config} (h : c.cipher = .xtea) (k : Key) (x : Block) :
    blockEncrypt c k x = xteaEncrypt c k x := by simp [blockEncrypt, h]

@[simp] theorem blockEncrypt_values {c : Config} {rows : List CipherRow} (h : c.cipher = .values rows) (k : Key)
    (x : Block) : blockEncrypt c k x = cipherValue k x rows := by simp [blockEncrypt, h]

/-- The rows of a function's values give the function back, on every pair they list. -/
theorem cipherValue_of_mem (f : Key → Block → Block) (pairs : List (Key × Block)) (k : Key) (x : Block)
    (h : (k, x) ∈ pairs) : cipherValue k x (pairs.map fun p => ⟨p.1, p.2, f p.1 p.2⟩) = f k x := by
  induction pairs with
  | nil => simp at h
  | cons p pairs ih =>
    rw [List.map_cons, cipherValue]
    split
    · next hp => simp only at hp; rw [hp.1, hp.2]
    · next hp =>
      apply ih
      rcases List.mem_cons.mp h with rfl | h
      · simp at hp
      · exact h

/-- One more turn of the loop of R81 is one iteration after the turns before. -/
theorem xteaLoop_succ (k : Nat → Word) (n : Nat) (r : XteaRegs) :
    xteaLoop k (n + 1) r = xteaCycle k (xteaLoop k n r) := by
  induction n generalizing r with
  | zero => rfl
  | succ n ih => rw [xteaLoop, ih, xteaLoop]

end Sys2Proof.Machine
end

