-- ==== Sys2Proof/Laws/Memory.lean ====
section
/-! SUPPORT. The laws of the buffers: a read after a write, the bytes of a range, the canonical form, and the index
space. -/

namespace Sys2Proof.Machine

/-! ## One byte -/

theorem read_erase (m : Memory) (a x : Nat) :
    Memory.read (Memory.erase m a) x = if x = a then 0 else Memory.read m x := by
  induction m with
  | nil => simp [Memory.erase, Memory.read]
  | cons c m ih =>
    obtain ⟨b, w⟩ := c
    unfold Memory.erase at ih ⊢
    by_cases hb : b = a
    · subst hb
      rw [List.filter_cons_of_neg (by simp), ih]
      by_cases hx : x = b
      · simp [hx]
      · have : b ≠ x := fun h => hx h.symm
        simp [hx, Memory.read, this]
    · rw [List.filter_cons_of_pos (by simpa using hb)]
      by_cases hx : b = x
      · subst hx
        simp [Memory.read, hb]
      · simp [Memory.read, hx, ih]

theorem read_insert_erase (m : Memory) (a x : Nat) (v : Byte) :
    Memory.read (Memory.insert (Memory.erase m a) a v) x = if x = a then v else Memory.read (Memory.erase m a) x := by
  have hno : ∀ c ∈ Memory.erase m a, c.1 ≠ a := by
    intro c hc
    simpa using (List.mem_filter.mp hc).2
  generalize Memory.erase m a = l at hno
  induction l with
  | nil =>
    by_cases hx : x = a
    · simp [Memory.insert, Memory.read, hx]
    · have : a ≠ x := fun h => hx h.symm
      simp [Memory.insert, Memory.read, hx, this]
  | cons c l ih =>
    obtain ⟨b, w⟩ := c
    have hb : b ≠ a := hno (b, w) (by simp)
    have ih := ih fun c hc => hno c (by simp [hc])
    unfold Memory.insert
    split
    · by_cases hx : x = a
      · simp [Memory.read, hx]
      · have : a ≠ x := fun h => hx h.symm
        simp [Memory.read, hx, this]
    · by_cases hx : b = x
      · subst hx
        simp [Memory.read, hb]
      · simp [Memory.read, hx, ih]

/-- A read after a write: the byte written at its address, every other byte as before. -/
@[simp] theorem read_write (m : Memory) (a x : Nat) (v : Byte) :
    Memory.read (Memory.write m a v) x = if x = a then v else Memory.read m x := by
  unfold Memory.write
  split
  · next h => rw [read_erase, h]
  · rw [read_insert_erase, read_erase]
    split <;> rfl

/-! ## Ranges -/

@[simp] theorem length_readBytes (m : Memory) (a n : Nat) : (Memory.readBytes m a n).length = n := by
  simp [Memory.readBytes]

theorem getD_readBytes (m : Memory) (a n i : Nat) :
    (Memory.readBytes m a n).getD i 0 = if i < n then Memory.read m (a + i) else 0 := by
  by_cases h : i < n <;> simp [Memory.readBytes, List.getD, h]

/-- A range reads the same in two buffers that agree on it. -/
theorem readBytes_congr {m m' : Memory} {a a' n : Nat}
    (h : ∀ i, i < n → Memory.read m (a + i) = Memory.read m' (a' + i)) :
    Memory.readBytes m a n = Memory.readBytes m' a' n := by
  unfold Memory.readBytes
  apply List.map_congr_left
  intro i hi
  exact h i (List.mem_range.mp hi)

theorem readBytes_eq_iff (m : Memory) (a n : Nat) (l : List Byte) (hl : l.length = n) :
    Memory.readBytes m a n = l ↔ ∀ i, i < n → Memory.read m (a + i) = l.getD i 0 := by
  constructor
  · rintro rfl i hi
    rw [getD_readBytes, if_pos hi]
  · intro h
    apply List.ext_getElem (by simp [hl])
    intro i h1 h2
    have hi : i < n := by simpa using h1
    have := h i hi
    simp only [Memory.readBytes, List.getElem_map, List.getElem_range, this]
    simp [List.getD, h2]

/-- What a buffer holds after a range was written: the bytes written in the range, every other byte as before. -/
theorem read_writeBytes (m : Memory) (a x : Nat) (bs : List Byte) :
    Memory.read (Memory.writeBytes m a bs) x =
      if a ≤ x ∧ x < a + bs.length then bs.getD (x - a) 0 else Memory.read m x := by
  induction bs generalizing m a with
  | nil => rw [if_neg (by simp)]; rfl
  | cons b bs ih =>
    rw [Memory.writeBytes, ih, read_write, List.length_cons]
    by_cases h1 : a + 1 ≤ x ∧ x < a + 1 + bs.length
    · rw [if_pos h1, if_pos (by omega), show x - a = (x - (a + 1)) + 1 by omega, List.getD_cons_succ]
    · rw [if_neg h1]
      by_cases h2 : x = a
      · subst h2
        simp
      · rw [if_neg h2, if_neg (by omega)]

/-! ## The canonical form -/

theorem wfFrom_mono {m : Memory} {lo lo' : Nat} (h : Memory.wfFrom lo m = true) (hl : lo' ≤ lo) :
    Memory.wfFrom lo' m = true := by
  cases m with
  | nil => rfl
  | cons c m =>
    obtain ⟨b, w⟩ := c
    simp only [Memory.wfFrom, Bool.and_eq_true, decide_eq_true_eq] at h ⊢
    exact ⟨⟨by omega, h.1.2⟩, h.2⟩

theorem wfFrom_erase {m : Memory} {lo a : Nat} (h : Memory.wfFrom lo m = true) :
    Memory.wfFrom lo (Memory.erase m a) = true := by
  induction m generalizing lo with
  | nil => rfl
  | cons c m ih =>
    obtain ⟨b, w⟩ := c
    simp only [Memory.wfFrom, Bool.and_eq_true, decide_eq_true_eq] at h
    unfold Memory.erase at ih ⊢
    by_cases hb : b = a
    · rw [List.filter_cons_of_neg (by simp [hb])]
      exact ih (wfFrom_mono h.2 (by omega))
    · rw [List.filter_cons_of_pos (by simpa using hb)]
      simp only [Memory.wfFrom, Bool.and_eq_true, decide_eq_true_eq]
      exact ⟨h.1, ih h.2⟩

theorem wfFrom_insert {m : Memory} {lo a : Nat} {v : Byte} (h : Memory.wfFrom lo m = true)
    (hno : ∀ c ∈ m, c.1 ≠ a) (hv : v ≠ 0) (hl : lo ≤ a) : Memory.wfFrom lo (Memory.insert m a v) = true := by
  induction m generalizing lo with
  | nil => simpa [Memory.insert, Memory.wfFrom, hl] using hv
  | cons c m ih =>
    obtain ⟨b, w⟩ := c
    have hb : b ≠ a := hno (b, w) (by simp)
    simp only [Memory.wfFrom, Bool.and_eq_true, decide_eq_true_eq] at h
    unfold Memory.insert
    split
    · next hab =>
      simp only [Memory.wfFrom, Bool.and_eq_true, decide_eq_true_eq]
      exact ⟨⟨hl, by simpa using hv⟩, ⟨by omega, h.1.2⟩, h.2⟩
    · next hab =>
      simp only [Memory.wfFrom, Bool.and_eq_true, decide_eq_true_eq]
      exact ⟨h.1, ih h.2 (fun c hc => hno c (by simp [hc])) (by omega)⟩

/-- A write keeps the canonical form. -/
theorem wf_write {m : Memory} (a : Nat) (v : Byte) (h : Memory.wf m = true) :
    Memory.wf (Memory.write m a v) = true := by
  unfold Memory.write Memory.wf at *
  split
  · exact wfFrom_erase h
  · next hv =>
    refine wfFrom_insert (wfFrom_erase h) ?_ hv (Nat.zero_le _)
    intro c hc
    simpa using (List.mem_filter.mp hc).2

/-- A write of a range keeps the canonical form. -/
theorem wf_writeBytes {m : Memory} (a : Nat) (bs : List Byte) (h : Memory.wf m = true) :
    Memory.wf (Memory.writeBytes m a bs) = true := by
  induction bs generalizing m a with
  | nil => exact h
  | cons b bs ih => exact ih _ (wf_write a b h)

theorem read_of_wfFrom {m : Memory} {lo x : Nat} (h : Memory.wfFrom lo m = true) (hx : x < lo) :
    Memory.read m x = 0 := by
  induction m generalizing lo with
  | nil => rfl
  | cons c m ih =>
    obtain ⟨b, w⟩ := c
    simp only [Memory.wfFrom, Bool.and_eq_true, decide_eq_true_eq] at h
    rw [Memory.read, if_neg (by omega)]
    exact ih h.2 (by omega)

theorem eq_of_wfFrom {m m' : Memory} {lo : Nat} (h : Memory.wfFrom lo m = true) (h' : Memory.wfFrom lo m' = true)
    (hr : ∀ x, Memory.read m x = Memory.read m' x) : m = m' := by
  induction m generalizing m' lo with
  | nil =>
    cases m' with
    | nil => rfl
    | cons c m' =>
      obtain ⟨b, w⟩ := c
      simp only [Memory.wfFrom, Bool.and_eq_true, decide_eq_true_eq] at h'
      have := hr b
      simp [Memory.read] at this
      exact absurd this.symm (by simpa using h'.1.2)
  | cons c m ih =>
    obtain ⟨b, w⟩ := c
    simp only [Memory.wfFrom, Bool.and_eq_true, decide_eq_true_eq] at h
    have hw : w ≠ 0 := by simpa using h.1.2
    cases m' with
    | nil =>
      have := hr b
      simp [Memory.read] at this
      exact absurd this hw
    | cons c' m' =>
      obtain ⟨b', w'⟩ := c'
      simp only [Memory.wfFrom, Bool.and_eq_true, decide_eq_true_eq] at h'
      have hw' : w' ≠ 0 := by simpa using h'.1.2
      have hbb : b = b' := by
        rcases Nat.lt_trichotomy b b' with hlt | heq | hgt
        · have := hr b
          rw [Memory.read, if_pos rfl, Memory.read, if_neg (by omega), read_of_wfFrom h'.2 (by omega)] at this
          exact absurd this hw
        · exact heq
        · have := hr b'
          rw [Memory.read, if_neg (by omega), read_of_wfFrom h.2 (by omega), Memory.read, if_pos rfl] at this
          exact absurd this.symm hw'
      subst hbb
      have hww : w = w' := by simpa [Memory.read] using hr b
      subst hww
      congr 1
      refine ih h.2 h'.2 fun x => ?_
      by_cases hx : b = x
      · subst hx
        rw [read_of_wfFrom h.2 (by omega), read_of_wfFrom h'.2 (by omega)]
      · simpa [Memory.read, hx] using hr x

/-- Two buffers in canonical form that read the same are equal. -/
theorem memory_ext {m m' : Memory} (h : Memory.wf m = true) (h' : Memory.wf m' = true)
    (hr : ∀ x, Memory.read m x = Memory.read m' x) : m = m' := eq_of_wfFrom h h' hr

/-! ## The index space -/

theorem within_iff (m : Memory) (size : Nat) : Memory.within m size = true ↔ ∀ c ∈ m, c.1 < size := by
  simp [Memory.within]

theorem mem_insert {m : Memory} {a : Nat} {v : Byte} {c : Host.Cell} (h : c ∈ Memory.insert m a v) :
    c = (a, v) ∨ c ∈ m := by
  induction m with
  | nil => simpa [Memory.insert] using h
  | cons d m ih =>
    obtain ⟨b, w⟩ := d
    unfold Memory.insert at h
    split at h
    · simpa using h
    · rcases List.mem_cons.mp h with rfl | h
      · simp
      · rcases ih h with h | h <;> simp [h]

/-- A write inside the space lists no address outside it. -/
theorem within_write {m : Memory} {size a : Nat} (v : Byte) (h : Memory.within m size = true) (ha : a < size) :
    Memory.within (Memory.write m a v) size = true := by
  rw [within_iff] at h ⊢
  have he : ∀ c ∈ Memory.erase m a, c.1 < size := fun c hc => h c (List.mem_filter.mp hc).1
  unfold Memory.write
  split
  · exact he
  · intro c hc
    rcases mem_insert hc with rfl | hc
    · exact ha
    · exact he c hc

/-- A write of a range inside the space lists no address outside it. -/
theorem within_writeBytes {m : Memory} {size a : Nat} {bs : List Byte} (h : Memory.within m size = true)
    (ha : a + bs.length ≤ size) : Memory.within (Memory.writeBytes m a bs) size = true := by
  induction bs generalizing m a with
  | nil => exact h
  | cons b bs ih =>
    rw [List.length_cons] at ha
    exact ih (within_write b h (by omega)) (by omega)

/-- Outside the space every byte reads as 0x00. -/
theorem read_of_within {m : Memory} {size x : Nat} (h : Memory.within m size = true) (hx : size ≤ x) :
    Memory.read m x = 0 := by
  rw [within_iff] at h
  induction m with
  | nil => rfl
  | cons c m ih =>
    obtain ⟨b, w⟩ := c
    have := h (b, w) (by simp)
    simp only at this
    rw [Memory.read, if_neg (by omega)]
    exact ih fun c hc => h c (by simp [hc])

end Sys2Proof.Machine
end

