-- ==== Sys2Proof/Laws/State.lean ====
section
/-! SUPPORT. One lemma per field per named update of State, so that no later proof unfolds an update. -/

namespace Sys2Proof.Machine

/-! ## `State.respond` -/

@[simp] theorem respond_config (s : State) (code data : Byte) : (s.respond code data).config = s.config := rfl

@[simp] theorem respond_keys (s : State) (code data : Byte) : (s.respond code data).keys = s.keys := rfl

@[simp] theorem respond_mkmask (s : State) (code data : Byte) : (s.respond code data).mkmask = s.mkmask := rfl

@[simp] theorem respond_krdy (s : State) (code data : Byte) : (s.respond code data).krdy = s.krdy := rfl

@[simp] theorem respond_ctr (s : State) (code data : Byte) : (s.respond code data).ctr = s.ctr := rfl

@[simp] theorem respond_blk (s : State) (code data : Byte) : (s.respond code data).blk = s.blk := rfl

@[simp] theorem respond_fb (s : State) (code data : Byte) : (s.respond code data).fb = s.fb := rfl

@[simp] theorem respond_pb (s : State) (code data : Byte) : (s.respond code data).pb = s.pb := rfl

@[simp] theorem respond_plen (s : State) (code data : Byte) : (s.respond code data).plen = s.plen := rfl

@[simp] theorem respond_role (s : State) (code data : Byte) : (s.respond code data).role = s.role := rfl

@[simp] theorem respond_lm (s : State) (code data : Byte) : (s.respond code data).lm = s.lm := rfl

@[simp] theorem respond_rxpos (s : State) (code data : Byte) : (s.respond code data).rxpos = s.rxpos := rfl

@[simp] theorem respond_rxen (s : State) (code data : Byte) : (s.respond code data).rxen = s.rxen := rfl

@[simp] theorem respond_rxfrz (s : State) (code data : Byte) : (s.respond code data).rxfrz = s.rxfrz := rfl

@[simp] theorem respond_rxrej (s : State) (code data : Byte) : (s.respond code data).rxrej = s.rxrej := rfl

@[simp] theorem respond_rxres (s : State) (code data : Byte) : (s.respond code data).rxres = s.rxres := rfl

@[simp] theorem respond_txlen (s : State) (code data : Byte) : (s.respond code data).txlen = s.txlen := rfl

@[simp] theorem respond_errflags (s : State) (code data : Byte) : (s.respond code data).errflags = s.errflags := rfl

@[simp] theorem respond_inbox (s : State) (code data : Byte) : (s.respond code data).inbox = s.inbox := rfl

@[simp] theorem respond_responses (s : State) (code data : Byte) :
    (s.respond code data).responses = s.responses ++ [responseWord code data] := rfl

@[simp] theorem respond_txframes (s : State) (code data : Byte) : (s.respond code data).txframes = s.txframes := rfl

/-! ## `State.flagError` -/

@[simp] theorem flagError_config (s : State) (e : CommandError) : (s.flagError e).config = s.config := rfl

@[simp] theorem flagError_keys (s : State) (e : CommandError) : (s.flagError e).keys = s.keys := rfl

@[simp] theorem flagError_mkmask (s : State) (e : CommandError) : (s.flagError e).mkmask = s.mkmask := rfl

@[simp] theorem flagError_krdy (s : State) (e : CommandError) : (s.flagError e).krdy = s.krdy := rfl

@[simp] theorem flagError_ctr (s : State) (e : CommandError) : (s.flagError e).ctr = s.ctr := rfl

@[simp] theorem flagError_blk (s : State) (e : CommandError) : (s.flagError e).blk = s.blk := rfl

@[simp] theorem flagError_fb (s : State) (e : CommandError) : (s.flagError e).fb = s.fb := rfl

@[simp] theorem flagError_pb (s : State) (e : CommandError) : (s.flagError e).pb = s.pb := rfl

@[simp] theorem flagError_plen (s : State) (e : CommandError) : (s.flagError e).plen = s.plen := rfl

@[simp] theorem flagError_role (s : State) (e : CommandError) : (s.flagError e).role = s.role := rfl

@[simp] theorem flagError_lm (s : State) (e : CommandError) : (s.flagError e).lm = s.lm := rfl

@[simp] theorem flagError_rxpos (s : State) (e : CommandError) : (s.flagError e).rxpos = s.rxpos := rfl

@[simp] theorem flagError_rxen (s : State) (e : CommandError) : (s.flagError e).rxen = s.rxen := rfl

@[simp] theorem flagError_rxfrz (s : State) (e : CommandError) : (s.flagError e).rxfrz = s.rxfrz := rfl

@[simp] theorem flagError_rxrej (s : State) (e : CommandError) : (s.flagError e).rxrej = s.rxrej := rfl

@[simp] theorem flagError_rxres (s : State) (e : CommandError) : (s.flagError e).rxres = s.rxres := rfl

@[simp] theorem flagError_txlen (s : State) (e : CommandError) : (s.flagError e).txlen = s.txlen := rfl

@[simp] theorem flagError_errflags (s : State) (e : CommandError) :
    (s.flagError e).errflags = s.errflags ||| e.flag := rfl

@[simp] theorem flagError_inbox (s : State) (e : CommandError) : (s.flagError e).inbox = s.inbox := rfl

@[simp] theorem flagError_responses (s : State) (e : CommandError) : (s.flagError e).responses = s.responses := rfl

@[simp] theorem flagError_txframes (s : State) (e : CommandError) : (s.flagError e).txframes = s.txframes := rfl

/-! ## `State.emitFrame` -/

@[simp] theorem emitFrame_config (s : State) (frame : List Byte) : (s.emitFrame frame).config = s.config := rfl

@[simp] theorem emitFrame_keys (s : State) (frame : List Byte) : (s.emitFrame frame).keys = s.keys := rfl

@[simp] theorem emitFrame_mkmask (s : State) (frame : List Byte) : (s.emitFrame frame).mkmask = s.mkmask := rfl

@[simp] theorem emitFrame_krdy (s : State) (frame : List Byte) : (s.emitFrame frame).krdy = s.krdy := rfl

@[simp] theorem emitFrame_ctr (s : State) (frame : List Byte) : (s.emitFrame frame).ctr = s.ctr := rfl

@[simp] theorem emitFrame_blk (s : State) (frame : List Byte) : (s.emitFrame frame).blk = s.blk := rfl

@[simp] theorem emitFrame_fb (s : State) (frame : List Byte) : (s.emitFrame frame).fb = s.fb := rfl

@[simp] theorem emitFrame_pb (s : State) (frame : List Byte) : (s.emitFrame frame).pb = s.pb := rfl

@[simp] theorem emitFrame_plen (s : State) (frame : List Byte) : (s.emitFrame frame).plen = s.plen := rfl

@[simp] theorem emitFrame_role (s : State) (frame : List Byte) : (s.emitFrame frame).role = s.role := rfl

@[simp] theorem emitFrame_lm (s : State) (frame : List Byte) : (s.emitFrame frame).lm = s.lm := rfl

@[simp] theorem emitFrame_rxpos (s : State) (frame : List Byte) : (s.emitFrame frame).rxpos = s.rxpos := rfl

@[simp] theorem emitFrame_rxen (s : State) (frame : List Byte) : (s.emitFrame frame).rxen = s.rxen := rfl

@[simp] theorem emitFrame_rxfrz (s : State) (frame : List Byte) : (s.emitFrame frame).rxfrz = s.rxfrz := rfl

@[simp] theorem emitFrame_rxrej (s : State) (frame : List Byte) : (s.emitFrame frame).rxrej = s.rxrej := rfl

@[simp] theorem emitFrame_rxres (s : State) (frame : List Byte) : (s.emitFrame frame).rxres = s.rxres := rfl

@[simp] theorem emitFrame_txlen (s : State) (frame : List Byte) : (s.emitFrame frame).txlen = s.txlen := rfl

@[simp] theorem emitFrame_errflags (s : State) (frame : List Byte) : (s.emitFrame frame).errflags = s.errflags := rfl

@[simp] theorem emitFrame_inbox (s : State) (frame : List Byte) : (s.emitFrame frame).inbox = s.inbox := rfl

@[simp] theorem emitFrame_responses (s : State) (frame : List Byte) : (s.emitFrame frame).responses = s.responses := rfl

@[simp] theorem emitFrame_txframes (s : State) (frame : List Byte) :
    (s.emitFrame frame).txframes = s.txframes ++ [frame] := rfl

/-! ## `State.cleared` -/

@[simp] theorem cleared_config (s : State) : s.cleared.config = s.config := rfl

@[simp] theorem cleared_keys (s : State) : s.cleared.keys = .replicate 40 0 := rfl

@[simp] theorem cleared_mkmask (s : State) : s.cleared.mkmask = 0 := rfl

@[simp] theorem cleared_krdy (s : State) : s.cleared.krdy = false := rfl

@[simp] theorem cleared_ctr (s : State) : s.cleared.ctr = .replicate 8 0 := rfl

@[simp] theorem cleared_blk (s : State) : s.cleared.blk = .replicate 8 0 := rfl

@[simp] theorem cleared_fb (s : State) : s.cleared.fb = [] := rfl

@[simp] theorem cleared_pb (s : State) : s.cleared.pb = [] := rfl

@[simp] theorem cleared_plen (s : State) : s.cleared.plen = 0 := rfl

@[simp] theorem cleared_role (s : State) : s.cleared.role = .slave := rfl

@[simp] theorem cleared_lm (s : State) : s.cleared.lm = .stopped := rfl

@[simp] theorem cleared_rxpos (s : State) : s.cleared.rxpos = 0 := rfl

@[simp] theorem cleared_rxen (s : State) : s.cleared.rxen = false := rfl

@[simp] theorem cleared_rxfrz (s : State) : s.cleared.rxfrz = false := rfl

@[simp] theorem cleared_rxrej (s : State) : s.cleared.rxrej = false := rfl

@[simp] theorem cleared_rxres (s : State) : s.cleared.rxres = .none := rfl

@[simp] theorem cleared_txlen (s : State) : s.cleared.txlen = 0 := rfl

@[simp] theorem cleared_errflags (s : State) : s.cleared.errflags = 0 := rfl

@[simp] theorem cleared_inbox (s : State) : s.cleared.inbox = s.inbox := rfl

@[simp] theorem cleared_responses (s : State) : s.cleared.responses = s.responses := rfl

@[simp] theorem cleared_txframes (s : State) : s.cleared.txframes = s.txframes := rfl

/-! ## How a command ends -/

/-- A success is a next state: the effects, and the response with code 0x00. -/
theorem succeed_eq (s : State) (d : Byte) :
    succeed s d = .next { s with responses := s.responses ++ [responseWord 0 d] } := rfl

/-- A failure is a next state: one sticky bit, and the response with the code. -/
theorem fail_eq (e : CommandError) (s : State) :
    fail e s = .next { s with
      errflags := s.errflags ||| e.flag, responses := s.responses ++ [responseWord e.code 0] } := rfl

theorem responseWord_code_data (c d : Byte) :
    (responseWord c d).extractLsb' 8 8 = c ∧ (responseWord c d).extractLsb' 0 8 = d := by
  unfold responseWord
  constructor <;>
  · ext i hi
    simp only [BitVec.getElem_extractLsb', BitVec.getLsbD_append]
    split_ifs <;> first | omega | (rw [← BitVec.getLsbD_eq_getElem hi]; congr 1; omega)

/-- The bit of `ERRFLAGS` an error sets is bit `code − 1`, and its code is 1 to 6. -/
theorem flag_eq_bit (e : CommandError) :
    e.flag = BitVec.ofNat 8 (2 ^ (e.code.toNat - 1)) ∧ 1 ≤ e.code.toNat ∧ e.code.toNat ≤ 6 := by
  cases e <;> decide

end Sys2Proof.Machine
end

