-- ==== Sys2Proof/Laws/Cmac.lean ====
section
/-! SUPPORT. The length of a tag, what a tag depends on, and what the checks of the MAC commands let through (spec
42_cmac.md). -/

namespace Sys2Proof.Machine

@[simp] theorem length_macTag (s : State) (msg : List Byte) (pfx : Option Block) : (macTag s msg pfx).length = 4 := by
  simp [macTag]

theorem getD_macTag (s : State) (msg : List Byte) (pfx : Option Block) (k : Nat) (h : k < 4) :
    (macTag s msg pfx).getD k 0 =
      byteAt (cmac (encryptUnder s .mac) (subkey1 s.keys) (subkey2 s.keys) msg pfx) k := by
  have h8 : k < 8 := by omega
  simp [macTag, byteAt, List.getD, h, h8]

/-- A tag depends on the keys and the parameters alone, beside its message and prefix. -/
theorem macTag_congr {s t : State} (hk : s.keys = t.keys) (hc : s.config = t.config) (msg : List Byte)
    (pfx : Option Block) : macTag s msg pfx = macTag t msg pfx := by
  have : encryptUnder s .mac = encryptUnder t .mac := by
    funext x
    simp [encryptUnder, hk, hc]
  rw [macTag, macTag, this, hk]

/-- The four checks of a MAC command (42_cmac.md section 2): the first that fails is reported, else the command runs. -/
theorem checkMac_cases (off len : Byte) (s : State) (o : Host.Outcome State Fault Refusal) :
    (s.hostFb = false ∧ checkMac off len s o = fail .state s) ∨
    (s.hostFb = true ∧ s.krdy = false ∧ checkMac off len s o = fail .nokey s) ∨
    (s.hostFb = true ∧ s.krdy = true ∧ s.config.frameMax < off.toNat + len.toNat + 4 ∧
      checkMac off len s o = fail .range s) ∨
    (s.hostFb = true ∧ s.krdy = true ∧ off.toNat + len.toNat + 4 ≤ s.config.frameMax ∧
      checkMac off len s o = o) := by
  unfold checkMac macRangeInFb
  by_cases h1 : s.hostFb = true <;> by_cases h2 : s.krdy = true <;>
    by_cases h3 : off.toNat + len.toNat + 4 ≤ s.config.frameMax <;> simp_all

end Sys2Proof.Machine
end

