-- ==== Sys2Proof/Laws/Ctr.lean ====
section
/-! SUPPORT. What `ctr_crypt` does (spec 43_ctr.md R116), said once: the counter it ends with and every byte of the
buffer, for any cipher. -/

namespace Sys2Proof.Machine

theorem ceil8_succ_block {n : Nat} (h : 0 < n) : ceil8 n = ceil8 (n - 8) + 1 := by unfold ceil8; omega

theorem ceil8_pos {n : Nat} (h : 0 < n) : 0 < ceil8 n := by unfold ceil8; omega

@[simp] theorem length_xorStream (bs : List Byte) (ks : Block) (h : bs.length ≤ 8) :
    (xorStream bs ks).length = bs.length := by simp [xorStream, h]

theorem getD_xorStream (bs : List Byte) (ks : Block) (i : Nat) (hi : i < bs.length) (h8 : i < 8) :
    (xorStream bs ks).getD i 0 = bs.getD i 0 ^^^ byteAt ks i := by
  have hk : i < ks.toList.length := by simpa using h8
  simp [xorStream, List.getD, byteAt, hi, h8]

/-- One turn of the loop: the counter is one higher, and the bytes `off .. off+m−1` are XORed with the leading bytes of
the keystream block of the counter as it stood. -/
theorem cryptBlock_read (enc : Block → Block) (off m x : Nat) (r : CryptRegs) (hm : m ≤ 8) :
    Memory.read (cryptBlock enc off m r).fb x =
      if off ≤ x ∧ x < off + m then Memory.read r.fb x ^^^ byteAt (enc r.ctr) (x - off) else Memory.read r.fb x := by
  unfold cryptBlock
  rw [read_writeBytes, length_xorStream _ _ (by simpa using hm), length_readBytes]
  by_cases h : off ≤ x ∧ x < off + m
  · rw [if_pos h, if_pos h, getD_xorStream _ _ _ (by simp; omega) (by omega), getD_readBytes, if_pos (by omega),
      show off + (x - off) = x by omega]
  · rw [if_neg h, if_neg h]

@[simp] theorem cryptBlock_ctr (enc : Block → Block) (off m : Nat) (r : CryptRegs) :
    (cryptBlock enc off m r).ctr = addCnt r.ctr 1#32 := rfl

theorem cryptLoop_ctr (enc : Block → Block) (b off left : Nat) (r : CryptRegs) :
    (cryptLoop enc b off left r).ctr = addCnt r.ctr (BitVec.ofNat 32 b) := by
  induction b generalizing off left r with
  | zero => simp [cryptLoop]
  | succ b ih =>
    rw [cryptLoop, ih, cryptBlock_ctr, addCnt_addCnt]
    congr 1
    rw [Nat.add_comm b 1, BitVec.ofNat_add]

theorem cryptLoop_read (enc : Block → Block) (b off left x : Nat) (r : CryptRegs) (hb : left ≤ 8 * b) :
    Memory.read (cryptLoop enc b off left r).fb x =
      if off ≤ x ∧ x < off + left then
        Memory.read r.fb x ^^^ byteAt (enc (addCnt r.ctr (BitVec.ofNat 32 ((x - off) / 8)))) ((x - off) % 8)
      else Memory.read r.fb x := by
  induction b generalizing off left r with
  | zero => rw [if_neg (by omega)]; rfl
  | succ b ih =>
    rw [cryptLoop, ih _ _ _ (by omega), cryptBlock_read _ _ _ _ _ (by omega), cryptBlock_ctr]
    by_cases h1 : off + 8 ≤ x ∧ x < off + 8 + (left - 8)
    · rw [if_pos h1, if_neg (by omega), if_pos (by omega), addCnt_addCnt]
      have hd : (x - off) / 8 = 1 + (x - (off + 8)) / 8 := by omega
      rw [hd, BitVec.ofNat_add, show (x - off) % 8 = (x - (off + 8)) % 8 by omega]
    · rw [if_neg h1]
      by_cases h2 : off ≤ x ∧ x < off + min 8 left
      · rw [if_pos h2, if_pos (by omega), show (x - off) / 8 = 0 by omega, show (x - off) % 8 = x - off by omega]
        simp
      · rw [if_neg h2, if_neg (by omega)]

/-- `ctr_crypt` ends with the count `ceil8 len` higher (R116 a). -/
@[simp] theorem ctrCrypt_ctr (enc : Block → Block) (off len : Nat) (r : CryptRegs) :
    (ctrCrypt enc off len r).ctr = addCnt r.ctr (BitVec.ofNat 32 (ceil8 len)) := cryptLoop_ctr _ _ _ _ _

/-- Every byte after `ctr_crypt` (R116 b, c, g): inside the range XORed with its keystream byte, outside as before. -/
theorem ctrCrypt_read (enc : Block → Block) (off len x : Nat) (r : CryptRegs) :
    Memory.read (ctrCrypt enc off len r).fb x =
      if off ≤ x ∧ x < off + len then
        Memory.read r.fb x ^^^ byteAt (enc (addCnt r.ctr (BitVec.ofNat 32 ((x - off) / 8)))) ((x - off) % 8)
      else Memory.read r.fb x := cryptLoop_read _ _ _ _ _ _ (by unfold ceil8; omega)

theorem cryptLoop_wf (enc : Block → Block) (b off left : Nat) (r : CryptRegs) (h : Memory.wf r.fb = true) :
    Memory.wf (cryptLoop enc b off left r).fb = true := by
  induction b generalizing off left r with
  | zero => exact h
  | succ b ih => exact ih _ _ _ (wf_writeBytes _ _ h)

/-- `ctr_crypt` keeps the buffer's canonical form. -/
theorem ctrCrypt_wf (enc : Block → Block) (off len : Nat) (r : CryptRegs) (h : Memory.wf r.fb = true) :
    Memory.wf (ctrCrypt enc off len r).fb = true := cryptLoop_wf _ _ _ _ _ h

theorem cryptLoop_within (enc : Block → Block) (b off left size : Nat) (r : CryptRegs)
    (h : Memory.within r.fb size = true) (hr : off + left ≤ size) :
    Memory.within (cryptLoop enc b off left r).fb size = true := by
  induction b generalizing off left r with
  | zero => exact h
  | succ b ih =>
    by_cases h8 : 8 ≤ left
    · exact ih _ _ _ (within_writeBytes h (by simp [xorStream]; omega)) (by omega)
    · have hz : left - 8 = 0 := by omega
      have hmin : min 8 left = left := by omega
      rw [cryptLoop, hz, hmin]
      have hw : Memory.within (cryptBlock enc off left r).fb size = true :=
        within_writeBytes h (by simp [xorStream]; omega)
      clear ih
      revert hw
      generalize cryptBlock enc off left r = r'
      intro hw
      clear h hr h8 hz hmin
      induction b generalizing off r' with
      | zero => exact hw
      | succ b ih =>
        refine ih _ _ ?_
        have : cryptBlock enc (off + 8) (min 8 0) r' = { fb := r'.fb, ctr := addCnt r'.ctr 1#32 } := by
          simp [cryptBlock, Memory.readBytes, xorStream, Memory.writeBytes]
        rw [this]
        exact hw

/-- `ctr_crypt` on a range inside the space lists no address outside it. -/
theorem ctrCrypt_within (enc : Block → Block) (off len size : Nat) (r : CryptRegs)
    (h : Memory.within r.fb size = true) (hr : off + len ≤ size) :
    Memory.within (ctrCrypt enc off len r).fb size = true := cryptLoop_within _ _ _ _ _ _ h hr

/-- Two buffers that agree on a range agree on it after `ctr_crypt` from the same counter. -/
theorem ctrCrypt_read_congr (enc : Block → Block) (off off' len i : Nat) (r r' : CryptRegs) (hc : r.ctr = r'.ctr)
    (h : Memory.read r.fb (off + i) = Memory.read r'.fb (off' + i)) (hi : i < len) :
    Memory.read (ctrCrypt enc off len r).fb (off + i) = Memory.read (ctrCrypt enc off' len r').fb (off' + i) := by
  rw [ctrCrypt_read, ctrCrypt_read, if_pos (by omega), if_pos (by omega), h, hc]
  simp

end Sys2Proof.Machine
end

