-- ==== Sys2Proof/Laws/Decode.lean ====
section
/-! SUPPORT. The fields of a command word, and masks on it field by field (spec 30_encoding.md R60, R64). -/

namespace Sys2Proof

@[simp] theorem opField_commandWord (op a b : Byte) : opField (commandWord op a b) = op := by
  unfold opField commandWord
  ext i hi
  simp only [BitVec.getElem_extractLsb', BitVec.getLsbD_append]
  split_ifs <;> first | omega | (rw [← BitVec.getLsbD_eq_getElem hi]; congr 1; omega)

@[simp] theorem aField_commandWord (op a b : Byte) : aField (commandWord op a b) = a := by
  unfold aField commandWord
  ext i hi
  simp only [BitVec.getElem_extractLsb', BitVec.getLsbD_append]
  split_ifs <;> first | omega | (rw [← BitVec.getLsbD_eq_getElem hi]; congr 1; omega)

@[simp] theorem bField_commandWord (op a b : Byte) : bField (commandWord op a b) = b := by
  unfold bField commandWord
  ext i hi
  simp only [BitVec.getElem_extractLsb', BitVec.getLsbD_append]
  split_ifs <;> first | omega | (rw [← BitVec.getLsbD_eq_getElem hi]; congr 1; omega)

/-- A word is its three fields. -/
theorem commandWord_fields (w : CommandWord) : commandWord (opField w) (aField w) (bField w) = w := by
  unfold opField aField bField commandWord
  ext i hi
  simp only [BitVec.getElem_append, BitVec.getElem_extractLsb']
  split_ifs <;> (rw [← BitVec.getLsbD_eq_getElem hi]; congr 1; omega)

theorem commandWord_inj {op a b op' a' b' : Byte} :
    commandWord op a b = commandWord op' a' b' ↔ op = op' ∧ a = a' ∧ b = b' := by
  constructor
  · intro h
    refine ⟨?_, ?_, ?_⟩
    · simpa using congrArg opField h
    · simpa using congrArg aField h
    · simpa using congrArg bField h
  · rintro ⟨rfl, rfl, rfl⟩
    rfl

/-- Decoding a word by its fields. -/
theorem decode_commandWord (op a b : Byte) : decode (commandWord op a b) = decodeFields op a b := by
  simp [decode]

/-- A mask acts on each field alone. -/
theorem and_commandWord (op a b op' a' b' : Byte) :
    commandWord op a b &&& commandWord op' a' b' = commandWord (op &&& op') (a &&& a') (b &&& b') := by
  unfold commandWord
  have h := BitVec.and_append (x₁ := op ++ a) (x₂ := op' ++ a') (y₁ := b) (y₂ := b')
  rw [BitVec.and_append (x₁ := op) (x₂ := op') (y₁ := a) (y₂ := a')] at h
  exact h

end Sys2Proof
end

