-- ==== Sys2Proof/Laws/Framer.lean ====
section
/-! SUPPORT. What the parts of the framer do, each said once (spec 45_framer.md): the bytes a built frame holds, the
outcomes of a received byte, and the outcomes of processing a frozen frame. -/

namespace Sys2Proof.Machine

/-! ## Building -/

/-- The bytes of the buffer once a frame is laid out: preamble, length byte, address, payload, and the rest as
before. -/
theorem read_layFrame (s : State) (lengthByte addr : Byte) (n a : Nat) :
    Memory.read (layFrame s lengthByte addr n) a =
      if a < 6 + n then (preamble ++ lengthByte :: addr :: s.pb.readBytes 0 n).getD a 0 else Memory.read s.fb a := by
  unfold layFrame
  rw [read_writeBytes, read_writeBytes, read_writeBytes, length_readBytes]
  have hl : preamble.length = 4 := rfl
  have he : preamble ++ lengthByte :: addr :: s.pb.readBytes 0 n =
    [0xAA, 0xAA, 0x2D, 0xD4, lengthByte, addr] ++ s.pb.readBytes 0 n := rfl
  rw [hl, he]
  by_cases h1 : 6 ≤ a ∧ a < 6 + n
  · rw [if_pos h1, if_pos (by omega), List.getD_append_right _ _ _ _ (by simp; omega)]
    rfl
  · rw [if_neg h1]
    by_cases h2 : a < 6
    · rw [if_pos (show a < 6 + n by omega), List.getD_append _ _ _ _ (by simpa using h2)]
      have : a = 0 ∨ a = 1 ∨ a = 2 ∨ a = 3 ∨ a = 4 ∨ a = 5 := by omega
      rcases this with rfl | rfl | rfl | rfl | rfl | rfl <;> simp [preamble]
    · rw [if_neg (by simp; omega), if_neg (by omega), if_neg (by omega)]

/-- The bytes of the buffer once a frame is sealed: the tag and the trailer after the payload, and the rest as
before. -/
theorem read_sealFrame (s : State) (fb : Memory) (n a : Nat) (tag : List Byte) (ht : tag.length = 4) :
    Memory.read (sealFrame s fb n tag) a =
      if 6 + n ≤ a ∧ a < 12 + n then (tag ++ [s.config.trailer, s.config.trailer]).getD (a - (6 + n)) 0
      else Memory.read fb a := by
  unfold sealFrame
  rw [read_writeBytes, read_writeBytes, ht]
  simp only [List.length_cons, List.length_nil]
  by_cases h1 : 10 + n ≤ a ∧ a < 10 + n + (0 + 1 + 1)
  · rw [if_pos h1, if_pos (by omega), List.getD_append_right _ _ _ _ (by omega), ht]
    congr 1
    omega
  · rw [if_neg h1]
    by_cases h2 : 6 + n ≤ a ∧ a < 6 + n + 4
    · rw [if_pos h2, if_pos (by omega), List.getD_append _ _ _ _ (by omega)]
    · rw [if_neg h2, if_neg (by omega)]

theorem layFrame_wf (s : State) (l addr : Byte) (n : Nat) (h : Memory.wf s.fb = true) :
    Memory.wf (layFrame s l addr n) = true := wf_writeBytes _ _ (wf_writeBytes _ _ (wf_writeBytes _ _ h))

theorem sealFrame_wf (s : State) (fb : Memory) (n : Nat) (tag : List Byte) (h : Memory.wf fb = true) :
    Memory.wf (sealFrame s fb n tag) = true := wf_writeBytes _ _ (wf_writeBytes _ _ h)

theorem layFrame_within (s : State) (l addr : Byte) (n size : Nat) (h : Memory.within s.fb size = true)
    (hn : 6 + n ≤ size) : Memory.within (layFrame s l addr n) size = true :=
  within_writeBytes (within_writeBytes (within_writeBytes h (by simp [preamble]; omega)) (by simp; omega))
    (by simpa using hn)

theorem sealFrame_within (s : State) (fb : Memory) (n size : Nat) (tag : List Byte)
    (h : Memory.within fb size = true) (ht : tag.length = 4) (hn : 12 + n ≤ size) :
    Memory.within (sealFrame s fb n tag) size = true :=
  within_writeBytes (within_writeBytes h (by omega)) (by simp; omega)

/-- What a build that has its frame answers: a next state. -/
theorem finishBuild_eq (s : State) (fb : Memory) (ctr : Block) (n : Nat) :
    finishBuild s fb ctr n = .next { s with
      fb := fb, ctr := ctr, txlen := BitVec.ofNat 8 (n + 12), plen := 0, rxpos := 0, rxfrz := false
      responses := s.responses ++ [responseWord 0 (BitVec.ofNat 8 (n + 12))] } := rfl

/-- The counter a sync frame gives: its four time bytes, then count 0. -/
theorem byteAt_syncCounter (fb : Memory) (a j : Nat) :
    byteAt (syncCounter fb a) j = if j < 4 then Memory.read fb (a + j) else 0 := by
  rw [syncCounter, byteAt_blockOf, getD_readBytes]
  by_cases h : j < 4
  · rw [if_pos (by omega), if_pos h]
  · simp [h]

@[simp] theorem pktCnt_syncCounter (fb : Memory) (a : Nat) : pktCnt (syncCounter fb a) = 0#32 := by
  unfold pktCnt
  simp only [byteAt_syncCounter]
  simp
  decide

/-! ## Receiving -/

/-- The outcomes of a received byte (R147). -/
theorem receiveByte_cases (b : Byte) (s : State) :
    (s.rxen = false ∧ receiveByte b s = s) ∨
    (s.rxen = true ∧ s.config.frameMax ≤ s.rxpos.toNat ∧ receiveByte b s = { s with rxpos := 0, rxrej := true }) ∨
    (s.rxen = true ∧ s.rxpos.toNat < s.config.frameMax ∧
      let fb := s.fb.write s.rxpos.toNat b
      ((s.config.frameMax ≤ declaredLength fb ∨ declaredLength fb < 6) ∧
        receiveByte b s = { s with fb := fb, rxpos := 0, rxrej := true }) ∨
      (6 ≤ declaredLength fb ∧ declaredLength fb < s.config.frameMax ∧ declaredLength fb ≤ s.rxpos.toNat + 1 ∧
        receiveByte b s = { s with fb := fb, rxpos := s.rxpos + 1, rxen := false, rxfrz := true }) ∨
      (6 ≤ declaredLength fb ∧ declaredLength fb < s.config.frameMax ∧ s.rxpos.toNat + 1 < declaredLength fb ∧
        receiveByte b s = { s with fb := fb, rxpos := s.rxpos + 1 })) := by
  unfold receiveByte
  by_cases h1 : s.rxen = false
  · exact .inl ⟨h1, if_pos h1⟩
  · have h1' : s.rxen = true := by simpa using h1
    rw [if_neg h1]
    by_cases h2 : s.config.frameMax ≤ s.rxpos.toNat
    · exact .inr (.inl ⟨h1', h2, if_pos h2⟩)
    · refine .inr (.inr ⟨h1', by omega, ?_⟩)
      rw [if_neg h2]
      simp only [minLen]
      generalize s.fb.write s.rxpos.toNat b = fb
      by_cases h3 : s.config.frameMax ≤ declaredLength fb ∨ declaredLength fb < 6
      · rw [if_pos h3]
        exact .inl ⟨h3, rfl⟩
      · rw [if_neg h3]
        by_cases h4 : declaredLength fb ≤ s.rxpos.toNat + 1
        · rw [if_pos h4]
          exact .inr (.inl ⟨by omega, by omega, h4, rfl⟩)
        · rw [if_neg h4]
          exact .inr (.inr ⟨by omega, by omega, by omega, rfl⟩)

theorem declaredLength_eq (fb : Memory) : declaredLength fb = (Memory.read fb 0).toNat % 128 := by
  unfold declaredLength
  rw [BitVec.toNat_and]
  exact Nat.and_two_pow_sub_one_eq_mod _ 7

/-! ## Processing -/

/-- A sync frame's tag stands where it should (R149). -/
def SyncVerified (n : Nat) (s : State) : Prop := macTag s (s.fb.readBytes 2 n) none = s.fb.readBytes (2 + n) 4

/-- A data frame's tag stands where it should, under the counter at `c + B` (R150). -/
def DataVerified (n : Nat) (s : State) : Prop :=
  macTag s (s.fb.readBytes 1 (n + 1)) (some (addCnt s.ctr (BitVec.ofNat 32 (ceil8 n)))) = s.fb.readBytes (2 + n) 4

/-- The buffer and the counter after a data frame's payload is decrypted (R150). -/
def dataDecrypted (n : Nat) (s : State) : CryptRegs :=
  ctrCrypt (encryptUnder s .enc) 2 n { fb := s.fb, ctr := s.ctr }

/-- The outcomes of processing a frame, with what decides among them (R148 to R151). -/
theorem processFrame_cases (n : Nat) (s : State) :
    ((s.fb.read 0).getLsbD 7 = true ∧
      ((¬SyncVerified n s ∧ processFrame n s = (s, .syncMacFail)) ∨
       (SyncVerified n s ∧ n < 4 ∧ processFrame n s = (s, .syncShort)) ∨
       (SyncVerified n s ∧ 4 ≤ n ∧
        processFrame n s = ({ s with ctr := syncCounter s.fb 2, lm := .stopped }, .syncOk)))) ∨
    ((s.fb.read 0).getLsbD 7 = false ∧
      let r := dataDecrypted n s
      ((¬DataVerified n s ∧ processFrame n s = (s, .dataMacFail)) ∨
       (DataVerified n s ∧ s.role = .slave ∧ s.fb.read 1 ≠ 0 ∧
        processFrame n s = ({ s with fb := r.fb, ctr := addCnt r.ctr 1 }, .dataAddr)) ∨
       (DataVerified n s ∧ (s.role = .master ∨ s.fb.read 1 = 0) ∧
        processFrame n s = ({ s with fb := r.fb, ctr := addCnt r.ctr 1 }, .dataOk)))) := by
  unfold processFrame
  by_cases hb : (s.fb.read 0).getLsbD 7 = true
  · rw [if_pos hb]
    refine .inl ⟨hb, ?_⟩
    unfold syncBranch
    by_cases hv : SyncVerified n s
    · have hne : ¬(macTag s (s.fb.readBytes 2 n) none ≠ s.fb.readBytes (2 + n) 4) := not_not.mpr hv
      rw [if_neg hne]
      by_cases h4 : n < 4
      · exact .inr (.inl ⟨hv, h4, if_pos h4⟩)
      · exact .inr (.inr ⟨hv, by omega, if_neg h4⟩)
    · exact .inl ⟨hv, if_pos hv⟩
  · rw [if_neg hb]
    refine .inr ⟨by simpa using hb, ?_⟩
    unfold dataBranch
    by_cases hv : DataVerified n s
    · have hne : ¬(macTag s (s.fb.readBytes 1 (n + 1)) (some (addCnt s.ctr (BitVec.ofNat 32 (ceil8 n)))) ≠
          s.fb.readBytes (2 + n) 4) := not_not.mpr hv
      simp only []
      rw [if_neg hne]
      by_cases hr : s.role = .slave ∧ s.fb.read 1 ≠ masterAddr
      · exact .inr (.inl ⟨hv, hr.1, hr.2, if_pos hr⟩)
      · refine .inr (.inr ⟨hv, ?_, if_neg hr⟩)
        by_cases h0 : s.fb.read 1 = 0
        · exact .inr h0
        · refine .inl ?_
          cases hrole : s.role
          · exact absurd ⟨hrole, h0⟩ hr
          · rfl
    · exact .inl ⟨hv, if_pos hv⟩

/-- `RXPROC` on a frame it can process: the outcome of `processFrame`, its result in `RXRES` and in the answer. -/
theorem execRxproc_eq (s t : State) (res : RxResult) (h : s.rxfrz = true) (hk : s.krdy = true)
    (h6 : 6 ≤ s.rxpos.toNat) (hm : s.rxpos.toNat ≤ s.config.frameMax)
    (hp : processFrame (s.rxpos.toNat - 6) { s with rxfrz := false } = (t, res)) :
    execRxproc s = .next { t with
      rxres := res, responses := t.responses ++ [responseWord 0 res.code] } := by
  have hmin : minLen = 6 := rfl
  rw [execRxproc, if_neg (by simp [h]), if_neg (by simp [hk]), if_neg (by omega), hmin, hp]
  rfl

/-- A frame's tag stands at `a` iff its four bytes are those of the chain value (R102). -/
theorem macTag_eq_iff (s : State) (msg : List Byte) (pfx : Option Block) (m : Memory) (a : Nat) :
    macTag s msg pfx = m.readBytes a 4 ↔ ∀ k, k < 4 →
      Memory.read m (a + k) = byteAt (cmac (encryptUnder s .mac) (subkey1 s.keys) (subkey2 s.keys) msg pfx) k := by
  rw [eq_comm, readBytes_eq_iff _ _ _ _ (by simp)]
  constructor <;> intro h k hk <;> rw [h k hk, getD_macTag _ _ _ _ hk]

end Sys2Proof.Machine
end

