-- ==== Sys2Proof/Laws/Exec.lean ====
section
/-! SUPPORT. For each command, everything its next state can be: the state of a failure, or the one state its rule
gives, with the conditions under which the rule runs (spec 30_encoding.md R61, 60_exceptions.md R191). -/

namespace Sys2Proof.Machine

/-- The state after a command on `s` failed with `e` (R191). -/
def State.failed (s : State) (e : CommandError) : State := (s.flagError e).respond e.code 0

theorem failed_eq (s : State) (e : CommandError) :
    s.failed e = { s with
      errflags := s.errflags ||| e.flag, responses := s.responses ++ [responseWord e.code 0] } := rfl

theorem fail_next {e : CommandError} {s t : State} (h : fail e s = .next t) : t = s.failed e := by
  injection h with h
  exact h.symm

theorem succeed_next {d : Byte} {u t : State} (h : succeed u d = .next t) : t = u.respond 0 d := by
  injection h with h
  exact h.symm

theorem hostFb_iff (s : State) : s.hostFb = true ↔ s.rxen = false ∧ s.lm ≠ .transmitting := by
  simp [State.hostFb]

theorem inSpace_iff (idx : Byte) (size : Nat) : inSpace idx size = true ↔ idx.toNat < size := by simp [inSpace]

theorem frameFits_iff (c : Config) (n : Nat) :
    frameFits c n = true ↔ n ≤ payloadMax c ∧ n + 12 ≤ c.frameMax := by simp [frameFits]

theorem execSetrole_next {role : Byte} {s t : State} (h : execSetrole role s = .next t) :
    (∃ e, t = s.failed e) ∨
    (role.toNat ≤ 1 ∧ t = { s with role := if role = 1 then .master else .slave }.respond 0 0) := by
  unfold execSetrole at h
  split at h
  · exact .inl ⟨_, fail_next h⟩
  · exact .inr ⟨by omega, succeed_next h⟩

theorem execRdcsr_next {n : Byte} {s t : State} (h : execRdcsr n s = .next t) :
    (∃ e, t = s.failed e) ∨ (∃ v, s.csr n = some v ∧ t = s.respond 0 v) := by
  unfold execRdcsr at h
  split at h
  · next v hv => exact .inr ⟨v, hv, succeed_next h⟩
  · exact .inl ⟨_, fail_next h⟩

theorem execWrmk_next {idx d : Byte} {s t : State} (h : execWrmk idx d s = .next t) :
    (∃ e, t = s.failed e) ∨
    (idx.toNat < 16 ∧ t = { s with
      keys := setByte s.keys (24 + idx.toNat) d
      mkmask := s.mkmask ||| (1#16 <<< idx.toNat)
      krdy := false }.respond 0 0) := by
  unfold execWrmk at h
  split at h
  · exact .inl ⟨_, fail_next h⟩
  · next hi => exact .inr ⟨by simpa [inSpace] using hi, succeed_next h⟩

theorem execDerive_next {s t : State} (h : execDerive s = .next t) :
    (∃ e, t = s.failed e) ∨
    (s.mkmask = 0xFFFF ∧ t = { s with
      keys := deriveKeys (blockEncrypt s.config) s.config s.keys, mkmask := 0, krdy := true }.respond 0 0) := by
  unfold execDerive at h
  split at h
  · exact .inl ⟨_, fail_next h⟩
  · next hm => exact .inr ⟨not_not.mp hm, succeed_next h⟩

theorem execWrctr_next {idx d : Byte} {s t : State} (h : execWrctr idx d s = .next t) :
    (∃ e, t = s.failed e) ∨
    (idx.toNat < 8 ∧ t = { s with ctr := setByte s.ctr idx.toNat d }.respond 0 0) := by
  unfold execWrctr at h
  split at h
  · exact .inl ⟨_, fail_next h⟩
  · next hi => exact .inr ⟨by simpa [inSpace] using hi, succeed_next h⟩

theorem execRdctr_next {idx : Byte} {s t : State} (h : execRdctr idx s = .next t) :
    (∃ e, t = s.failed e) ∨ (idx.toNat < 8 ∧ t = s.respond 0 (byteAt s.ctr idx.toNat)) := by
  unfold execRdctr at h
  split at h
  · exact .inl ⟨_, fail_next h⟩
  · next hi => exact .inr ⟨by simpa [inSpace] using hi, succeed_next h⟩

theorem execWrblk_next {idx d : Byte} {s t : State} (h : execWrblk idx d s = .next t) :
    (∃ e, t = s.failed e) ∨
    (idx.toNat < 8 ∧ t = { s with blk := setByte s.blk idx.toNat d }.respond 0 0) := by
  unfold execWrblk at h
  split at h
  · exact .inl ⟨_, fail_next h⟩
  · next hi => exact .inr ⟨by simpa [inSpace] using hi, succeed_next h⟩

theorem execRdblk_next {idx : Byte} {s t : State} (h : execRdblk idx s = .next t) :
    (∃ e, t = s.failed e) ∨ (idx.toNat < 8 ∧ t = s.respond 0 (byteAt s.blk idx.toNat)) := by
  unfold execRdblk at h
  split at h
  · exact .inl ⟨_, fail_next h⟩
  · next hi => exact .inr ⟨by simpa [inSpace] using hi, succeed_next h⟩

theorem encryptBlk_next {k : KeySel} {s t : State} (h : encryptBlk k s = .next t) :
    (∃ e, t = s.failed e) ∨
    (keyPresent s k = true ∧ t = { s with blk := encryptUnder s k s.blk }.respond 0 0) := by
  unfold encryptBlk at h
  split at h
  · exact .inl ⟨_, fail_next h⟩
  · next hk => exact .inr ⟨by simpa using hk, succeed_next h⟩

theorem checkMac_next {off len : Byte} {s t : State} {o : Host.Outcome State Fault Refusal}
    (h : checkMac off len s o = .next t) :
    (∃ e, t = s.failed e) ∨
    (s.hostFb = true ∧ s.krdy = true ∧ off.toNat + len.toNat + 4 ≤ s.config.frameMax ∧ o = .next t) := by
  rcases checkMac_cases off len s o with ⟨-, hc⟩ | ⟨-, -, hc⟩ | ⟨-, -, -, hc⟩ | ⟨h1, h2, h3, hc⟩ <;> rw [hc] at h
  · exact .inl ⟨_, fail_next h⟩
  · exact .inl ⟨_, fail_next h⟩
  · exact .inl ⟨_, fail_next h⟩
  · exact .inr ⟨h1, h2, h3, h⟩

theorem macGenerate_next {off len : Byte} {pfx : Option Block} {s t : State}
    (h : macGenerate off len pfx s = .next t) :
    (∃ e, t = s.failed e) ∨
    (s.hostFb = true ∧ s.krdy = true ∧ off.toNat + len.toNat + 4 ≤ s.config.frameMax ∧
      t = { s with
        fb := s.fb.writeBytes (off.toNat + len.toNat)
          (macTag s (s.fb.readBytes off.toNat len.toNat) pfx) }.respond 0 0) := by
  rcases checkMac_next h with he | ⟨h1, h2, h3, ho⟩
  · exact .inl he
  · exact .inr ⟨h1, h2, h3, succeed_next ho⟩

theorem macVerify_next {off len : Byte} {pfx : Option Block} {s t : State} (h : macVerify off len pfx s = .next t) :
    (∃ e, t = s.failed e) ∨
    (s.hostFb = true ∧ s.krdy = true ∧ off.toNat + len.toNat + 4 ≤ s.config.frameMax ∧
      t = s.respond 0 (if macMatches off len pfx s then 1 else 0)) := by
  rcases checkMac_next h with he | ⟨h1, h2, h3, ho⟩
  · exact .inl he
  · exact .inr ⟨h1, h2, h3, succeed_next ho⟩

theorem execCrypt_next {off len : Byte} {s t : State} (h : execCrypt off len s = .next t) :
    (∃ e, t = s.failed e) ∨
    (s.hostFb = true ∧ s.krdy = true ∧ off.toNat + len.toNat ≤ s.config.frameMax ∧
      let r := ctrCrypt (encryptUnder s .enc) off.toNat len.toNat { fb := s.fb, ctr := s.ctr }
      t = { s with fb := r.fb, ctr := r.ctr }.respond 0 0) := by
  unfold execCrypt at h
  split at h
  · exact .inl ⟨_, fail_next h⟩
  · next h1 =>
    split at h
    · exact .inl ⟨_, fail_next h⟩
    · next h2 =>
      split at h
      · exact .inl ⟨_, fail_next h⟩
      · next h3 => exact .inr ⟨by simpa using h1, by simpa using h2, by simpa [rangeInFb] using h3, succeed_next h⟩

theorem execWrfb_next {idx d : Byte} {s t : State} (h : execWrfb idx d s = .next t) :
    (∃ e, t = s.failed e) ∨
    (s.hostFb = true ∧ idx.toNat < s.config.frameMax ∧ t = { s with fb := s.fb.write idx.toNat d }.respond 0 0) := by
  unfold execWrfb at h
  split at h
  · exact .inl ⟨_, fail_next h⟩
  · next h1 =>
    split at h
    · exact .inl ⟨_, fail_next h⟩
    · next h2 => exact .inr ⟨by simpa using h1, by simpa [inSpace] using h2, succeed_next h⟩

theorem execRdfb_next {idx : Byte} {s t : State} (h : execRdfb idx s = .next t) :
    (∃ e, t = s.failed e) ∨ (idx.toNat < s.config.frameMax ∧ t = s.respond 0 (s.fb.read idx.toNat)) := by
  unfold execRdfb at h
  split at h
  · exact .inl ⟨_, fail_next h⟩
  · next h1 => exact .inr ⟨by simpa [inSpace] using h1, succeed_next h⟩

theorem execPutc_next {d : Byte} {s t : State} (h : execPutc d s = .next t) :
    (∃ e, t = s.failed e) ∨
    (s.plen.toNat < payloadMax s.config ∧
      t = { s with pb := s.pb.write s.plen.toNat d, plen := s.plen + 1 }.respond 0 (s.plen + 1)) := by
  unfold execPutc at h
  split at h
  · exact .inl ⟨_, fail_next h⟩
  · split at h
    · cases h
    · exact .inr ⟨by omega, succeed_next h⟩

/-- The state after a build whose frame of `n` payload bytes stands in `fb`. -/
def State.built (s : State) (fb : Memory) (ctr : Block) (n : Nat) : State :=
  { s with
    fb := fb, ctr := ctr, txlen := BitVec.ofNat 8 (n + 12), plen := 0, rxpos := 0, rxfrz := false }.respond 0
    (BitVec.ofNat 8 (n + 12))

theorem execBuildd_next {addr : Byte} {s t : State} (h : execBuildd addr s = .next t) :
    (∃ e, t = s.failed e) ∨
    (s.hostFb = true ∧ s.krdy = true ∧ s.plen.toNat ≤ payloadMax s.config ∧
      s.plen.toNat + 12 ≤ s.config.frameMax ∧
      let n := s.plen.toNat
      let r := ctrCrypt (encryptUnder s .enc) 6 n
        { fb := layFrame s (BitVec.ofNat 8 (n + 6)) addr n, ctr := s.ctr }
      t = s.built (sealFrame s r.fb n (macTag s (r.fb.readBytes 5 (n + 1)) (some r.ctr))) (addCnt r.ctr 1) n) := by
  unfold execBuildd at h
  split at h
  · exact .inl ⟨_, fail_next h⟩
  · next h1 =>
    split at h
    · exact .inl ⟨_, fail_next h⟩
    · next h2 =>
      split at h
      · cases h
      · next h3 =>
        have h3 := (frameFits_iff _ _).mp (by simpa using h3)
        exact .inr ⟨by simpa using h1, by simpa using h2, h3.1, h3.2, succeed_next h⟩

theorem execBuilds_next {addr : Byte} {s t : State} (h : execBuilds addr s = .next t) :
    (∃ e, t = s.failed e) ∨
    (s.role = .master ∧ s.hostFb = true ∧ s.krdy = true ∧ 4 ≤ s.plen.toNat ∧
      s.plen.toNat ≤ payloadMax s.config ∧ s.plen.toNat + 12 ≤ s.config.frameMax ∧
      let n := s.plen.toNat
      let fb := layFrame s (0x80 ||| BitVec.ofNat 8 (n + 6)) addr n
      let sealed := sealFrame s fb n (macTag s (fb.readBytes 6 n) none)
      t = s.built sealed (syncCounter sealed 6) n) := by
  unfold execBuilds at h
  split at h
  · exact .inl ⟨_, fail_next h⟩
  · next h0 =>
    split at h
    · exact .inl ⟨_, fail_next h⟩
    · next h1 =>
      split at h
      · exact .inl ⟨_, fail_next h⟩
      · next h2 =>
        split at h
        · exact .inl ⟨_, fail_next h⟩
        · next h4 =>
          split at h
          · cases h
          · next h3 =>
            have h3 := (frameFits_iff _ _).mp (by simpa using h3)
            exact .inr ⟨not_not.mp h0, by simpa using h1, by simpa using h2, by omega, h3.1, h3.2, succeed_next h⟩

theorem execSend_next {s t : State} (h : execSend s = .next t) :
    (∃ e, t = s.failed e) ∨
    (s.hostFb = true ∧ s.txlen ≠ 0 ∧ s.txlen.toNat ≤ s.config.frameMax ∧
      t = { s.emitFrame (s.fb.readBytes 0 s.txlen.toNat) with
        lm := .transmitting, rxpos := 0, rxfrz := false, txlen := 0 }.respond 0 s.txlen) := by
  unfold execSend at h
  split at h
  · exact .inl ⟨_, fail_next h⟩
  · next h1 =>
    split at h
    · cases h
    · next h2 =>
      rw [not_or] at h1
      exact .inr ⟨by simpa using h1.1, h1.2, by omega, succeed_next h⟩

theorem execRxproc_next {s t : State} (h : execRxproc s = .next t) :
    (∃ e, t = s.failed e) ∨
    (s.rxfrz = true ∧ s.krdy = true ∧ 6 ≤ s.rxpos.toNat ∧ s.rxpos.toNat ≤ s.config.frameMax ∧
      ∃ (u : State) (res : RxResult),
        processFrame (s.rxpos.toNat - 6) { s with rxfrz := false } = (u, res) ∧
        t = { u with rxres := res }.respond 0 res.code) := by
  unfold execRxproc at h
  split at h
  · exact .inl ⟨_, fail_next h⟩
  · next h1 =>
    split at h
    · exact .inl ⟨_, fail_next h⟩
    · next h2 =>
      have hmin : minLen = 6 := rfl
      rw [hmin] at h
      split at h
      · cases h
      · next h3 =>
        exact .inr ⟨by simpa using h1, by simpa using h2, by omega, by omega, _, _, rfl, succeed_next h⟩

/-- What a frame leaves alone when it is processed: everything but the buffer, the counter and the link mode. -/
theorem processFrame_frame {n : Nat} {s u : State} {res : RxResult} (h : processFrame n s = (u, res)) :
    ∃ (fb : Memory) (ctr : Block) (lm : LinkMode), u = { s with fb := fb, ctr := ctr, lm := lm } := by
  have key : ∀ x : State × RxResult, processFrame n s = x →
      (∃ (fb : Memory) (ctr : Block) (lm : LinkMode), x.1 = { s with fb := fb, ctr := ctr, lm := lm }) →
      ∃ (fb : Memory) (ctr : Block) (lm : LinkMode), u = { s with fb := fb, ctr := ctr, lm := lm } := by
    intro x hx hk
    rw [← hx, h] at hk
    exact hk
  rcases processFrame_cases n s with ⟨-, ⟨-, hp⟩ | ⟨-, -, hp⟩ | ⟨-, -, hp⟩⟩ | ⟨-, ⟨-, hp⟩ | ⟨-, -, -, hp⟩ | ⟨-, -, hp⟩⟩ <;>
    exact key _ hp ⟨_, _, _, rfl⟩

end Sys2Proof.Machine
end

