-- ==== Sys2Proof/Laws/PerInstr.lean ====
section
/-! SUPPORT. One lemma per command: the word of a well-formed command matches its own row of the opcode map (spec
30_encoding.md R64). -/

namespace Sys2Proof.Laws

/-- The word of the command, if it has one, matches the row of its mnemonic. -/
def WordMatchesRow.Statement (i : Instr) : Prop :=
  i.wellFormed = true → encode i &&& (opcodeRow i).mask = (opcodeRow i).pattern

theorem WordMatchesRow.nop : WordMatchesRow.Statement .nop := by
  intro _
  decide

theorem WordMatchesRow.reset : WordMatchesRow.Statement .reset := by
  intro _
  decide

theorem WordMatchesRow.setrole (role : Byte) : WordMatchesRow.Statement (.setrole role) := by
  intro h
  have hr : role &&& 0xFE = 0 := by
    have hlt : role.toNat ≤ 1 := by simpa [Instr.wellFormed] using h
    have : role = 0 ∨ role = 1 := by
      have h01 : role.toNat = 0 ∨ role.toNat = 1 := by omega
      rcases h01 with h0 | h1
      · exact .inl (BitVec.eq_of_toNat_eq (by simpa using h0))
      · exact .inr (BitVec.eq_of_toNat_eq (by simpa using h1))
    rcases this with rfl | rfl <;> decide
  simp only [opcodeRow, encode]
  rw [show (0xFFFFFE : CommandWord) = commandWord 0xFF 0xFF 0xFE by decide, and_commandWord, hr]
  decide

theorem WordMatchesRow.rdcsr (n : Byte) : WordMatchesRow.Statement (.rdcsr n) := by
  intro _
  simp only [opcodeRow, encode]
  rw [show (0xFF00FF : CommandWord) = commandWord 0xFF 0x00 0xFF by decide,
    show (0x030000 : CommandWord) = commandWord 0x03 0x00 0x00 by decide, and_commandWord, commandWord_inj]
  simp

theorem WordMatchesRow.wrmk (idx d : Byte) : WordMatchesRow.Statement (.wrmk idx d) := by
  intro _
  simp only [opcodeRow, encode]
  rw [show (0xFF0000 : CommandWord) = commandWord 0xFF 0x00 0x00 by decide,
    show (0x100000 : CommandWord) = commandWord 0x10 0x00 0x00 by decide, and_commandWord, commandWord_inj]
  simp

theorem WordMatchesRow.derive : WordMatchesRow.Statement .derive := by
  intro _
  decide

theorem WordMatchesRow.wrctr (idx d : Byte) : WordMatchesRow.Statement (.wrctr idx d) := by
  intro _
  simp only [opcodeRow, encode]
  rw [show (0xFF0000 : CommandWord) = commandWord 0xFF 0x00 0x00 by decide,
    show (0x120000 : CommandWord) = commandWord 0x12 0x00 0x00 by decide, and_commandWord, commandWord_inj]
  simp

theorem WordMatchesRow.rdctr (idx : Byte) : WordMatchesRow.Statement (.rdctr idx) := by
  intro _
  simp only [opcodeRow, encode]
  rw [show (0xFF00FF : CommandWord) = commandWord 0xFF 0x00 0xFF by decide,
    show (0x130000 : CommandWord) = commandWord 0x13 0x00 0x00 by decide, and_commandWord, commandWord_inj]
  simp

theorem WordMatchesRow.wrblk (idx d : Byte) : WordMatchesRow.Statement (.wrblk idx d) := by
  intro _
  simp only [opcodeRow, encode]
  rw [show (0xFF0000 : CommandWord) = commandWord 0xFF 0x00 0x00 by decide,
    show (0x140000 : CommandWord) = commandWord 0x14 0x00 0x00 by decide, and_commandWord, commandWord_inj]
  simp

theorem WordMatchesRow.rdblk (idx : Byte) : WordMatchesRow.Statement (.rdblk idx) := by
  intro _
  simp only [opcodeRow, encode]
  rw [show (0xFF00FF : CommandWord) = commandWord 0xFF 0x00 0xFF by decide,
    show (0x150000 : CommandWord) = commandWord 0x15 0x00 0x00 by decide, and_commandWord, commandWord_inj]
  simp

theorem WordMatchesRow.addcnt (k : Byte) : WordMatchesRow.Statement (.addcnt k) := by
  intro _
  simp only [opcodeRow, encode]
  rw [show (0xFFFF00 : CommandWord) = commandWord 0xFF 0xFF 0x00 by decide,
    show (0x160000 : CommandWord) = commandWord 0x16 0x00 0x00 by decide, and_commandWord, commandWord_inj]
  simp

theorem WordMatchesRow.xencMac : WordMatchesRow.Statement .xencMac := by
  intro _
  decide

theorem WordMatchesRow.xencEnc : WordMatchesRow.Statement .xencEnc := by
  intro _
  decide

theorem WordMatchesRow.xencMaster : WordMatchesRow.Statement .xencMaster := by
  intro _
  decide

theorem WordMatchesRow.macg (off len : Byte) : WordMatchesRow.Statement (.macg off len) := by
  intro _
  simp only [opcodeRow, encode]
  rw [show (0xFF0000 : CommandWord) = commandWord 0xFF 0x00 0x00 by decide,
    show (0x210000 : CommandWord) = commandWord 0x21 0x00 0x00 by decide, and_commandWord, commandWord_inj]
  simp

theorem WordMatchesRow.macgc (off len : Byte) : WordMatchesRow.Statement (.macgc off len) := by
  intro _
  simp only [opcodeRow, encode]
  rw [show (0xFF0000 : CommandWord) = commandWord 0xFF 0x00 0x00 by decide,
    show (0x220000 : CommandWord) = commandWord 0x22 0x00 0x00 by decide, and_commandWord, commandWord_inj]
  simp

theorem WordMatchesRow.macv (off len : Byte) : WordMatchesRow.Statement (.macv off len) := by
  intro _
  simp only [opcodeRow, encode]
  rw [show (0xFF0000 : CommandWord) = commandWord 0xFF 0x00 0x00 by decide,
    show (0x230000 : CommandWord) = commandWord 0x23 0x00 0x00 by decide, and_commandWord, commandWord_inj]
  simp

theorem WordMatchesRow.macvc (off len : Byte) : WordMatchesRow.Statement (.macvc off len) := by
  intro _
  simp only [opcodeRow, encode]
  rw [show (0xFF0000 : CommandWord) = commandWord 0xFF 0x00 0x00 by decide,
    show (0x240000 : CommandWord) = commandWord 0x24 0x00 0x00 by decide, and_commandWord, commandWord_inj]
  simp

theorem WordMatchesRow.crypt (off len : Byte) : WordMatchesRow.Statement (.crypt off len) := by
  intro _
  simp only [opcodeRow, encode]
  rw [show (0xFF0000 : CommandWord) = commandWord 0xFF 0x00 0x00 by decide,
    show (0x250000 : CommandWord) = commandWord 0x25 0x00 0x00 by decide, and_commandWord, commandWord_inj]
  simp

theorem WordMatchesRow.wrfb (idx d : Byte) : WordMatchesRow.Statement (.wrfb idx d) := by
  intro _
  simp only [opcodeRow, encode]
  rw [show (0xFF0000 : CommandWord) = commandWord 0xFF 0x00 0x00 by decide,
    show (0x300000 : CommandWord) = commandWord 0x30 0x00 0x00 by decide, and_commandWord, commandWord_inj]
  simp

theorem WordMatchesRow.rdfb (idx : Byte) : WordMatchesRow.Statement (.rdfb idx) := by
  intro _
  simp only [opcodeRow, encode]
  rw [show (0xFF00FF : CommandWord) = commandWord 0xFF 0x00 0xFF by decide,
    show (0x310000 : CommandWord) = commandWord 0x31 0x00 0x00 by decide, and_commandWord, commandWord_inj]
  simp

theorem WordMatchesRow.putc (d : Byte) : WordMatchesRow.Statement (.putc d) := by
  intro _
  simp only [opcodeRow, encode]
  rw [show (0xFFFF00 : CommandWord) = commandWord 0xFF 0xFF 0x00 by decide,
    show (0x320000 : CommandWord) = commandWord 0x32 0x00 0x00 by decide, and_commandWord, commandWord_inj]
  simp

theorem WordMatchesRow.clrpb : WordMatchesRow.Statement .clrpb := by
  intro _
  decide

theorem WordMatchesRow.buildd (addr : Byte) : WordMatchesRow.Statement (.buildd addr) := by
  intro _
  simp only [opcodeRow, encode]
  rw [show (0xFFFF00 : CommandWord) = commandWord 0xFF 0xFF 0x00 by decide,
    show (0x400000 : CommandWord) = commandWord 0x40 0x00 0x00 by decide, and_commandWord, commandWord_inj]
  simp

theorem WordMatchesRow.builds (addr : Byte) : WordMatchesRow.Statement (.builds addr) := by
  intro _
  simp only [opcodeRow, encode]
  rw [show (0xFFFF00 : CommandWord) = commandWord 0xFF 0xFF 0x00 by decide,
    show (0x410000 : CommandWord) = commandWord 0x41 0x00 0x00 by decide, and_commandWord, commandWord_inj]
  simp

theorem WordMatchesRow.send : WordMatchesRow.Statement .send := by
  intro _
  decide

theorem WordMatchesRow.rxproc : WordMatchesRow.Statement .rxproc := by
  intro _
  decide

theorem WordMatchesRow.rxon : WordMatchesRow.Statement .rxon := by
  intro _
  decide

theorem WordMatchesRow.stop : WordMatchesRow.Statement .stop := by
  intro _
  decide

end Sys2Proof.Laws
end

