-- ==== Sys2Proof/Laws/Run.lean ====
section
/-! SUPPORT. Runs of the machine, one input at a time (Host.Core.run over `Sys2Proof.core`). -/

namespace Sys2Proof.Machine

theorem step_of_inbox {s : State} {i : Input} {rest : List Input} (h : s.inbox = i :: rest) :
    step s = acceptInput i { s with inbox := rest } := by
  rw [step, takeInput, h]

theorem core_run_one (M : Host.Core) (s : M.State) : M.run 1 s = M.step s := by
  rw [Host.Core.run]
  cases M.step s <;> rfl

theorem core_run_step (M : Host.Core) (k : Nat) (s t : M.State) (h : M.step s = .next t) :
    M.run (k + 1) s = M.run k t := by
  rw [Host.Core.run, h]

theorem core_run_add (M : Host.Core) (a b : Nat) (s t : M.State) (h : M.run a s = .next t) :
    M.run (a + b) s = M.run b t := by
  induction a generalizing s with
  | zero =>
    injection h with h
    rw [Nat.zero_add]
    exact congrArg _ h
  | succ a ih =>
    rw [Host.Core.run] at h
    split at h
    · next u hu =>
      rw [Nat.add_right_comm, core_run_step M _ s u hu]
      exact ih u h
    · cases h
    · cases h

/-- A run of one step takes the first input. -/
theorem run_one {s : State} {i : Input} {rest : List Input} (h : s.inbox = i :: rest) :
    Host.Core.run core 1 s = acceptInput i { s with inbox := rest } :=
  (core_run_one core s).trans (step_of_inbox h)

/-- A run goes on from where its first part ends. -/
theorem run_add {a b : Nat} {s t : State} (h : Host.Core.run core a s = .next t) :
    Host.Core.run core (a + b) s = Host.Core.run core b t := core_run_add core a b s t h

end Sys2Proof.Machine
end

