-- ==== Sys2Proof/Tests/Slice0.lean ====
section
/-! SUPPORT. The model's own tests. Expected words, bytes and responses are those of spec 95_test_vectors.md (the
section is named at each group); the witnesses at the end meet the hypotheses of the obligations. -/

namespace Sys2Proof.Machine.Tests

/-! ## Helpers -/

/-- A block from its eight bytes. -/
def blk8 (a b c d e f g h : Byte) : Block := #v[a, b, c, d, e, f, g, h]

/-- The bytes `l` from address `a` on, in an empty buffer. -/
def memAt (a : Nat) (l : List Byte) : Memory := Memory.writeBytes [] a l

/-- `KEYS_REF` of the test vectors: the keys derived from the master key `00 01 .. 0F`. -/
def keysRef : Vector Byte 40 :=
  #v[0xFA, 0xF7, 0x40, 0xA9, 0x4F, 0xC9, 0x9E, 0x85, 0x2D, 0xC3, 0xEA, 0x1C, 0xBC, 0xA4, 0xD1, 0x59,
     0xC9, 0xBA, 0x7C, 0x13, 0xB7, 0xB0, 0xE2, 0xE2, 0x41, 0xCA, 0xC2, 0xEC, 0xB6, 0x51, 0x7E, 0xFC,
     0x83, 0x95, 0x85, 0xD9, 0x6C, 0xA2, 0xFD, 0xF8]

/-- An engine with the master key `00 01 .. 0F` loaded and nothing derived. -/
def loaded : State := { State.reset with
  keys := setSlice (Vector.replicate 40 0) 24 (tabulate 16 fun i => BitVec.ofNat 8 i), mkmask := 0xFFFF }

/-- An engine with the reference keys, a slave, stopped. -/
def keyed : State := { State.reset with keys := keysRef, krdy := true }

/-- The counter `18 01 0F 0E n 00 00 00` of the test vectors. -/
def ctrAt (n : Byte) : Block := blk8 0x18 0x01 0x0F 0x0E n 0 0 0

/-- The payload "VER-1.2.3" pending in an engine at count 5 (section 2.6, scenario A). -/
def pending : State := { keyed with
  ctr := ctrAt 5, pb := memAt 0 [0x56, 0x45, 0x52, 0x2D, 0x31, 0x2E, 0x32, 0x2E, 0x33], plen := 9 }

/-- The frame of scenario A from its length byte on, without the trailer. -/
def dataFrame : List Byte :=
  [0x0F, 0x07, 0x1C, 0x5F, 0x5D, 0x43, 0xEA, 0xED, 0x8E, 0x6E, 0x37, 0x5D, 0x23, 0x0D, 0x93]

/-- A master with the frame of scenario A frozen. -/
def frozenData : State := { keyed with
  ctr := ctrAt 5, role := .master, lm := .receiving, fb := memAt 0 dataFrame, rxpos := 15, rxfrz := true }

/-- The frame of scenario C from its length byte on, without the trailer. -/
def syncFrame : List Byte := [0x8B, 0x00, 0x18, 0x01, 0x0F, 0x0E, 0x2A, 0xAD, 0xF7, 0xCF, 0x3A]

/-- A slave with the frame of scenario C frozen. -/
def frozenSync : State := { keyed with
  ctr := blk8 0x17 0x0C 0x1F 0x3B 0x44 0x33 0x22 0x11, lm := .receiving, fb := memAt 0 syncFrame, rxpos := 11
  rxfrz := true }

/-- A slave with a sync frame of three payload bytes frozen, whose tag is `tag("\x18\x01\x0F", none)`. -/
def frozenShort : State :=
  { keyed with lm := .receiving, rxpos := 9, rxfrz := true
               fb := memAt 0 ([0x89, 0x00, 0x18, 0x01, 0x0F] ++ macTag keyed [0x18, 0x01, 0x0F] none) }

/-- An armed engine with nothing received. -/
def armed : State := { State.reset with lm := .receiving, rxen := true }

/-- A state with a transmission under way. -/
def sending : State := { keyed with lm := .transmitting }

/-- The last response word of an outcome. -/
def answer : Host.Outcome State Fault Refusal → Option ResponseWord
  | .next t => t.lastResponse
  | _ => none

/-- A part of an outcome's next state. -/
def part {α : Type} (f : State → α) : Host.Outcome State Fault Refusal → Option α
  | .next t => some (f t)
  | _ => none

/-- The answer to a command word. -/
def answerTo (word : CommandWord) (s : State) : Option ResponseWord := answer (acceptCommand word s)

/-! ## Well-formedness -/

theorem test_wellFormed_refuses_role_2 : (Instr.setrole 2).wellFormed = false := by decide

theorem test_wellFormed_accepts_role_1 : (Instr.setrole 1).wellFormed = true := by decide

/-! ## Decoding (section 2.9) -/

theorem test_decode_nop : decode 0x000000#24 = .ok .nop := by decide

theorem test_decode_reset : decode 0x010000#24 = .ok .reset := by decide

theorem test_decode_setrole : decode 0x020001#24 = .ok (.setrole 1) := by decide

theorem test_decode_rdcsr : decode 0x030500#24 = .ok (.rdcsr 5) := by decide

theorem test_decode_wrmk : decode 0x10037F#24 = .ok (.wrmk 3 0x7F) := by decide

theorem test_decode_derive : decode 0x110000#24 = .ok .derive := by decide

theorem test_decode_wrctr : decode 0x120405#24 = .ok (.wrctr 4 5) := by decide

theorem test_decode_rdctr : decode 0x130700#24 = .ok (.rdctr 7) := by decide

theorem test_decode_wrblk : decode 0x140041#24 = .ok (.wrblk 0 0x41) := by decide

theorem test_decode_rdblk : decode 0x150700#24 = .ok (.rdblk 7) := by decide

theorem test_decode_addcnt : decode 0x160002#24 = .ok (.addcnt 2) := by decide

theorem test_decode_xencMac : decode 0x200000#24 = .ok .xencMac := by decide

theorem test_decode_xencEnc : decode 0x200001#24 = .ok .xencEnc := by decide

theorem test_decode_xencMaster : decode 0x200002#24 = .ok .xencMaster := by decide

theorem test_decode_macg : decode 0x210008#24 = .ok (.macg 0 8) := by decide

theorem test_decode_macgc : decode 0x22050A#24 = .ok (.macgc 5 10) := by decide

theorem test_decode_macv : decode 0x230609#24 = .ok (.macv 6 9) := by decide

theorem test_decode_macvc : decode 0x24010A#24 = .ok (.macvc 1 10) := by decide

theorem test_decode_crypt : decode 0x250609#24 = .ok (.crypt 6 9) := by decide

theorem test_decode_wrfb : decode 0x304F5A#24 = .ok (.wrfb 79 0x5A) := by decide

theorem test_decode_rdfb : decode 0x310400#24 = .ok (.rdfb 4) := by decide

theorem test_decode_putc : decode 0x320056#24 = .ok (.putc 0x56) := by decide

theorem test_decode_clrpb : decode 0x330000#24 = .ok .clrpb := by decide

theorem test_decode_buildd : decode 0x400007#24 = .ok (.buildd 7) := by decide

theorem test_decode_builds : decode 0x410000#24 = .ok (.builds 0) := by decide

theorem test_decode_send : decode 0x420000#24 = .ok .send := by decide

theorem test_decode_rxproc : decode 0x430000#24 = .ok .rxproc := by decide

theorem test_decode_rxon : decode 0x500000#24 = .ok .rxon := by decide

theorem test_decode_stop : decode 0x510000#24 = .ok .stop := by decide

theorem test_decodeTableWord : decodeTableWord 24 0x10037F = some (.wrmk 3 0x7F) := by decide

/-- Undefined opcodes (section 2.8). -/
theorem test_undefined_opcodes :
    [0xFF0000#24, 0x260000#24, 0x040000#24, 0x0F1234#24].all
      (fun word => answerTo word State.reset == some 0x0100#16) = true := by decide

/-- Operands that must be zero or lie in a set (section 2.8). -/
theorem test_illegal_operands :
    [0x000001#24, 0x010100#24, 0x020002#24, 0x030001#24, 0x110001#24, 0x160100#24, 0x200003#24, 0x200100#24,
     0x310001#24, 0x320100#24, 0x330001#24, 0x420001#24, 0x430100#24, 0x500001#24, 0x510100#24].all
      (fun word => answerTo word State.reset == some 0x0100#16) = true := by decide

/-- `ERR_ILLEGAL` wins over `ERR_RANGE` (section 2.5). -/
theorem test_illegal_before_range : answerTo 0x31C801#24 State.reset = some 0x0100#16 := by decide

/-! ## The step and reset -/

theorem test_step_runs_withFetchWord :
    part State.role (step (State.reset.withFetchWord 24 0x020001)) = some .master := by decide

theorem test_step_takes_a_hardware_reset :
    part (fun t => (t.krdy, t.inbox)) (step { keyed with inbox := [.hardReset, .rxByte 7] }) =
      some (false, [.rxByte 7]) := by decide

theorem test_reset_status : State.reset.status = 0x00#8 := by decide

/-! ## The cipher and the key schedule (sections 2.1, 2.2) -/

/-- The key of rows 3 and 4 of the table of section 2.1. -/
def key34 : Key :=
  #v[0x01, 0x23, 0x45, 0x67, 0x12, 0x34, 0x56, 0x78, 0x23, 0x45, 0x67, 0x89, 0x34, 0x56, 0x78, 0x9A]

theorem test_xtea_little : xteaEncrypt Config.reference key34 (blk8 1 2 3 4 5 6 7 8) =
    blk8 0xD7 0x11 0x80 0xAF 0x01 0x21 0xC7 0x0E := by decide +kernel

/-- A cipher given by its values answers them (40_xtea.md R82). -/
theorem test_cipher_values :
    blockEncrypt { Config.reference with cipher := .values [⟨key34, zeroBlock, blk8 1 2 3 4 5 6 7 8⟩] } key34 zeroBlock =
      blk8 1 2 3 4 5 6 7 8 := by decide

theorem test_xtea_big : xteaEncrypt { Config.reference with xteaEndian := .big } key34 (blk8 1 2 3 4 5 6 7 8) =
    blk8 0x8C 0x67 0x15 0x5B 0x2E 0xF9 0x1E 0xAD := by decide +kernel

/-- One iteration (section 2.1, note c). -/
theorem test_xtea_one_iteration :
    xteaEncrypt { Config.reference with xteaRounds := 1 } (Vector.replicate 16 0) (Vector.replicate 8 0) =
      blk8 0 0 0 0 0xB9 0x79 0x37 0x9E := by decide +kernel

theorem test_dbl_carries : dbl 0x87 (blk8 0x80 0 0 0 0 0 0 0xFF) = blk8 0 0 0 0 0 0 0x01 0x79 := by decide

theorem test_dbl_without_carry : dbl 0x87 (blk8 0x40 0 0 0 0 0 0 0) = blk8 0x80 0 0 0 0 0 0 0 := by decide

theorem test_wrmk : part (fun t => (byteAt t.keys 27, t.mkmask, t.krdy)) (exec (.wrmk 3 0x55) keyed) =
    some (0x55, 0x0008, false) := by decide

theorem test_wrmk_range : answer (exec (.wrmk 16 0) State.reset) = some 0x0500#16 := by decide

theorem test_derive : part (fun t => (t.keys, t.krdy, t.mkmask)) (exec .derive loaded) = some (keysRef, true, 0) := by
  decide +kernel

theorem test_derive_needs_every_byte : answer (exec .derive { loaded with mkmask := 0x7FFF }) = some 0x0400#16 := by
  decide

/-- The block `41 .. 48` of section 2.1. -/
def letters : Block := blk8 0x41 0x42 0x43 0x44 0x45 0x46 0x47 0x48

theorem test_xenc_mac : part State.blk (exec .xencMac { keyed with blk := letters }) =
    some (blk8 0xAE 0x9B 0x70 0xEE 0x94 0x80 0xE1 0x3A) := by decide +kernel

theorem test_xenc_mac_without_keys : answer (exec .xencMac loaded) = some 0x0400#16 := by decide

theorem test_xenc_enc : part State.blk (exec .xencEnc { keyed with blk := letters }) =
    some (blk8 0x16 0xA7 0xC1 0xA7 0x35 0x30 0x31 0x8D) := by decide +kernel

theorem test_xenc_master : part State.blk (exec .xencMaster { loaded with blk := letters }) =
    some (blk8 0xCA 0xE7 0x69 0x7E 0x00 0x6E 0xE9 0x21) := by decide +kernel

theorem test_xenc_master_after_derive : answer (exec .xencMaster keyed) = some 0x0400#16 := by decide

theorem test_wrblk : part State.blk (exec (.wrblk 7 0x48) State.reset) = some (blk8 0 0 0 0 0 0 0 0x48) := by decide

theorem test_wrblk_range : part State.errflags (exec (.wrblk 8 0) State.reset) = some 0x10#8 := by decide

theorem test_rdblk : answer (exec (.rdblk 7) { State.reset with blk := letters }) = some 0x0048#16 := by decide

/-! ## CMAC (section 2.3) -/

/-- The digits "12345678" in `FB[0..7]`. -/
def digits : State := { keyed with fb := memAt 0 [0x31, 0x32, 0x33, 0x34, 0x35, 0x36, 0x37, 0x38], ctr := ctrAt 0 }

theorem test_cmac_empty : macTag keyed [] none = [0xB6, 0xCF, 0xEC, 0x0D] := by decide +kernel

theorem test_cmac_two_blocks : macTag keyed [0x31, 0x32, 0x33, 0x34, 0x35, 0x36, 0x37, 0x38, 0x39] none =
    [0x25, 0x62, 0x4E, 0x27] := by decide +kernel

theorem test_macg_pads : part (fun t => t.fb.readBytes 7 4) (exec (.macg 0 7) digits) =
    some [0x7B, 0x3D, 0x51, 0x1A] := by decide +kernel

theorem test_macg_range : answer (exec (.macg 77 0) digits) = some 0x0500#16 := by decide

theorem test_macgc : part (fun t => (t.fb.readBytes 8 4, t.ctr)) (exec (.macgc 0 8) digits) =
    some ([0x77, 0xC3, 0x72, 0x01], ctrAt 0) := by decide +kernel

/-- The message of `digits` with its unprefixed tag after it. -/
def tagged : State := { digits with
  fb := memAt 0 [0x31, 0x32, 0x33, 0x34, 0x35, 0x36, 0x37, 0x38, 0xC4, 0xEE, 0xE7, 0x73] }

theorem test_macv : answer (exec (.macv 0 8) tagged) = some 0x0001#16 := by decide +kernel

theorem test_macv_range : answer (exec (.macv 70 7) tagged) = some 0x0500#16 := by decide

/-- An unprefixed tag does not verify with a prefix. -/
theorem test_macvc_mismatch : answer (exec (.macvc 0 8) tagged) = some 0x0000#16 := by decide +kernel

/-- The message of `digits` with its tag under the prefix `18 01 0F 0E 00 00 00 00` after it. -/
def taggedCtr : State := { digits with
  fb := memAt 0 [0x31, 0x32, 0x33, 0x34, 0x35, 0x36, 0x37, 0x38, 0x77, 0xC3, 0x72, 0x01] }

theorem test_macvc : answer (exec (.macvc 0 8) taggedCtr) = some 0x0001#16 := by decide +kernel

/-! ## Counter mode (section 2.4) -/

/-- Nine bytes under the counter `18 01 0F 0E FF FF FF FF`: the count wraps, the time bytes stay. -/
theorem test_crypt_wraps_the_count :
    part (fun t => (t.fb.readBytes 0 9, t.ctr))
      (exec (.crypt 0 9) { keyed with ctr := blk8 0x18 0x01 0x0F 0x0E 0xFF 0xFF 0xFF 0xFF }) =
      some ([0xEC, 0xA8, 0x5B, 0x00, 0x06, 0xED, 0x35, 0xE1, 0xF0], ctrAt 1) := by decide +kernel

theorem test_crypt_range : answer (exec (.crypt 73 8) keyed) = some 0x0500#16 := by decide

theorem test_addcnt_wraps :
    part State.ctr (exec (.addcnt 2) { keyed with ctr := blk8 0x18 0x01 0x0F 0x0E 0xFF 0xFF 0xFF 0xFF }) =
      some (ctrAt 1) := by decide

theorem test_addcnt_carries : part State.ctr (exec (.addcnt 255) { keyed with ctr := ctrAt 0xFE }) =
    some (blk8 0x18 0x01 0x0F 0x0E 0xFD 0x01 0 0) := by decide

theorem test_wrctr : part State.ctr (exec (.wrctr 4 5) { keyed with ctr := ctrAt 0 }) = some (ctrAt 5) := by decide

theorem test_wrctr_range : answer (exec (.wrctr 8 0) State.reset) = some 0x0500#16 := by decide

theorem test_rdctr : answer (exec (.rdctr 0) pending) = some 0x0018#16 := by decide

/-! ## Buffers (section 2.5) -/

theorem test_wrfb_last_byte : part (fun t => t.fb) (exec (.wrfb 79 0x5A) State.reset) = some [(79, 0x5A)] := by decide

theorem test_wrfb_while_armed : answer (exec (.wrfb 0 0) armed) = some 0x0300#16 := by decide

theorem test_rdfb : answer (exec (.rdfb 79) { State.reset with fb := [(79, 0x5A)] }) = some 0x005A#16 := by decide

theorem test_rdfb_range : answer (exec (.rdfb 80) State.reset) = some 0x0500#16 := by decide

theorem test_putc : part (fun t => (t.pb, t.plen, t.lastResponse)) (exec (.putc 0x45) { State.reset with
    pb := [(0, 0x56)], plen := 1 }) = some ([(0, 0x56), (1, 0x45)], 2, some 0x0002#16) := by decide

theorem test_putc_full : part (fun t => (t.plen, t.lastResponse)) (exec (.putc 0x99) { State.reset with
    plen := 68 }) = some (68, some 0x0600#16) := by decide

theorem test_clrpb : part (fun t => (t.plen, t.pb)) (exec .clrpb { State.reset with pb := [(0, 0x56)], plen := 1 }) =
    some (0, [(0, 0x56)]) := by decide

/-! ## The framer (section 2.6) -/

theorem test_buildd :
    part (fun t => (t.fb.readBytes 0 21, t.txlen, t.plen, t.ctr)) (exec (.buildd 7) pending) =
      some ([0xAA, 0xAA, 0x2D, 0xD4] ++ dataFrame ++ [0xAA, 0xAA], 21, 0, ctrAt 8) := by decide +kernel

theorem test_buildd_without_keys : part (fun t => (t.plen, t.lastResponse))
    (exec (.buildd 7) { pending with krdy := false }) = some (9, some 0x0400#16) := by decide

/-- The master of scenario C with its payload pending. -/
def beacon : State := { keyed with
  role := .master, ctr := blk8 0 0 0 0 9 0 0 0, pb := memAt 0 [0x18, 0x01, 0x0F, 0x0E, 0x2A], plen := 5 }

theorem test_builds :
    part (fun t => (t.fb.readBytes 0 17, t.txlen, t.ctr)) (exec (.builds 0) beacon) =
      some ([0xAA, 0xAA, 0x2D, 0xD4] ++ syncFrame ++ [0xAA, 0xAA], 17, ctrAt 0) := by decide +kernel

/-- `ERR_ROLE` before `ERR_NOKEY` and `ERR_RANGE` (section 2.8). -/
theorem test_builds_role_first : answer (exec (.builds 0) State.reset) = some 0x0200#16 := by decide

/-- An engine with the frame of scenario A built. -/
def built : State := { keyed with
  fb := memAt 0 ([0xAA, 0xAA, 0x2D, 0xD4] ++ dataFrame ++ [0xAA, 0xAA]), txlen := 21 }

theorem test_send :
    part (fun t => (t.txframes, t.lm, t.txlen, t.lastResponse)) (exec .send built) =
      some ([[0xAA, 0xAA, 0x2D, 0xD4] ++ dataFrame ++ [0xAA, 0xAA]], .transmitting, 0, some 0x0015#16) := by decide

theorem test_send_nothing_built : answer (exec .send State.reset) = some 0x0300#16 := by decide

/-- The last byte of the frame of scenario A freezes it. -/
theorem test_rxbyte_freezes :
    (receiveByte 0x93 { armed with fb := memAt 0 (dataFrame.take 14), rxpos := 14 }).rxfrz = true ∧
    (receiveByte 0x93 { armed with fb := memAt 0 (dataFrame.take 14), rxpos := 14 }).fb = memAt 0 dataFrame := by
  decide

/-- Length 5 is rejected (program P4). -/
theorem test_rxbyte_rejects_length_5 : ((receiveByte 0x05 armed).rxrej, (receiveByte 0x05 armed).rxpos) = (true, 0) := by
  decide

theorem test_rxproc_data :
    part (fun t => (t.fb.readBytes 0 15, t.rxres, t.ctr, t.rxfrz)) (exec .rxproc frozenData) =
      some ([0x0F, 0x07, 0x56, 0x45, 0x52, 0x2D, 0x31, 0x2E, 0x32, 0x2E, 0x33, 0x5D, 0x23, 0x0D, 0x93],
        .dataOk, ctrAt 8, false) := by decide +kernel

theorem test_rxproc_sync :
    part (fun t => (t.ctr, t.rxres, t.lm)) (exec .rxproc frozenSync) = some (ctrAt 0, .syncOk, .stopped) := by
  decide +kernel

/-! ## Link and system (section 2.7) -/

theorem test_status_frozen_master : answer (exec (.rdcsr 0) frozenData) = some 0x00A7#16 := by decide

theorem test_rdcsr_reserved : answer (exec (.rdcsr 8) State.reset) = some 0x0500#16 := by decide

theorem test_nop : exec .nop keyed = .next (keyed.respond 0 0) := rfl

theorem test_reset : part (fun t => (t.keys, t.krdy, t.errflags)) (exec .reset { keyed with errflags := 0x1E }) =
    some (Vector.replicate 40 0, false, 0) := by decide

theorem test_setrole : part State.role (exec (.setrole 1) State.reset) = some .master := by decide

theorem test_rxon : part State.status (exec .rxon { keyed with role := .master }) = some 0x17#8 := by decide

theorem test_stop : part State.status (exec .stop { armed with rxrej := true }) = some 0x00#8 := by decide

theorem test_txcomplete : (completeTransmission sending).status = 0x8D#8 := by decide

/-! ## The textual form (30_encoding.md R67, R68) -/

theorem test_assemble_line : assembleLine "WRFB 79, 0x5A -> 0000" =
    some [⟨.command 0x304F5A#24, some 0x0000#16⟩] := by decide +kernel

theorem test_assemble_puts : assembleLine "PUTS \"OK\"" =
    some [⟨.command 0x32004F#24, none⟩, ⟨.command 0x32004B#24, none⟩] := by decide +kernel

/-- Byte pairs without blanks between them (40_xtea.md R83), a comment after them. -/
theorem test_assemble_load : (assembleLine "LDBLK 4142434445464748 ; BLK").map (List.map AsmLine.input) =
    some [.command 0x140041#24, .command 0x140142#24, .command 0x140243#24, .command 0x140344#24,
      .command 0x140445#24, .command 0x140546#24, .command 0x140647#24, .command 0x140748#24] := by decide +kernel

/-- Log entry 11: an index past 255, a load of the wrong length, a response expected of an event. -/
theorem test_assemble_rejects : assembleLine "LDFB 255, 01 02" = none ∧ assembleLine "LDCTR 01 02" = none ∧
    assembleLine "@TXC -> 0000" = none := by decide +kernel

/-! ## Witnesses: concrete states and operands that meet the hypotheses of each obligation -/

/-- The invariants hold in a state that carries keys and a pending payload. -/
theorem pending_inv : pending.Inv := by
  constructor <;> decide

theorem beacon_inv : beacon.Inv := by
  constructor <;> decide

theorem armed_inv : armed.Inv := by
  constructor <;> decide

theorem frozenData_inv : frozenData.Inv := by
  constructor <;> decide

theorem frozenSync_inv : frozenSync.Inv := by
  constructor <;> decide

theorem sending_inv : sending.Inv := by
  constructor <;> decide

/-- The receiver of scenario A, armed. -/
def receiver : State := { keyed with ctr := ctrAt 5, lm := .receiving, rxen := true }

theorem receiver_inv : receiver.Inv := by
  constructor <;> decide

theorem witness_DecodeInvertsEncode :
    (Instr.setrole 0).wellFormed = true ∧ (Instr.setrole 1).wellFormed = true ∧
    (Instr.wrmk 0xFF 0xFF).wellFormed = true := by decide

theorem witness_EncodeInvertsDecode : decode 0x020001#24 = .ok (.setrole 1) := by decide

theorem witness_WordSpellsRowIffItDecodesToIt : opcodeRow (.wrmk 0 0) ∈ opcodeTable ∧
    (0x10037F#24 &&& (opcodeRow (.wrmk 0 0)).mask) = (opcodeRow (.wrmk 0 0)).pattern := by decide

/-- A word is no command when it decodes to an error. -/
theorem no_command {word : CommandWord} {e : Illegal} (h : decode word = .error e) (i : Instr) : decode word ≠ .ok i := by
  rw [h]
  simp

/-- One illegal word for each of (a) to (d) of R65. -/
theorem witness_IllegalWordMatchesNoRowAndAnswersIllegal :
    (∀ i, decode 0xFF0000#24 ≠ .ok i) ∧ (∀ i, decode 0x010100#24 ≠ .ok i) ∧ (∀ i, decode 0x030001#24 ≠ .ok i) ∧
    (∀ i, decode 0x020002#24 ≠ .ok i) ∧ (∀ i, decode 0x200003#24 ≠ .ok i) ∧
    ({ State.reset with inbox := [.command 0x200003#24] } : State).inbox = .command 0x200003#24 :: [] :=
  ⟨no_command (e := .unassignedOpcode 0xFF) (by decide), no_command (e := .nonzeroOperand) (by decide),
    no_command (e := .nonzeroOperand) (by decide), no_command (e := .operandOutsideSet 2) (by decide),
    no_command (e := .operandOutsideSet 3) (by decide), rfl⟩

theorem witness_StepRunsTheDecodedCommand :
    ({ pending with inbox := [.command 0x400007#24, .txComplete] } : State).inbox =
      .command 0x400007#24 :: [.txComplete] ∧ decode 0x400007#24 = .ok (.buildd 7) ∧
    ∀ i, decode 0x04FFFF#24 ≠ .ok i :=
  ⟨rfl, by decide, no_command (e := .unassignedOpcode 0x04) (by decide)⟩

theorem witness_StepWithoutInputChangesNothing : pending.inbox = [] := by decide

theorem witness_ResetClearsEveryPieceOfState :
    ({ pending with inbox := [.hardReset] } : State).inbox = .hardReset :: [] := by decide

/-- An armed engine that a length byte reaches next. -/
def hearing : State := { armed with inbox := [.rxByte 0x0F] }

theorem hearing_inv : hearing.Inv := by
  constructor <;> decide

theorem witness_StepKeepsTheInvariants : hearing.Inv ∧ ∃ t, step hearing = .next t := ⟨hearing_inv, _, rfl⟩

theorem witness_EveryInputHasADefinedOutcome : frozenData.Inv ∧ sending.Inv := ⟨frozenData_inv, sending_inv⟩

/-- A nonzero operand, at the least value, for the commands whose operands must be zero. -/
theorem witness_operands_that_must_be_zero :
    ((1 : Byte) ≠ 0 ∨ (0 : Byte) ≠ 0) ∧ ((0 : Byte) ≠ 0 ∨ (1 : Byte) ≠ 0) ∧ (1 : Byte) ≠ 0 := by decide

theorem witness_SetroleWritesTheRole : ((1 : Byte) ≠ 0 ∨ 1 < (0 : Byte).toNat) ∧ ((0 : Byte) ≠ 0 ∨ 1 < (2 : Byte).toNat) ∧
    1 < (2 : Byte).toNat := by decide

theorem witness_RdcsrAnswersTheRegister : 8 ≤ (8 : Byte).toNat ∧ (1 : Byte) ≠ 0 := by decide

theorem witness_TxCompleteEndsATransmission :
    ({ sending with inbox := [.txComplete] } : State).inbox = .txComplete :: [] ∧ sending.lm = .transmitting ∧
    ({ armed with inbox := [.txComplete] } : State).inbox = .txComplete :: [] ∧ armed.lm ≠ .transmitting := by decide

theorem witness_LinkModeTransitions :
    frozenSync.Inv ∧ (∃ t, exec .rxproc frozenSync = .next t) ∧
    (∃ t, step { armed with inbox := [.rxByte 5] } = .next t) ∧
    (∃ t, step { sending with inbox := [.txComplete] } = .next t) ∧
    (∃ t, step { sending with inbox := [.hardReset] } = .next t) :=
  ⟨frozenSync_inv, ⟨_, rfl⟩, ⟨_, rfl⟩, ⟨_, rfl⟩, ⟨_, rfl⟩⟩

theorem witness_WrmkWritesAMasterKeyByte : 16 ≤ (16 : Byte).toNat ∧ (15 : Byte).toNat < 16 := by decide

theorem witness_DeriveRunsTheKeySchedule : keyed.mkmask ≠ 0xFFFF ∧ loaded.mkmask = 0xFFFF := by decide

theorem witness_DoublingByteByByte : 6 < 7 := by decide

theorem witness_DerivedKeysDependOnTheMasterKeyAlone :
    loaded.config = { loaded with role := .master, ctr := ctrAt 5 }.config ∧
    slice loaded.keys 24 16 = slice { loaded with role := .master, ctr := ctrAt 5 }.keys 24 16 ∧
    loaded.mkmask = 0xFFFF ∧ (∃ t, exec .derive loaded = .next t) ∧
    ∃ t, exec .derive { loaded with role := .master, ctr := ctrAt 5 } = .next t :=
  ⟨rfl, rfl, rfl, ⟨_, rfl⟩, ⟨_, rfl⟩⟩

theorem witness_DeriveErasesTheMasterKey :
    loaded.mkmask = 0xFFFF ∧ (15 : Byte).toNat < 16 ∧
    ∃ t u, exec .derive loaded = .next t ∧ exec (.wrmk 15 0x55) t = .next u := ⟨rfl, by decide, _, _, rfl, rfl⟩

theorem witness_CipherIsAnyFunctionOrXtea :
    Config.reference.cipher = .xtea ∧ ({ Config.reference with xteaEndian := .big } : Config).cipher = .xtea ∧ 3 < 4 := by
  decide

theorem witness_XencEncryptsTheBlock :
    ((0 : Byte) ≠ 0 ∨ 2 < (3 : Byte).toNat) ∧ loaded.krdy = false ∧ keyed.mkmask ≠ 0xFFFF ∧ keyed.krdy = true ∧
    loaded.mkmask = 0xFFFF := by decide

/-- `BLK` and `CTR`: the first index outside, the last inside. -/
theorem witness_BlockRegisterByteAccess : 8 ≤ (8 : Byte).toNat ∧ (7 : Byte).toNat < 8 ∧ (1 : Byte) ≠ 0 := by decide

theorem witness_CounterRegisterByteAccess : 8 ≤ (8 : Byte).toNat ∧ (7 : Byte).toNat < 8 ∧ (1 : Byte) ≠ 0 := by decide

/-- An armed engine, one without keys, and the first range that does not fit: 76 + 1 + 4 and 80 + 1 above 80. -/
theorem witness_MacAndCryptChecksInOrder :
    armed.rxen = true ∧ sending.lm = .transmitting ∧
    (State.reset.rxen = false ∧ State.reset.lm ≠ .transmitting ∧ State.reset.krdy = false) ∧
    (keyed.rxen = false ∧ keyed.lm ≠ .transmitting ∧ keyed.krdy = true) ∧
    keyed.config.frameMax < (76 : Byte).toNat + (1 : Byte).toNat + 4 ∧
    keyed.config.frameMax < (80 : Byte).toNat + (1 : Byte).toNat + 0 := by decide

/-- The last range that fits: 72 + 4 + 4 = 80. -/
theorem witness_MacGenerateWritesTheTag : digits.hostFb = true ∧ digits.krdy = true ∧
    (72 : Byte).toNat + (4 : Byte).toNat + 4 ≤ digits.config.frameMax := by decide

theorem witness_MacVerifyComparesTheTag : tagged.hostFb = true ∧ tagged.krdy = true ∧
    (0 : Byte).toNat + (8 : Byte).toNat + 4 ≤ tagged.config.frameMax ∧
    macMatches 0 8 none tagged = true ∧ macMatches 0 8 (some tagged.ctr) tagged = false ∧
    macMatches 0 8 (some taggedCtr.ctr) taggedCtr = true ∧ macMatches 0 8 none taggedCtr = false := by decide +kernel

theorem witness_GeneratedTagVerifies : digits.hostFb = true ∧ digits.krdy = true ∧
    (72 : Byte).toNat + (4 : Byte).toNat + 4 ≤ digits.config.frameMax := by decide

/-- The last tag byte of "1234567", `1A`, changed to `1B`. -/
theorem witness_ChangedTagByteFailsVerification :
    digits.hostFb = true ∧ digits.krdy = true ∧ (0 : Byte).toNat + (7 : Byte).toNat + 4 ≤ digits.config.frameMax ∧
    3 < 4 ∧ (10 : Byte).toNat = (0 : Byte).toNat + (7 : Byte).toNat + 3 ∧
    ∃ t u, exec (.macg 0 7) digits = .next t ∧ (0x1B : Byte) ≠ Memory.read t.fb (10 : Byte).toNat ∧
      exec (.wrfb 10 0x1B) t = .next u :=
  ⟨by decide, by decide, by decide, by decide, by decide, _, _, rfl, by decide +kernel, rfl⟩

/-- The same with the counter as prefix, the first tag byte `77` of "12345678" changed to `76`. -/
theorem witness_ChangedTagByteFailsVerification_counter :
    (0 : Byte).toNat + (8 : Byte).toNat + 4 ≤ digits.config.frameMax ∧
    0 < 4 ∧ (8 : Byte).toNat = (0 : Byte).toNat + (8 : Byte).toNat + 0 ∧
    ∃ t u, exec (.macgc 0 8) digits = .next t ∧ (0x76 : Byte) ≠ Memory.read t.fb (8 : Byte).toNat ∧
      exec (.wrfb 8 0x76) t = .next u :=
  ⟨by decide, by decide, by decide, _, _, rfl, by decide +kernel, rfl⟩

/-- Lengths 8, 7, 0 and, after a block that is not the last, 1. -/
theorem witness_CmacChainAndPaddingByLength :
    (0 < (List.replicate 8 (0x31 : Byte)).length ∧ (List.replicate 8 (0x31 : Byte)).length % 8 = 0) ∧
    ¬(0 < (List.replicate 7 (0x31 : Byte)).length ∧ (List.replicate 7 (0x31 : Byte)).length % 8 = 0) ∧
    (List.replicate 7 (0x31 : Byte)).length < 8 ∧ ([] : List Byte).length < 8 ∧ [(0x31 : Byte)] ≠ [] := by decide

theorem witness_AddcntAddsToThePacketCount : (1 : Byte) ≠ 0 ∧ (0 : Byte) = 0 ∧ 3 < 4 := by decide

/-- The last range that fits: 72 + 8 = 80. -/
theorem witness_CryptXorsTheKeystream : keyed.hostFb = true ∧ keyed.krdy = true ∧
    (72 : Byte).toNat + (8 : Byte).toNat ≤ keyed.config.frameMax := by decide

theorem witness_CryptTwiceRestoresTheBuffer : digits.hostFb = true ∧ digits.krdy = true ∧
    Memory.wf digits.fb = true ∧ (72 : Byte).toNat + (8 : Byte).toNat ≤ digits.config.frameMax := by decide

theorem witness_WrfbWritesOneByte :
    armed.rxen = true ∧ sending.lm = .transmitting ∧ (keyed.rxen = false ∧ keyed.lm ≠ .transmitting) ∧
    keyed.config.frameMax ≤ (80 : Byte).toNat ∧ (79 : Byte).toNat < keyed.config.frameMax := by decide

theorem witness_RdfbAnswersOneByte :
    armed.config.frameMax ≤ (80 : Byte).toNat ∧ (79 : Byte).toNat < armed.config.frameMax ∧ (1 : Byte) ≠ 0 := by decide

theorem witness_PutcAppendsAByte :
    ({ keyed with plen := 68 } : State).plen.toNat = min (keyed.config.frameMax - 12) 121 ∧
    ({ keyed with plen := 67 } : State).plen.toNat < min (keyed.config.frameMax - 12) 121 ∧ (1 : Byte) ≠ 0 := by decide

theorem witness_BuilddBuildsADataFrame :
    armed.rxen = true ∧ sending.lm = .transmitting ∧
    (State.reset.rxen = false ∧ State.reset.lm ≠ .transmitting ∧ State.reset.krdy = false) ∧
    (pending.rxen = false ∧ pending.lm ≠ .transmitting ∧ pending.krdy = true ∧
      pending.plen.toNat ≤ min (pending.config.frameMax - 12) 121 ∧ 12 ≤ pending.config.frameMax) ∧
    ({ pending with plen := 68 } : State).plen.toNat ≤ min (pending.config.frameMax - 12) 121 := by decide

theorem witness_BuildsBuildsASyncFrame :
    State.reset.role = .slave ∧
    ({ armed with role := .master } : State).rxen = true ∧ ({ armed with role := .master } : State).role = .master ∧
    ({ beacon with krdy := false } : State).krdy = false ∧ beacon.role = .master ∧ beacon.rxen = false ∧
    beacon.lm ≠ .transmitting ∧ beacon.krdy = true ∧ ({ beacon with plen := 3 } : State).plen.toNat < 4 ∧
    4 ≤ ({ beacon with plen := 4 } : State).plen.toNat ∧
    ({ beacon with plen := 68 } : State).plen.toNat ≤ min (beacon.config.frameMax - 12) 121 := by decide

theorem witness_BuiltFrameDeclaresItsLength : pending.Inv ∧ beacon.Inv := ⟨pending_inv, beacon_inv⟩

theorem witness_SendEmitsTheBuiltFrame :
    armed.rxen = true ∧ sending.lm = .transmitting ∧ keyed.txlen = 0 ∧
    (built.rxen = false ∧ built.lm ≠ .transmitting ∧ built.txlen ≠ 0 ∧ built.txlen.toNat ≤ built.config.frameMax) ∧
    ({ built with txlen := 80 } : State).txlen.toNat ≤ built.config.frameMax := by decide

/-- Not armed; armed with `RXPOS` at the end of `FB`, which no run reaches; armed with room; and the three outcomes of
a stored byte: a rejected length (5, 80), a frame complete at six bytes, one still short of it. -/
theorem witness_RxbyteCollectsRejectsOrFreezes :
    ({ keyed with inbox := [.rxByte 6] } : State).inbox = .rxByte 6 :: [] ∧ keyed.rxen = false ∧
    (armed.rxen = true ∧ armed.config.frameMax ≤ ({ armed with rxpos := 80 } : State).rxpos.toNat) ∧
    armed.rxpos.toNat < armed.config.frameMax ∧
    ((5 : Byte).toNat % 128 < 6 ∧ armed.config.frameMax ≤ (0x50 : Byte).toNat % 128) ∧
    ((6 : Byte).toNat % 128 ≤ ({ armed with rxpos := 5 } : State).rxpos.toNat + 1) ∧
    ¬((6 : Byte).toNat % 128 ≤ ({ armed with rxpos := 4 } : State).rxpos.toNat + 1) := by decide

theorem witness_RxprocNeedsAFrozenFrameAndKeys : keyed.rxfrz = false ∧ frozenData.rxfrz = true ∧
    ({ frozenData with krdy := false } : State).krdy = false := by decide

/-- A sync frame that verifies, one that does not, and one with three payload bytes. -/
theorem witness_RxprocOnASyncFrame :
    (frozenSync.rxfrz = true ∧ frozenSync.krdy = true ∧ 6 ≤ frozenSync.rxpos.toNat ∧
      frozenSync.rxpos.toNat ≤ frozenSync.config.frameMax ∧ (Memory.read frozenSync.fb 0).getLsbD 7 = true) ∧
    answer (exec .rxproc frozenSync) = some 0x0002#16 ∧
    answer (exec .rxproc { frozenSync with fb := frozenSync.fb.write 3 0 }) = some 0x0004#16 ∧
    (frozenShort.rxfrz = true ∧ frozenShort.krdy = true ∧ 6 ≤ frozenShort.rxpos.toNat ∧
      frozenShort.rxpos.toNat ≤ frozenShort.config.frameMax ∧ (Memory.read frozenShort.fb 0).getLsbD 7 = true) ∧
    answer (exec .rxproc frozenShort) = some 0x0006#16 := by decide +kernel

/-- A data frame that verifies on a master, the same on a slave, and one that does not verify. -/
theorem witness_RxprocOnADataFrame :
    (frozenData.rxfrz = true ∧ frozenData.krdy = true ∧ 6 ≤ frozenData.rxpos.toNat ∧
      frozenData.rxpos.toNat ≤ frozenData.config.frameMax ∧ (Memory.read frozenData.fb 0).getLsbD 7 = false) ∧
    answer (exec .rxproc frozenData) = some 0x0001#16 ∧
    answer (exec .rxproc { frozenData with role := .slave }) = some 0x0005#16 ∧
    Memory.read frozenData.fb 1 ≠ 0 ∧
    answer (exec .rxproc { frozenData with ctr := ctrAt 6 }) = some 0x0003#16 := by decide +kernel

theorem witness_MacFailureChangesNothingElse :
    answer (exec .rxproc { frozenData with ctr := ctrAt 6 }) = some 0x0003#16 ∧
    answer (exec .rxproc { frozenSync with fb := frozenSync.fb.write 3 0 }) = some 0x0004#16 := by decide +kernel

theorem witness_DataFrameKeepsTheCountersInLockstep :
    pending.Inv ∧ receiver.Inv ∧ pending.config = receiver.config ∧ pending.keys = receiver.keys ∧
    pending.ctr = receiver.ctr ∧ pending.krdy = true ∧ receiver.krdy = true ∧ pending.hostFb = true ∧
    receiver.rxen = true ∧ receiver.rxpos = 0 :=
  ⟨pending_inv, receiver_inv, by decide, by decide, by decide, by decide, by decide, by decide, by decide, by decide⟩

theorem witness_SyncFrameAlignsTheCounters :
    beacon.Inv ∧ receiver.Inv ∧ beacon.config = receiver.config ∧ beacon.keys = receiver.keys ∧
    beacon.krdy = true ∧ receiver.krdy = true ∧ beacon.role = .master ∧ beacon.hostFb = true ∧
    4 ≤ beacon.plen.toNat ∧ receiver.rxen = true ∧ receiver.rxpos = 0 ∧ beacon.ctr ≠ receiver.ctr :=
  ⟨beacon_inv, receiver_inv, by decide, by decide, by decide, by decide, by decide, by decide, by decide, by decide,
    by decide, by decide⟩

theorem witness_FailingCommandChangesOneFlagOnly :
    (∃ t, exec (.putc 0x99) { keyed with plen := 68 } = .next t) ∧
    answer (exec (.putc 0x99) { keyed with plen := 68 }) = some 0x0600#16 ∧
    answer (exec (.putc 0x99) { keyed with plen := 67 }) = some 0x0044#16 := ⟨⟨_, rfl⟩, by decide, by decide⟩

theorem witness_ErrflagsAreSticky :
    (∃ t, step { keyed with errflags := 0x20, inbox := [.command 0x030100#24] } = .next t) ∧
    ({ keyed with errflags := 0x20, inbox := [.command 0x030100#24] } : State).errflags.getLsbD 5 = true :=
  ⟨⟨_, rfl⟩, by decide⟩

theorem witness_CommandsWithoutKeysFail : loaded.krdy = false := by decide

theorem witness_OnlyTheOwnerWritesTheFrameBuffer :
    armed.Inv ∧ armed.rxen = true ∧ sending.Inv ∧ sending.lm = .transmitting ∧
    (∃ t, exec (.wrfb 0 0x5A) armed = .next t) ∧ (∃ t, exec (.macg 0 8) sending = .next t) ∧
    (∃ t, step { sending with inbox := [.rxByte 0x0F] } = .next t) ∧ sending.rxen = false :=
  ⟨armed_inv, by decide, sending_inv, by decide, ⟨_, rfl⟩, ⟨_, rfl⟩, ⟨_, rfl⟩, by decide⟩

theorem witness_WhoWritesWhat :
    (∃ t, exec (.crypt 0 8) digits = .next t) ∧ (Instr.crypt 0 8 ≠ .reset) ∧
    ∃ t, exec (.buildd 7) pending = .next t := ⟨⟨_, rfl⟩, by decide, ⟨_, rfl⟩⟩

theorem witness_InterruptLineAndItsSources :
    frozenData.Inv ∧ frozenData.rxfrz = true ∧
    (∃ t, exec .stop frozenData = .next t ∧ t.rxfrz = false) ∧ pending.irq = false ∧ pending.Inv ∧
    (∃ t, exec (.buildd 7) pending = .next t) ∧ keyed.Idle :=
  ⟨frozenData_inv, by decide, ⟨_, rfl, rfl⟩, by decide, pending_inv, ⟨_, rfl⟩, by unfold State.Idle; decide⟩

/-- A transmission that is done, which `SEND` and `BUILDD` find with a frame built and pending. -/
def done : State := { built with lm := .txDone }

theorem done_inv : done.Inv := by
  constructor <;> decide

/-- Each command that clears a source, with success, where the source holds. -/
theorem witness_InterruptLineAndItsSources_cleared :
    done.Inv ∧ done.lm = .txDone ∧ frozenData.rxfrz = true ∧
    answer (exec .send done) = some 0x0015#16 ∧ answer (exec .rxon done) = some 0x0000#16 ∧
    answer (exec .stop frozenData) = some 0x0000#16 ∧ answer (exec .rxproc frozenData) = some 0x0001#16 ∧
    answer (exec (.buildd 7) { frozenData with plen := 9 }) = some 0x0015#16 :=
  ⟨done_inv, by decide +kernel⟩

/-- The states that stop, one for each case, are not reachable: each breaks an invariant of R30. -/
theorem witness_CommandsStopOnlyOutsideTheBuffers :
    exec (.putc 1) { keyed with plen := 69 } = .fault .outsideBuffer ∧
    exec (.buildd 1) { keyed with plen := 69 } = .fault .outsideBuffer ∧
    exec (.builds 1) { keyed with role := .master, plen := 69 } = .fault .outsideBuffer ∧
    exec .send { keyed with txlen := 81 } = .fault .outsideBuffer ∧
    exec .rxproc { keyed with rxfrz := true, rxpos := 5 } = .fault .outsideBuffer ∧ pending.Inv :=
  ⟨rfl, rfl, rfl, rfl, rfl, pending_inv⟩

/-- A load of 16 and of 8 bytes, the last offsets that fit, the first that does not, and a text. -/
theorem witness_AssemblyGivesTheCommandWord :
    (List.replicate 16 (0 : Byte)).length = 16 ∧ (List.replicate 8 (0 : Byte)).length = 8 ∧
    (255 : Byte).toNat + [(1 : Byte)].length ≤ 256 ∧ 256 < (255 : Byte).toNat + [(1 : Byte), 2].length ∧
    ∀ c ∈ [(0x4F : Byte), 0x4B], c.toNat < 128 ∧ c ≠ 0x22 ∧ c ≠ 0x3B := by decide

end Sys2Proof.Machine.Tests
end

