-- ==== Sys2Proof/Proofs/Encoding.lean ====
section
/-! PROOFS. Which command words are illegal (spec 30_encoding.md R65), in three readings: the decoder gives no command, the
word matches no row of the opcode map, one of (a) to (d) holds of its fields. -/

namespace Sys2Proof.Encoding

open Sys2Proof Sys2Proof.Machine

/-! ## What the decoder's operand checks admit -/

theorem ifZero_eq_ok_iff {x : Byte} {i j : Instr} : ifZero x i = .ok j ↔ x = 0 ∧ i = j := by
  unfold ifZero
  split_ifs with hx
  · simp [hx]
  · simp [show x ≠ 0#8 from hx]

theorem ifBothZero_eq_ok_iff {a b : Byte} {i j : Instr} : ifBothZero a b i = .ok j ↔ a = 0 ∧ b = 0 ∧ i = j := by
  unfold ifBothZero
  split_ifs with hab
  · simp [hab]
  · simpa using fun ha hb _ => hab ⟨ha, hb⟩

theorem decodeSetrole_eq_ok_iff {a b : Byte} {j : Instr} :
    decodeSetrole a b = .ok j ↔ a = 0 ∧ b.toNat ≤ 1 ∧ .setrole b = j := by
  unfold decodeSetrole
  split_ifs with ha hb
  · simp [show a ≠ 0#8 from ha]
  · simp [hb]
  · simp [not_not.mp ha, not_lt.mp hb]

/-- `XENC` has one command for each selector of R15. -/
theorem decodeXenc_eq_ok_iff {a b : Byte} {j : Instr} :
    decodeXenc a b = .ok j ↔
      a = 0 ∧ ((b = 0 ∧ .xencMac = j) ∨ (b = 1 ∧ .xencEnc = j) ∨ (b = 2 ∧ .xencMaster = j)) := by
  unfold decodeXenc
  split_ifs <;> simp_all

theorem toNat_le_two_iff (b : Byte) : b.toNat ≤ 2 ↔ b = 0 ∨ b = 1 ∨ b = 2 := by
  bv_omega

/-- The three selectors of `XENC` are the bytes up to 2. -/
theorem exists_decodeXenc_iff {a b : Byte} : (∃ j, decodeXenc a b = .ok j) ↔ a = 0 ∧ b.toNat ≤ 2 := by
  simp [decodeXenc_eq_ok_iff, toNat_le_two_iff, and_or_left, exists_or]

/-! ## The fields of an illegal word -/

/-- R65 (a) to (d) on the fields of a command word; the two lists of (b) are the commands whose `a`, and those whose `b`,
R64 writes as 0. -/
def IllegalFields (op a b : Byte) : Prop :=
  op.toNat ∉ [0x00, 0x01, 0x02, 0x03, 0x10, 0x11, 0x12, 0x13, 0x14, 0x15, 0x16, 0x20, 0x21, 0x22, 0x23, 0x24,
      0x25, 0x30, 0x31, 0x32, 0x33, 0x40, 0x41, 0x42, 0x43, 0x50, 0x51] ∨
  (a ≠ 0 ∧ op.toNat ∈ [0x00, 0x01, 0x02, 0x11, 0x16, 0x20, 0x32, 0x33, 0x40, 0x41, 0x42, 0x43, 0x50, 0x51]) ∨
  (b ≠ 0 ∧ op.toNat ∈ [0x00, 0x01, 0x03, 0x11, 0x13, 0x15, 0x31, 0x33, 0x42, 0x43, 0x50, 0x51]) ∨
  (op = 0x02 ∧ 1 < b.toNat) ∨
  (op = 0x20 ∧ 2 < b.toNat)

/-- Opcode by opcode, in the order of the decoder: `SETROLE`, `XENC`, the commands with one operand that must be zero, with
both, with none, and last the opcodes of no command. -/
theorem exists_decodeFields_iff (op a b : Byte) : (∃ i, decodeFields op a b = .ok i) ↔ ¬IllegalFields op a b := by
  unfold decodeFields
  split
  case h_3 => simp [IllegalFields, decodeSetrole_eq_ok_iff]
  case h_12 => simp [IllegalFields, exists_decodeXenc_iff]
  case h_4 | h_8 | h_10 | h_11 | h_19 | h_20 | h_22 | h_23 => simp [IllegalFields, ifZero_eq_ok_iff]
  case h_1 | h_2 | h_6 | h_21 | h_24 | h_25 | h_26 | h_27 => simp [IllegalFields, ifBothZero_eq_ok_iff]
  case h_5 | h_7 | h_9 | h_13 | h_14 | h_15 | h_16 | h_17 | h_18 => simp [IllegalFields]
  case h_28 =>
    refine iff_of_false (by simp) (not_not_intro (.inl ?_))
    simp_all [BitVec.toNat_eq_nat]

theorem decode_ne_ok_iff_illegalFields (w : CommandWord) :
    (∀ i, decode w ≠ .ok i) ↔ IllegalFields (opField w) (aField w) (bField w) :=
  not_exists.symm.trans ((exists_decodeFields_iff _ _ _).not.trans not_not)

/-! ## A decoded word spells its command -/

/-- The same six groups of opcodes. -/
theorem encode_of_decodeFields {op a b : Byte} {i : Instr} (h : decodeFields op a b = .ok i) :
    encode i = commandWord op a b ∧ i.wellFormed = true := by
  unfold decodeFields at h
  split at h
  case h_3 =>
    obtain ⟨rfl, hb, rfl⟩ := decodeSetrole_eq_ok_iff.mp h
    exact ⟨rfl, decide_eq_true hb⟩
  case h_12 =>
    obtain ⟨rfl, ⟨rfl, rfl⟩ | ⟨rfl, rfl⟩ | ⟨rfl, rfl⟩⟩ := decodeXenc_eq_ok_iff.mp h <;> exact ⟨rfl, rfl⟩
  case h_4 | h_8 | h_10 | h_11 | h_19 | h_20 | h_22 | h_23 =>
    obtain ⟨rfl, rfl⟩ := ifZero_eq_ok_iff.mp h
    exact ⟨rfl, rfl⟩
  case h_1 | h_2 | h_6 | h_21 | h_24 | h_25 | h_26 | h_27 =>
    obtain ⟨rfl, rfl, rfl⟩ := ifBothZero_eq_ok_iff.mp h
    exact ⟨rfl, rfl⟩
  case h_5 | h_7 | h_9 | h_13 | h_14 | h_15 | h_16 | h_17 | h_18 =>
    cases h
    exact ⟨rfl, rfl⟩
  case h_28 => cases h

theorem encode_of_decode {w : CommandWord} {i : Instr} (h : decode w = .ok i) : encode i = w ∧ i.wellFormed = true := by
  have hw := encode_of_decodeFields h
  rwa [commandWord_fields] at hw

/-! ## The rows of the opcode map -/

theorem opcodeRow_mem_opcodeTable (i : Instr) : opcodeRow i ∈ opcodeTable := by
  cases i <;> simp [opcodeTable, opcodeRow]

/-- Every row of the table is the row of a command. -/
theorem exists_opcodeRow_of_mem : ∀ r ∈ opcodeTable, ∃ i, opcodeRow i = r := by
  simp [opcodeTable]

/-- The one-command lemmas of Laws/PerInstr, for every command. -/
theorem encode_matches_row (i : Instr) : Laws.WordMatchesRow.Statement i :=
  match i with
  | .nop => Laws.WordMatchesRow.nop
  | .reset => Laws.WordMatchesRow.reset
  | .setrole role => Laws.WordMatchesRow.setrole role
  | .rdcsr n => Laws.WordMatchesRow.rdcsr n
  | .wrmk idx d => Laws.WordMatchesRow.wrmk idx d
  | .derive => Laws.WordMatchesRow.derive
  | .wrctr idx d => Laws.WordMatchesRow.wrctr idx d
  | .rdctr idx => Laws.WordMatchesRow.rdctr idx
  | .wrblk idx d => Laws.WordMatchesRow.wrblk idx d
  | .rdblk idx => Laws.WordMatchesRow.rdblk idx
  | .addcnt k => Laws.WordMatchesRow.addcnt k
  | .xencMac => Laws.WordMatchesRow.xencMac
  | .xencEnc => Laws.WordMatchesRow.xencEnc
  | .xencMaster => Laws.WordMatchesRow.xencMaster
  | .macg off len => Laws.WordMatchesRow.macg off len
  | .macgc off len => Laws.WordMatchesRow.macgc off len
  | .macv off len => Laws.WordMatchesRow.macv off len
  | .macvc off len => Laws.WordMatchesRow.macvc off len
  | .crypt off len => Laws.WordMatchesRow.crypt off len
  | .wrfb idx d => Laws.WordMatchesRow.wrfb idx d
  | .rdfb idx => Laws.WordMatchesRow.rdfb idx
  | .putc d => Laws.WordMatchesRow.putc d
  | .clrpb => Laws.WordMatchesRow.clrpb
  | .buildd addr => Laws.WordMatchesRow.buildd addr
  | .builds addr => Laws.WordMatchesRow.builds addr
  | .send => Laws.WordMatchesRow.send
  | .rxproc => Laws.WordMatchesRow.rxproc
  | .rxon => Laws.WordMatchesRow.rxon
  | .stop => Laws.WordMatchesRow.stop

/-- A mask compares field by field. -/
theorem and_eq_commandWord_iff (w : CommandWord) (mop ma mb op a b : Byte) :
    w &&& commandWord mop ma mb = commandWord op a b ↔
      opField w &&& mop = op ∧ aField w &&& ma = a ∧ bField w &&& mb = b := by
  conv_lhs => rw [← commandWord_fields w]
  rw [and_commandWord, commandWord_inj]

theorem and_ones_eq {x y : Byte} (h : x &&& 0xFF#8 = y) : x = y := by
  rw [← h]
  exact BitVec.and_allOnes.symm

/-- A row that is one word. -/
theorem decode_of_matches_word {w p : CommandWord} (h : w &&& 0xFFFFFF = p) : decode w = decode p := by
  rw [← h]
  exact congrArg decode BitVec.and_allOnes.symm

/-- A row with two operands fixes the opcode alone. -/
theorem decode_of_matches_op (op : Byte) {w : CommandWord} (h : w &&& 0xFF0000 = commandWord op 0 0) :
    decode w = decodeFields op (aField w) (bField w) := by
  obtain ⟨hop, -, -⟩ := (and_eq_commandWord_iff w 0xFF 0 0 op 0 0).mp h
  rw [decode, and_ones_eq hop]

/-- A row whose `b` must be zero. -/
theorem decode_of_matches_op_b (op : Byte) {w : CommandWord} (h : w &&& 0xFF00FF = commandWord op 0 0) :
    decode w = decodeFields op (aField w) 0 := by
  obtain ⟨hop, -, hb⟩ := (and_eq_commandWord_iff w 0xFF 0 0xFF op 0 0).mp h
  rw [decode, and_ones_eq hop, and_ones_eq hb]

/-- A row whose `a` must be zero. -/
theorem decode_of_matches_op_a (op : Byte) {w : CommandWord} (h : w &&& 0xFFFF00 = commandWord op 0 0) :
    decode w = decodeFields op 0 (bField w) := by
  obtain ⟨hop, ha, -⟩ := (and_eq_commandWord_iff w 0xFF 0xFF 0 op 0 0).mp h
  rw [decode, and_ones_eq hop, and_ones_eq ha]

theorem and_mask_low_bit {x : Byte} (h : x &&& 0xFE#8 = 0#8) : x = 0 ∨ x = 1 := by
  revert x
  decide

/-- The row of `SETROLE`, whose mask leaves the low bit of `b`. -/
theorem decode_of_matches_setrole {w : CommandWord} (h : w &&& 0xFFFFFE = 0x020000) :
    decode w = .ok (.setrole (bField w)) := by
  obtain ⟨hop, ha, hb⟩ := (and_eq_commandWord_iff w 0xFF 0xFF 0xFE 0x02 0 0).mp h
  rw [decode, and_ones_eq hop, and_ones_eq ha]
  refine decodeSetrole_eq_ok_iff.mpr ⟨rfl, ?_, rfl⟩
  obtain hrole | hrole := and_mask_low_bit hb <;> simp [hrole]

/-- A word of the row of `i` decodes to a command of that row, with the operands the mask leaves open. -/
theorem decode_of_matches_row (i : Instr) {w : CommandWord} (h : w &&& (opcodeRow i).mask = (opcodeRow i).pattern) :
    ∃ j, decode w = .ok j ∧ opcodeRow j = opcodeRow i := by
  cases i with
  | nop | reset | derive | xencMac | xencEnc | xencMaster | clrpb | send | rxproc | rxon | stop =>
    exact ⟨_, decode_of_matches_word h, rfl⟩
  | setrole _ => exact ⟨.setrole (bField w), decode_of_matches_setrole h, rfl⟩
  | rdcsr _ => exact ⟨.rdcsr (aField w), decode_of_matches_op_b 0x03 h, rfl⟩
  | wrmk _ _ => exact ⟨.wrmk (aField w) (bField w), decode_of_matches_op 0x10 h, rfl⟩
  | wrctr _ _ => exact ⟨.wrctr (aField w) (bField w), decode_of_matches_op 0x12 h, rfl⟩
  | rdctr _ => exact ⟨.rdctr (aField w), decode_of_matches_op_b 0x13 h, rfl⟩
  | wrblk _ _ => exact ⟨.wrblk (aField w) (bField w), decode_of_matches_op 0x14 h, rfl⟩
  | rdblk _ => exact ⟨.rdblk (aField w), decode_of_matches_op_b 0x15 h, rfl⟩
  | addcnt _ => exact ⟨.addcnt (bField w), decode_of_matches_op_a 0x16 h, rfl⟩
  | macg _ _ => exact ⟨.macg (aField w) (bField w), decode_of_matches_op 0x21 h, rfl⟩
  | macgc _ _ => exact ⟨.macgc (aField w) (bField w), decode_of_matches_op 0x22 h, rfl⟩
  | macv _ _ => exact ⟨.macv (aField w) (bField w), decode_of_matches_op 0x23 h, rfl⟩
  | macvc _ _ => exact ⟨.macvc (aField w) (bField w), decode_of_matches_op 0x24 h, rfl⟩
  | crypt _ _ => exact ⟨.crypt (aField w) (bField w), decode_of_matches_op 0x25 h, rfl⟩
  | wrfb _ _ => exact ⟨.wrfb (aField w) (bField w), decode_of_matches_op 0x30 h, rfl⟩
  | rdfb _ => exact ⟨.rdfb (aField w), decode_of_matches_op_b 0x31 h, rfl⟩
  | putc _ => exact ⟨.putc (bField w), decode_of_matches_op_a 0x32 h, rfl⟩
  | buildd _ => exact ⟨.buildd (bField w), decode_of_matches_op_a 0x40 h, rfl⟩
  | builds _ => exact ⟨.builds (bField w), decode_of_matches_op_a 0x41 h, rfl⟩

/-- The decoder agrees with the opcode map on which words are commands. -/
theorem decode_ne_ok_iff_matches_no_row (w : CommandWord) :
    (∀ i, decode w ≠ .ok i) ↔ ∀ r ∈ opcodeTable, w &&& r.mask ≠ r.pattern := by
  constructor
  · intro hillegal r hr hmatch
    obtain ⟨i, rfl⟩ := exists_opcodeRow_of_mem r hr
    obtain ⟨j, hj, -⟩ := decode_of_matches_row i hmatch
    exact hillegal j hj
  · intro hnorow i hi
    obtain ⟨rfl, hwf⟩ := encode_of_decode hi
    exact hnorow _ (opcodeRow_mem_opcodeTable i) (encode_matches_row i hwf)

/-! ## The effect of an illegal word -/

theorem decode_eq_error {w : CommandWord} (h : ∀ i, decode w ≠ .ok i) : ∃ e, decode w = .error e := by
  cases hw : decode w with
  | error e => exact ⟨e, rfl⟩
  | ok i => exact absurd hw (h i)

/-- An illegal word fails with `ERR_ILLEGAL`, whatever the reason. -/
theorem acceptCommand_of_illegal {w : CommandWord} (h : ∀ i, decode w ≠ .ok i) (s : State) :
    acceptCommand w s = fail .illegal s := by
  obtain ⟨e, he⟩ := decode_eq_error h
  rw [acceptCommand, he]

/-- Settles O4: the decoder is compared with (a) to (d) opcode by opcode, and with the rows through the encoder in one
direction and through the shape of each row's mask in the other. -/
theorem illegalWordMatchesNoRowAndAnswersIllegal : Obligations.IllegalWordMatchesNoRowAndAnswersIllegal := by
  intro w
  refine ⟨decode_ne_ok_iff_matches_no_row w, decode_ne_ok_iff_illegalFields w, ?_⟩
  intro s rest hillegal hinbox
  rw [step_of_inbox hinbox]
  exact (acceptCommand_of_illegal hillegal _).trans (fail_eq _ _)

end Sys2Proof.Encoding
end

section
/-! PROOFS. The commands on the block register (spec 40_xtea.md R83 to R85), and what a command answers when its word is
illegal or it fails. -/

namespace Sys2Proof.Xtea

open Sys2Proof Sys2Proof.Machine

/-! ## How a command answers -/

theorem responseWord_code_zero (e : CommandError) : responseWord e.code 0 = BitVec.ofNat 16 (e.code.toNat * 256) := by
  cases e <;> rfl

/-- The exception entry gives the outcome that R191 describes, for each of the six errors. -/
theorem failsWith_fail (e : CommandError) (s : State) : FailsWith (fail e s) s e.code.toNat := by
  obtain ⟨hflag, -, -⟩ := flag_eq_bit e
  rw [FailsWith, fail_eq, hflag, responseWord_code_zero]

/-- A success with no data to give. -/
theorem succeed_zero (s : State) : succeed s 0 = .next { s with responses := s.responses ++ [0x0000#16] } := rfl

/-- A word whose fields are illegal in the sense of R65 fails with `ERR_ILLEGAL`. -/
theorem failsWith_of_illegalFields {op a b : Byte} (h : Encoding.IllegalFields op a b) (s : State) :
    FailsWith (acceptCommand (commandWord op a b) s) s 1 := by
  have hillegal : ∀ i, decode (commandWord op a b) ≠ .ok i := by
    rw [Encoding.decode_ne_ok_iff_illegalFields]
    simpa using h
  rw [Encoding.acceptCommand_of_illegal hillegal]
  exact failsWith_fail .illegal s

/-! ## `XENC` -/

theorem encryptBlk_of_key_absent {k : KeySel} {s : State} (h : keyPresent s k = false) :
    encryptBlk k s = fail .nokey s := if_pos h

theorem encryptBlk_of_key_present {k : KeySel} {s : State} (h : keyPresent s k = true) :
    encryptBlk k s = .next { s with
      blk := blockEncrypt s.config (slice s.keys (keyOffset k) 16) s.blk
      responses := s.responses ++ [0x0000#16] } := by
  rw [encryptBlk, if_neg (by simp [h]), succeed_zero, encryptUnder, keyOperand]

theorem failsWith_encryptBlk {k : KeySel} {s : State} (h : keyPresent s k = false) :
    FailsWith (encryptBlk k s) s 4 := by
  rw [encryptBlk_of_key_absent h]
  exact failsWith_fail .nokey s

theorem illegalFields_xenc {a b : Byte} (h : a ≠ 0 ∨ 2 < b.toNat) : Encoding.IllegalFields 0x20 a b := by
  obtain ha | hb := h
  · exact .inr (.inl ⟨ha, by decide⟩)
  · exact .inr (.inr (.inr (.inr ⟨rfl, hb⟩)))

/-- Settles O26: `XENC` is one command over the three key operands, which fails without its key and encrypts with it. -/
theorem xencEncryptsTheBlock : Obligations.XencEncryptsTheBlock := by
  refine ⟨rfl, rfl, rfl, fun a b s h => failsWith_of_illegalFields (illegalFields_xenc h) s, fun s => ⟨?_, ?_, ?_, ?_⟩⟩
  · intro hkrdy
    exact ⟨failsWith_encryptBlk (k := .mac) hkrdy, failsWith_encryptBlk (k := .enc) hkrdy⟩
  · intro hmask
    exact failsWith_encryptBlk (k := .master) (decide_eq_false hmask)
  · intro hkrdy
    exact ⟨encryptBlk_of_key_present (k := .mac) hkrdy, encryptBlk_of_key_present (k := .enc) hkrdy⟩
  · intro hmask
    exact encryptBlk_of_key_present (k := .master) (decide_eq_true hmask)

/-! ## `WRBLK` and `RDBLK` -/

theorem inSpace_eq_false {idx : Byte} {size : Nat} (h : size ≤ idx.toNat) : inSpace idx size = false :=
  decide_eq_false (not_lt.mpr h)

theorem execWrblk_of_outside {idx : Byte} (d : Byte) (s : State) (h : 8 ≤ idx.toNat) :
    execWrblk idx d s = fail .range s := if_pos (inSpace_eq_false h)

theorem execWrblk_of_inside {idx : Byte} (d : Byte) (s : State) (h : idx.toNat < 8) :
    execWrblk idx d s = .next { s with
      blk := setByte s.blk idx.toNat d, responses := s.responses ++ [0x0000#16] } := by
  rw [execWrblk, if_neg (by simp [(inSpace_iff idx 8).mpr h]), succeed_zero]

theorem execRdblk_of_outside {idx : Byte} (s : State) (h : 8 ≤ idx.toNat) :
    execRdblk idx s = fail .range s := if_pos (inSpace_eq_false h)

theorem execRdblk_of_inside {idx : Byte} (s : State) (h : idx.toNat < 8) :
    execRdblk idx s = .next { s with responses := s.responses ++ [responseWord 0 s.blk[idx.toNat]] } := by
  rw [execRdblk, if_neg (by simp [(inSpace_iff idx 8).mpr h]), succeed_eq, byteAt_eq_getElem s.blk idx.toNat h]

theorem illegalFields_rdblk (idx : Byte) {b : Byte} (h : b ≠ 0) : Encoding.IllegalFields 0x15 idx b :=
  .inr (.inr (.inl ⟨h, by decide⟩))

/-- Settles O27: outside the block both commands fail, inside it the byte law of `setByte` says what `WRBLK` wrote. -/
theorem blockRegisterByteAccess : Obligations.BlockRegisterByteAccess := by
  refine ⟨fun _ _ => rfl, fun _ => rfl, fun idx b s hb => failsWith_of_illegalFields (illegalFields_rdblk idx hb) s,
    fun idx d s => ⟨?_, ?_, ?_⟩⟩
  · intro hout
    constructor
    · rw [exec, execWrblk_of_outside d s hout]
      exact failsWith_fail .range s
    · rw [exec, execRdblk_of_outside s hout]
      exact failsWith_fail .range s
  · intro hin
    exact ⟨setByte s.blk idx.toNat d, execWrblk_of_inside d s hin, fun j _ => byteAt_setByte s.blk idx.toNat j d hin⟩
  · exact execRdblk_of_inside s

end Sys2Proof.Xtea
end

section
/-! PROOFS. The key schedule's two rules for one byte at a time: the master key's load (spec 41_key_schedule.md R90) and
the doubling of the subkeys (R91). -/

namespace Sys2Proof.KeySchedule

open Sys2Proof Sys2Proof.Machine

/-! ## `WRMK` -/

/-- Setting one bit of a mask sets that bit and no other. -/
theorem getLsbD_or_bit {w : Nat} (m : BitVec w) (i k : Nat) (hk : k < w) :
    (m ||| (1#w <<< i)).getLsbD k = (decide (k = i) || m.getLsbD k) := by
  have hbit : (1#w <<< i).getLsbD k = decide (k = i) := by
    rw [← BitVec.twoPow_eq, BitVec.getLsbD_twoPow]
    by_cases h : k = i
    · simp [← h, hk]
    · simp [h, Ne.symm h]
  rw [BitVec.getLsbD_or, hbit, Bool.or_comm]

theorem execWrmk_of_outside {idx : Byte} (d : Byte) (s : State) (h : 16 ≤ idx.toNat) :
    execWrmk idx d s = fail .range s := if_pos (Xtea.inSpace_eq_false h)

theorem execWrmk_of_inside {idx : Byte} (d : Byte) (s : State) (h : idx.toNat < 16) :
    execWrmk idx d s = .next { s with
      keys := setByte s.keys (24 + idx.toNat) d, mkmask := s.mkmask ||| (1#16 <<< idx.toNat), krdy := false,
      responses := s.responses ++ [0x0000#16] } := by
  rw [execWrmk, if_neg (by simp [(inSpace_iff idx 16).mpr h]), Xtea.succeed_zero]

/-- Settles O20: outside the master key the command fails; inside it the byte law of `setByte` says what became of `KEYS`,
and the bit law of the mask what became of `MKMASK`. -/
theorem wrmkWritesAMasterKeyByte : Obligations.WrmkWritesAMasterKeyByte := by
  refine ⟨fun _ _ => rfl, fun idx d s => ⟨?_, ?_⟩⟩
  · intro hout
    rw [exec, execWrmk_of_outside d s hout]
    exact Xtea.failsWith_fail .range s
  · intro hin
    have hkey : 24 + idx.toNat < 40 := by omega
    exact ⟨_, _, execWrmk_of_inside d s hin, fun j _ => byteAt_setByte s.keys (24 + idx.toNat) j d hkey,
      getLsbD_or_bit s.mkmask idx.toNat⟩

/-! ## The doubling, bit by bit

Bit `b` of byte `i` is bit `8 * (7 - i) + b` of the block as a big-endian number. -/

theorem getLsbD_append_byte_low {w : Nat} (v : BitVec w) (d : Byte) {b : Nat} (hb : b < 8) :
    (v ++ d).getLsbD b = d.getLsbD b := by
  rw [BitVec.getLsbD_append, if_pos hb]

theorem getLsbD_append_byte_high {w : Nat} (v : BitVec w) (d : Byte) (n : Nat) :
    (v ++ d).getLsbD (n + 8) = v.getLsbD n := by
  rw [BitVec.getLsbD_append, if_neg (by omega), Nat.add_sub_cancel]

/-- Byte `i` is reached past the `7 - i` bytes below it. -/
theorem getLsbD_be64 (x : Block) {i b : Nat} (hi : i < 8) (hb : b < 8) :
    (be64 x).getLsbD (8 * (7 - i) + b) = (byteAt x i).getLsbD b := by
  rw [add_comm, be64]
  interval_cases i <;>
    simp only [Nat.reduceSub, Nat.reduceMul, add_zero, getLsbD_append_byte_high, getLsbD_append_byte_low _ _ hb]

theorem getLsbD_byteAt_bytesBe64 (y : BitVec 64) {i b : Nat} (hi : i < 8) (hb : b < 8) :
    (byteAt (bytesBe64 y) i).getLsbD b = y.getLsbD (8 * (7 - i) + b) := by
  simp [bytesBe64, hi, hb]

theorem getLsbD_shiftLeft_one {w : Nat} (v : BitVec w) {n : Nat} (h : n + 1 < w) :
    (v <<< 1).getLsbD (n + 1) = v.getLsbD n := by
  rw [BitVec.getLsbD_shiftLeft]
  simp [h]

theorem getLsbD_shiftLeft_one_zero {w : Nat} (v : BitVec w) : (v <<< 1).getLsbD 0 = false := by
  simp

/-- The block as a number, shifted left by one: the left shift of R91 before the fix-up. -/
def shiftBlock (x : Block) : Block := bytesBe64 (be64 x <<< 1)

/-- Above the lowest bit, each byte is shifted within itself. -/
theorem getLsbD_byteAt_shiftBlock_succ (x : Block) {i b : Nat} (hi : i < 8) (hb : b + 1 < 8) :
    (byteAt (shiftBlock x) i).getLsbD (b + 1) = (byteAt x i).getLsbD b := by
  rw [shiftBlock, getLsbD_byteAt_bytesBe64 _ hi hb, ← add_assoc, getLsbD_shiftLeft_one _ (by omega),
    getLsbD_be64 x hi (by omega)]

/-- The lowest bit of a byte is the top bit of the byte after it. -/
theorem getLsbD_byteAt_shiftBlock_zero (x : Block) {i : Nat} (hi : i < 7) :
    (byteAt (shiftBlock x) i).getLsbD 0 = (byteAt x (i + 1)).getLsbD 7 := by
  have hpos : 8 * (7 - i) + 0 = 8 * (7 - (i + 1)) + 7 + 1 := by omega
  rw [shiftBlock, getLsbD_byteAt_bytesBe64 _ (by omega) (by omega), hpos, getLsbD_shiftLeft_one _ (by omega),
    getLsbD_be64 x (by omega) (by omega)]

/-- Nothing is shifted into the last byte. -/
theorem getLsbD_byteAt_shiftBlock_last (x : Block) : (byteAt (shiftBlock x) 7).getLsbD 0 = false := by
  rw [shiftBlock, getLsbD_byteAt_bytesBe64 _ (by omega) (by omega)]
  exact getLsbD_shiftLeft_one_zero _

/-! ## The doubling, byte by byte -/

theorem byteAt_shiftBlock (x : Block) {i : Nat} (hi : i < 7) :
    byteAt (shiftBlock x) i = (byteAt x i <<< 1) ||| (byteAt x (i + 1) >>> 7) := by
  apply BitVec.eq_of_getLsbD_eq
  intro b hb
  rw [BitVec.getLsbD_or, BitVec.getLsbD_ushiftRight]
  cases b with
  | zero => rw [getLsbD_byteAt_shiftBlock_zero x hi, getLsbD_shiftLeft_one_zero, Bool.false_or]
  | succ b =>
    have hout : (byteAt x (i + 1)).getLsbD (7 + (b + 1)) = false := BitVec.getLsbD_of_ge _ _ (by omega)
    rw [getLsbD_byteAt_shiftBlock_succ x (by omega) hb, getLsbD_shiftLeft_one _ hb, hout, Bool.or_false]

theorem byteAt_shiftBlock_last (x : Block) : byteAt (shiftBlock x) 7 = byteAt x 7 <<< 1 := by
  apply BitVec.eq_of_getLsbD_eq
  intro b hb
  cases b with
  | zero => rw [getLsbD_byteAt_shiftBlock_last, getLsbD_shiftLeft_one_zero]
  | succ b => rw [getLsbD_byteAt_shiftBlock_succ x (by omega) hb, getLsbD_shiftLeft_one _ hb]

/-- R91 with the bit that the shift loses read off byte 0. -/
theorem dbl_eq (rb : Byte) (x : Block) :
    dbl rb x = if (byteAt x 0).getLsbD 7 then setByte (shiftBlock x) 7 (byteAt (shiftBlock x) 7 ^^^ rb)
      else shiftBlock x := by
  have htop : (be64 x).getLsbD 63 = (byteAt x 0).getLsbD 7 := getLsbD_be64 x (i := 0) (b := 7) (by omega) (by omega)
  rw [← htop]
  rfl

/-- The fix-up of R91 touches the last byte alone. -/
theorem byteAt_dbl (rb : Byte) (x : Block) (i : Nat) :
    byteAt (dbl rb x) i =
      byteAt (shiftBlock x) i ^^^ (if i = 7 ∧ (byteAt x 0).getLsbD 7 = true then rb else 0) := by
  rw [dbl_eq]
  cases (byteAt x 0).getLsbD 7 with
  | false => simp
  | true => by_cases hi : i = 7 <;> simp [hi, byteAt_setByte]

/-- Settles O22: the shift byte by byte, and the fix-up, which is nothing below byte 7. -/
theorem doublingByteByByte : Obligations.DoublingByteByByte := by
  intro rb x
  constructor
  · intro i hi
    have hne : i ≠ 7 := by omega
    simp [byteAt_dbl, hne, byteAt_shiftBlock x hi]
  · simp [byteAt_dbl, byteAt_shiftBlock_last]

end Sys2Proof.KeySchedule
end

section
/-! PROOFS. The commands on the counter register (spec 43_ctr.md R118 to R120). -/

namespace Sys2Proof.Ctr

open Sys2Proof Sys2Proof.Machine

/-! ## `ADDCNT` -/

/-- The time bytes of R17 are out of the count's reach. -/
theorem byteAt_addCnt_time (c : Block) (k : Word) {j : Nat} (hj : j < 4) : byteAt (addCnt c k) j = byteAt c j := by
  rw [addCnt, byteAt_withCnt, if_pos hj]

/-- The operand is a byte widened with zeros, so that the count grows by its value. -/
theorem toNat_pktCnt_addCnt_byte (c : Block) (k : Byte) :
    (pktCnt (addCnt c (k.setWidth 32))).toNat = ((pktCnt c).toNat + k.toNat) % 2 ^ 32 := by
  rw [pktCnt_addCnt, BitVec.toNat_add, BitVec.toNat_setWidth_of_le (by decide)]

theorem illegalFields_addcnt {a : Byte} (k : Byte) (h : a ≠ 0) : Encoding.IllegalFields 0x16 a k :=
  .inr (.inl ⟨h, by decide⟩)

/-- Settles O35: `ADDCNT` succeeds in every state, and the laws of `addCnt` say what became of each part of `CTR`. -/
theorem addcntAddsToThePacketCount : Obligations.AddcntAddsToThePacketCount := by
  refine ⟨fun _ => rfl, fun a k s ha => Xtea.failsWith_of_illegalFields (illegalFields_addcnt k ha) s,
    fun k s => ⟨addCnt s.ctr (k.setWidth 32), ?_, ?_, ?_, ?_⟩⟩
  · rw [exec, execAddcnt, Xtea.succeed_zero]
  · exact fun j hj => byteAt_addCnt_time s.ctr _ hj
  · exact toNat_pktCnt_addCnt_byte s.ctr k
  · rintro rfl
    exact addCnt_zero s.ctr

/-! ## `WRCTR` and `RDCTR` -/

theorem execWrctr_of_outside {idx : Byte} (d : Byte) (s : State) (h : 8 ≤ idx.toNat) :
    execWrctr idx d s = fail .range s := if_pos (Xtea.inSpace_eq_false h)

theorem execWrctr_of_inside {idx : Byte} (d : Byte) (s : State) (h : idx.toNat < 8) :
    execWrctr idx d s = .next { s with
      ctr := setByte s.ctr idx.toNat d, responses := s.responses ++ [0x0000#16] } := by
  rw [execWrctr, if_neg (by simp [(inSpace_iff idx 8).mpr h]), Xtea.succeed_zero]

theorem execRdctr_of_outside {idx : Byte} (s : State) (h : 8 ≤ idx.toNat) :
    execRdctr idx s = fail .range s := if_pos (Xtea.inSpace_eq_false h)

theorem execRdctr_of_inside {idx : Byte} (s : State) (h : idx.toNat < 8) :
    execRdctr idx s = .next { s with responses := s.responses ++ [responseWord 0 s.ctr[idx.toNat]] } := by
  rw [execRdctr, if_neg (by simp [(inSpace_iff idx 8).mpr h]), succeed_eq, byteAt_eq_getElem s.ctr idx.toNat h]

theorem illegalFields_rdctr (idx : Byte) {b : Byte} (h : b ≠ 0) : Encoding.IllegalFields 0x13 idx b :=
  .inr (.inr (.inl ⟨h, by decide⟩))

/-- Settles O34: outside the counter both commands fail; inside it `RDCTR` answers the byte, and the byte law of `setByte`
says what `WRCTR` wrote. -/
theorem counterRegisterByteAccess : Obligations.CounterRegisterByteAccess := by
  refine ⟨fun _ _ => rfl, fun _ => rfl, fun idx b s hb => Xtea.failsWith_of_illegalFields (illegalFields_rdctr idx hb) s,
    fun idx d s => ⟨?outside, ?write, ?read⟩⟩
  case outside =>
    intro hout
    rw [exec, exec, execWrctr_of_outside d s hout, execRdctr_of_outside s hout]
    exact ⟨Xtea.failsWith_fail .range s, Xtea.failsWith_fail .range s⟩
  case write =>
    intro hin
    exact ⟨_, execWrctr_of_inside d s hin, fun j _ => byteAt_setByte s.ctr idx.toNat j d hin⟩
  case read => exact execRdctr_of_inside s

end Sys2Proof.Ctr
end

section
/-! PROOFS. The commands that access the frame buffer byte by byte (spec 44_buffers.md R125, R126). -/

namespace Sys2Proof.Buffers

open Sys2Proof Sys2Proof.Machine

/-! ## `WRFB` -/

/-- R44: the deframer or the transmitter owns the frame buffer. -/
theorem hostFb_eq_false_iff (s : State) : s.hostFb = false ↔ s.rxen = true ∨ s.lm = .transmitting := by
  rw [← Bool.not_eq_true, hostFb_iff, not_and_or, Bool.not_eq_false, not_not]

theorem execWrfb_of_not_owned (idx d : Byte) {s : State} (h : s.hostFb = false) :
    execWrfb idx d s = fail .state s := if_pos h

theorem execWrfb_of_outside {idx : Byte} (d : Byte) {s : State} (hown : s.hostFb = true)
    (h : s.config.frameMax ≤ idx.toNat) : execWrfb idx d s = fail .range s := by
  rw [execWrfb, if_neg (by simp [hown]), if_pos (Xtea.inSpace_eq_false h)]

theorem execWrfb_of_inside {idx : Byte} (d : Byte) {s : State} (hown : s.hostFb = true)
    (h : idx.toNat < s.config.frameMax) :
    execWrfb idx d s = .next { s with
      fb := s.fb.write idx.toNat d, responses := s.responses ++ [0x0000#16] } := by
  rw [execWrfb, if_neg (by simp [hown]), if_neg (by simp [(inSpace_iff idx s.config.frameMax).mpr h]),
    Xtea.succeed_zero]

/-- Settles O38: the ownership check comes before the range check, and the byte law of `Memory.write` says what became of
the buffer. -/
theorem wrfbWritesOneByte : Obligations.WrfbWritesOneByte := by
  refine ⟨fun _ _ => rfl, fun idx d s => ⟨?notOwned, ?outside, ?write⟩⟩
  case notOwned =>
    intro hbusy
    rw [exec, execWrfb_of_not_owned idx d ((hostFb_eq_false_iff s).mpr hbusy)]
    exact Xtea.failsWith_fail .state s
  case outside =>
    intro hrxen hlm hout
    rw [exec, execWrfb_of_outside d ((hostFb_iff s).mpr ⟨hrxen, hlm⟩) hout]
    exact Xtea.failsWith_fail .range s
  case write =>
    intro hrxen hlm hin
    exact ⟨_, execWrfb_of_inside d ((hostFb_iff s).mpr ⟨hrxen, hlm⟩) hin,
      fun a => read_write s.fb idx.toNat a d⟩

/-! ## `RDFB` -/

theorem execRdfb_of_outside {idx : Byte} {s : State} (h : s.config.frameMax ≤ idx.toNat) :
    execRdfb idx s = fail .range s := if_pos (Xtea.inSpace_eq_false h)

theorem execRdfb_of_inside {idx : Byte} {s : State} (h : idx.toNat < s.config.frameMax) :
    execRdfb idx s = .next { s with
      responses := s.responses ++ [responseWord 0 (Memory.read s.fb idx.toNat)] } := by
  rw [execRdfb, if_neg (by simp [(inSpace_iff idx s.config.frameMax).mpr h]), succeed_eq]

theorem illegalFields_rdfb (idx : Byte) {b : Byte} (h : b ≠ 0) : Encoding.IllegalFields 0x31 idx b :=
  .inr (.inr (.inl ⟨h, by decide⟩))

/-- Settles O39: the range check is the only one, so that the answer does not depend on who owns the buffer. -/
theorem rdfbAnswersOneByte : Obligations.RdfbAnswersOneByte := by
  refine ⟨fun _ => rfl, fun idx b s hb => Xtea.failsWith_of_illegalFields (illegalFields_rdfb idx hb) s,
    fun idx s => ⟨?outside, ?read⟩⟩
  case outside =>
    intro hout
    rw [exec, execRdfb_of_outside hout]
    exact Xtea.failsWith_fail .range s
  case read => exact execRdfb_of_inside

end Sys2Proof.Buffers
end

section
/-! PROOFS. The receiving side of the framer: the radio event that brings a byte (spec 45_framer.md R147), and what
`RXPROC` leaves alone when a frame does not verify (R153). -/

namespace Sys2Proof.Framer

open Sys2Proof Sys2Proof.Machine

/-! ## A received byte -/

theorem receiveByte_of_not_armed (b : Byte) {s : State} (h : s.rxen = false) : receiveByte b s = s := if_pos h

theorem receiveByte_of_full (b : Byte) {s : State} (harmed : s.rxen = true)
    (hfull : s.config.frameMax ≤ s.rxpos.toNat) : receiveByte b s = { s with rxpos := 0, rxrej := true } := by
  rw [receiveByte, if_neg (by simp [harmed]), if_pos hfull, rejectFrame]

/-- R147 where the byte is stored: the declared length of the buffer with the byte in it decides. -/
theorem receiveByte_of_room (b : Byte) {s : State} (harmed : s.rxen = true)
    (hroom : s.rxpos.toNat < s.config.frameMax) :
    let fb := s.fb.write s.rxpos.toNat b
    receiveByte b s =
      if s.config.frameMax ≤ declaredLength fb ∨ declaredLength fb < 6 then
        { s with fb := fb, rxpos := 0, rxrej := true }
      else if declaredLength fb ≤ s.rxpos.toNat + 1 then
        { s with fb := fb, rxpos := s.rxpos + 1, rxen := false, rxfrz := true }
      else { s with fb := fb, rxpos := s.rxpos + 1 } := by
  dsimp only
  rcases receiveByte_cases b s with
    ⟨hoff, -⟩ | ⟨-, hfull, -⟩ | ⟨-, -, ⟨hreject, heq⟩ | ⟨hmin, hmax, hdone, heq⟩ | ⟨hmin, hmax, hshort, heq⟩⟩
  · simp [harmed] at hoff
  · omega
  · rw [heq, if_pos hreject]
  · rw [heq, if_neg (by omega), if_pos hdone]
  · rw [heq, if_neg (by omega), if_neg (by omega)]

/-- The step that takes a received byte gives it to the deframer and cannot fail. -/
theorem step_of_receiveByte {s t : State} {b : Byte} {rest : List Input} (h : s.inbox = .rxByte b :: rest)
    (ht : receiveByte b { s with inbox := rest } = t) : step s = .next t :=
  (step_of_inbox h).trans (congrArg _ ht)

/-- Settles O46: the deframer's three equations are the three clauses, and the low seven bits of `FB[0]` are its value
modulo 128. -/
theorem rxbyteCollectsRejectsOrFreezes : Obligations.RxbyteCollectsRejectsOrFreezes := by
  intro s b rest hinbox
  refine ⟨?dropped, ?full, ?stored⟩
  case dropped =>
    intro hoff
    exact step_of_receiveByte hinbox (receiveByte_of_not_armed b hoff)
  case full =>
    intro harmed hfull
    exact step_of_receiveByte hinbox (receiveByte_of_full b harmed hfull)
  case stored =>
    intro harmed hroom
    refine ⟨s.fb.write s.rxpos.toNat b, fun a => read_write s.fb s.rxpos.toNat a b, ?_⟩
    rw [← declaredLength_eq]
    exact step_of_receiveByte hinbox (receiveByte_of_room b harmed hroom)

/-! ## A frame that does not verify

`RXPROC` is followed backwards, from its answer to the result it stands for, and from a MAC failure to a frame that was
left as it was. -/

theorem lastResponse_respond (s : State) (code data : Byte) :
    (s.respond code data).lastResponse = some (responseWord code data) := by
  simp [State.lastResponse]

theorem responseWord_inj {c d c' d' : Byte} (h : responseWord c d = responseWord c' d') : c = c' ∧ d = d' := by
  obtain ⟨hc, hd⟩ := responseWord_code_data c d
  obtain ⟨hc', hd'⟩ := responseWord_code_data c' d'
  rw [h] at hc hd
  exact ⟨hc.symm.trans hc', hd.symm.trans hd'⟩

/-- The codes of R24 tell the results apart. -/
theorem rxResult_code_inj {r r' : RxResult} (h : r.code = r'.code) : r = r' := by
  revert h
  cases r <;> cases r' <;> decide

/-- The two results of a frame that does not verify. -/
def IsMacFailure (res : RxResult) : Prop := res = .dataMacFail ∨ res = .syncMacFail

/-- A frame that does not verify leaves everything as it was: every other outcome has another result. -/
theorem processFrame_of_macFailure {n : Nat} {s u : State} {res : RxResult} (hp : processFrame n s = (u, res))
    (hres : IsMacFailure res) : u = s := by
  rcases processFrame_cases n s with
    ⟨-, ⟨-, h⟩ | ⟨-, -, h⟩ | ⟨-, -, h⟩⟩ | ⟨-, ⟨-, h⟩ | ⟨-, -, -, h⟩ | ⟨-, -, h⟩⟩ <;>
  · obtain ⟨rfl, rfl⟩ := Prod.mk.inj (h.symm.trans hp)
    simp [IsMacFailure] at hres ⊢

/-- R153, for either failure: what `RXPROC` did when its answer is a success with that result. -/
theorem execRxproc_of_macFailure {s t : State} {res : RxResult} (h : execRxproc s = .next t)
    (hlast : t.lastResponse = some (responseWord 0 res.code)) (hres : IsMacFailure res) :
    t = { s with rxfrz := false, rxres := res, responses := t.responses } := by
  rcases execRxproc_next h with ⟨e, rfl⟩ | ⟨-, -, -, -, u, res', hp, rfl⟩
  case inl =>
    rw [State.failed, lastResponse_respond, Option.some_inj] at hlast
    obtain ⟨hcode, -⟩ := responseWord_inj hlast
    obtain ⟨-, hpos, -⟩ := flag_eq_bit e
    simp [hcode] at hpos
  case inr =>
    rw [lastResponse_respond, Option.some_inj] at hlast
    obtain ⟨-, hcode⟩ := responseWord_inj hlast
    obtain rfl := rxResult_code_inj hcode
    obtain rfl := processFrame_of_macFailure hp hres
    rfl

/-- Settles O50: the answers 0x0003 and 0x0004 are the success words of the two MAC failures. -/
theorem macFailureChangesNothingElse : Obligations.MacFailureChangesNothingElse := by
  intro s t h
  exact ⟨fun hlast => execRxproc_of_macFailure h hlast (.inl rfl),
    fun hlast => execRxproc_of_macFailure h hlast (.inr rfl)⟩

end Sys2Proof.Framer
end

section
/-! PROOFS. The system and link-mode commands (spec 46_link_system.md R170, R173 to R175), and the registers `RDCSR`
answers (10_state.md R27, R28). -/

namespace Sys2Proof.Link

open Sys2Proof Sys2Proof.Machine

/-! ## The commands without operands -/

/-- An opcode that the decoder reads as a command without operands is illegal with any other operands than zeros. -/
theorem failsWith_of_nonzero_operand {op : Byte} {i : Instr} (hop : ∀ a b, decodeFields op a b = ifBothZero a b i)
    {a b : Byte} (h : a ≠ 0 ∨ b ≠ 0) (s : State) : FailsWith (acceptCommand (commandWord op a b) s) s 1 := by
  have hillegal : ¬¬Encoding.IllegalFields op a b := by
    rw [← Encoding.exists_decodeFields_iff, hop]
    rintro ⟨j, hj⟩
    obtain ⟨ha, hb, -⟩ := Encoding.ifBothZero_eq_ok_iff.mp hj
    exact h.elim (· ha) (· hb)
  exact Xtea.failsWith_of_illegalFields (not_not.mp hillegal) s

/-- Settles O13: `NOP` is a success with no effects. -/
theorem nopOnlyAnswers : Obligations.NopOnlyAnswers := by
  refine ⟨rfl, fun a b s h => failsWith_of_nonzero_operand (i := .nop) (fun _ _ => rfl) h s, fun s => ?_⟩
  rw [exec, execNop, Xtea.succeed_zero]

/-- Settles O16: `RXON` checks nothing, so its six writes are its effect in every state. -/
theorem rxonArmsReception : Obligations.RxonArmsReception := by
  refine ⟨rfl, fun a b s h => failsWith_of_nonzero_operand (i := .rxon) (fun _ _ => rfl) h s, fun s => ?_⟩
  rw [exec, execRxon, Xtea.succeed_zero]

/-- Settles O17: `STOP` checks nothing, so its six writes are its effect in every state. -/
theorem stopStopsTheLink : Obligations.StopStopsTheLink := by
  refine ⟨rfl, fun a b s h => failsWith_of_nonzero_operand (i := .stop) (fun _ _ => rfl) h s, fun s => ?_⟩
  rw [exec, execStop, Xtea.succeed_zero]

/-! ## `STATUS`, field by field -/

theorem irq_iff (s : State) : s.irq = true ↔ s.rxfrz = true ∨ s.lm = .txDone := by
  simp [State.irq]

/-- R28: the eight bits of `STATUS`, bit 0 first. -/
theorem getLsbD_status (s : State) (i : Nat) :
    s.status.getLsbD i = [s.krdy, s.role.code.getLsbD 0, s.lm.code.getLsbD 0, s.lm.code.getLsbD 1,
      s.rxen, s.rxfrz, s.rxrej, s.irq].getD i false := by
  obtain hi | hi := Nat.lt_or_ge i 8
  · simp only [State.status, BitVec.getLsbD_append]
    interval_cases i <;> simp
  · rw [BitVec.getLsbD_of_ge _ _ hi, List.getD_eq_default _ _ hi]

theorem role_code_bit_iff (r : Role) : r.code.getLsbD 0 = true ↔ r = .master := by
  cases r <;> decide

theorem status_lm (s : State) : s.status.extractLsb' 2 2 = s.lm.code := by
  ext i hi
  rw [BitVec.getElem_extractLsb', getLsbD_status]
  interval_cases i <;> rfl

/-! ## `RDCSR` -/

/-- R27: the registers are the eight that `csr` lists. -/
theorem csr_of_reserved (s : State) {n : Byte} (h : 8 ≤ n.toNat) : s.csr n = none := by
  unfold State.csr
  split
  case h_9 => rfl
  all_goals exact absurd h (by decide)

theorem exec_rdcsr_of_reserved (s : State) {n : Byte} (h : 8 ≤ n.toNat) : exec (.rdcsr n) s = fail .range s := by
  rw [exec, execRdcsr, csr_of_reserved s h]

theorem exec_rdcsr_of_register {s : State} {n v : Byte} (h : s.csr n = some v) :
    exec (.rdcsr n) s = .next { s with responses := s.responses ++ [responseWord 0 v] } := by
  rw [exec, execRdcsr, h]
  exact succeed_eq s v

theorem illegalFields_rdcsr (n : Byte) {b : Byte} (h : b ≠ 0) : Encoding.IllegalFields 0x03 n b :=
  .inr (.inr (.inl ⟨h, by decide⟩))

/-- Settles O15: each register is what `csr` gives for its number, and the fields of `STATUS` are read off its bits. -/
theorem rdcsrAnswersTheRegister : Obligations.RdcsrAnswersTheRegister := by
  refine ⟨fun _ => rfl, fun n b s hb => Xtea.failsWith_of_illegalFields (illegalFields_rdcsr n hb) s, ?reserved,
    fun s => ⟨s.status, s.mkmask.extractLsb' 0 8, s.mkmask.extractLsb' 8 8,
      exec_rdcsr_of_register rfl, exec_rdcsr_of_register rfl, exec_rdcsr_of_register rfl, exec_rdcsr_of_register rfl,
      exec_rdcsr_of_register rfl, ?rxres, exec_rdcsr_of_register rfl, exec_rdcsr_of_register rfl, ?mkmask,
      getLsbD_status s 0, ?role, ?lm, getLsbD_status s 4, getLsbD_status s 5, getLsbD_status s 6, ?irq⟩⟩
  case reserved =>
    intro n s hn
    rw [exec_rdcsr_of_reserved s hn]
    exact Xtea.failsWith_fail .range s
  case rxres =>
    rw [exec_rdcsr_of_register (v := s.rxres.code) rfl]
    cases s.rxres <;> rfl
  case mkmask =>
    exact (BitVec.extractLsb'_append_extractLsb'_eq_extractLsb' rfl).trans BitVec.extractLsb'_eq_self
  case role =>
    rw [getLsbD_status]
    exact role_code_bit_iff s.role
  case lm =>
    rw [status_lm]
    cases s.lm <;> rfl
  case irq =>
    rw [getLsbD_status]
    exact irq_iff s

end Sys2Proof.Link
end

section
/-! PROOFS. The decoder and the encoder are inverse to each other, and both agree with the rows of the opcode map (spec
30_encoding.md R60, R64, R65). -/

namespace Sys2Proof.Encoding

open Sys2Proof Sys2Proof.Machine

/-! ## From a command to its word and back -/

/-- Only `SETROLE` has an operand that well-formedness bounds; every other command decodes by its opcode alone. -/
theorem decode_encode {i : Instr} (h : i.wellFormed = true) : decode (encode i) = .ok i := by
  cases i with
  | setrole role =>
    rw [encode, decode_commandWord]
    exact decodeSetrole_eq_ok_iff.mpr ⟨rfl, of_decide_eq_true h, rfl⟩
  | _ => exact decode_commandWord _ _ _

/-- Settles O1: the fields of the encoder's word are what the decoder reads. -/
theorem decodeInvertsEncode : Obligations.DecodeInvertsEncode := fun _ h => decode_encode h

/-- Settles O2: a decoded word spells its command, read opcode by opcode. -/
theorem encodeInvertsDecode : Obligations.EncodeInvertsDecode := fun _ _ h => encode_of_decode h

/-- Settles O5: each sample is the word of its command. -/
theorem sampleWordsDecode : Obligations.SampleWordsDecode :=
  ⟨decode_encode (i := .nop) rfl, decode_encode (i := .reset) rfl, decode_encode (i := .setrole 1) rfl,
    decode_encode (i := .rdcsr 7) rfl, decode_encode (i := .wrmk 3 0x7F) rfl, decode_encode (i := .derive) rfl,
    decode_encode (i := .wrctr 4 5) rfl, decode_encode (i := .rdctr 4) rfl, decode_encode (i := .wrblk 7 0x48) rfl,
    decode_encode (i := .rdblk 6) rfl, decode_encode (i := .addcnt 2) rfl, decode_encode (i := .xencMac) rfl,
    decode_encode (i := .xencEnc) rfl, decode_encode (i := .xencMaster) rfl, decode_encode (i := .macg 1 8) rfl,
    decode_encode (i := .macgc 5 10) rfl, decode_encode (i := .macv 2 7) rfl, decode_encode (i := .macvc 3 6) rfl,
    decode_encode (i := .crypt 4 20) rfl, decode_encode (i := .wrfb 79 0x5A) rfl, decode_encode (i := .rdfb 4) rfl,
    decode_encode (i := .putc 0x56) rfl, decode_encode (i := .clrpb) rfl, decode_encode (i := .buildd 7) rfl,
    decode_encode (i := .builds 9) rfl, decode_encode (i := .send) rfl, decode_encode (i := .rxproc) rfl,
    decode_encode (i := .rxon) rfl, decode_encode (i := .stop) rfl⟩

/-! ## The rows of the opcode map -/

/-- A word matches a row of the table exactly when it decodes to a command of that row. -/
theorem matches_row_iff (w : CommandWord) {r : OpcodeRow} (hr : r ∈ opcodeTable) :
    w &&& r.mask = r.pattern ↔ ∃ i, decode w = .ok i ∧ opcodeRow i = r := by
  constructor
  · intro hmatch
    obtain ⟨i, rfl⟩ := exists_opcodeRow_of_mem r hr
    exact decode_of_matches_row i hmatch
  · rintro ⟨i, hi, rfl⟩
    obtain ⟨rfl, hwf⟩ := encode_of_decode hi
    exact encode_matches_row i hwf

/-- The decoder gives one command, so a word matches one row at most. -/
theorem row_unique (w : CommandWord) {r r' : OpcodeRow} (hr : r ∈ opcodeTable) (hr' : r' ∈ opcodeTable)
    (h : w &&& r.mask = r.pattern) (h' : w &&& r'.mask = r'.pattern) : r = r' := by
  obtain ⟨i, hi, rfl⟩ := (matches_row_iff w hr).mp h
  obtain ⟨j, hj, rfl⟩ := (matches_row_iff w hr').mp h'
  obtain rfl : i = j := Except.ok.inj (hi.symm.trans hj)
  rfl

theorem opcodeTable_nodup : opcodeTable.Nodup := by decide

/-- Settles O3: a word that matched two rows would make them one, and the 29 rows are distinct. -/
theorem wordSpellsRowIffItDecodesToIt : Obligations.WordSpellsRowIffItDecodesToIt := by
  refine ⟨rfl, fun w _ hr => matches_row_iff w hr, opcodeRow_mem_opcodeTable, ?_⟩
  refine opcodeTable_nodup.imp_of_mem fun hr hr' hne w hboth => ?_
  obtain ⟨h, h'⟩ := hboth
  exact hne (row_unique w hr hr' h h')

end Sys2Proof.Encoding
end

section
/-! PROOFS. What a command can answer, said once for all 29 of them: a failure, or the response to a state in which only
what the summary table names for it was written (spec 10_state.md R33, 60_exceptions.md R191); and the one stop of the
model (log entry 4). -/

namespace Sys2Proof.Outcomes

open Sys2Proof Sys2Proof.Machine

/-! ## Buffers in their form -/

/-- `m'` is in canonical form and inside the space wherever `m` is. -/
structure KeepsForm (size : Nat) (m m' : Memory) : Prop where
  wf : Memory.wf m = true → Memory.wf m' = true
  within : Memory.within m size = true → Memory.within m' size = true

theorem KeepsForm.rfl {size : Nat} {m : Memory} : KeepsForm size m m := ⟨id, id⟩

theorem KeepsForm.trans {size : Nat} {m m' m'' : Memory} (h : KeepsForm size m m') (h' : KeepsForm size m' m'') :
    KeepsForm size m m'' := ⟨h'.wf ∘ h.wf, h'.within ∘ h.within⟩

theorem keepsForm_write {size a : Nat} (m : Memory) (v : Byte) (h : a < size) : KeepsForm size m (m.write a v) :=
  ⟨wf_write a v, fun hm => within_write v hm h⟩

theorem keepsForm_writeBytes {size a : Nat} (m : Memory) {bs : List Byte} (h : a + bs.length ≤ size) :
    KeepsForm size m (m.writeBytes a bs) :=
  ⟨wf_writeBytes a bs, fun hm => within_writeBytes hm h⟩

theorem keepsForm_ctrCrypt {size off len : Nat} (enc : Block → Block) (fb : Memory) (ctr : Block)
    (h : off + len ≤ size) : KeepsForm size fb (ctrCrypt enc off len { fb := fb, ctr := ctr }).fb :=
  ⟨ctrCrypt_wf enc off len ⟨fb, ctr⟩, fun hm => ctrCrypt_within enc off len size ⟨fb, ctr⟩ hm h⟩

theorem keepsForm_layFrame (s : State) (lengthByte addr : Byte) {size n : Nat} (h : 6 + n ≤ size) :
    KeepsForm size s.fb (layFrame s lengthByte addr n) :=
  ⟨layFrame_wf s lengthByte addr n, fun hm => layFrame_within s lengthByte addr n size hm h⟩

theorem keepsForm_sealFrame (s : State) (fb : Memory) {size n : Nat} {tag : List Byte} (ht : tag.length = 4)
    (h : 12 + n ≤ size) : KeepsForm size fb (sealFrame s fb n tag) :=
  ⟨sealFrame_wf s fb n tag, fun hm => sealFrame_within s fb n size tag hm ht h⟩

/-! ## What a command writes where it succeeds -/

/-- A built frame of `n` payload bytes is pending (R141, R145). -/
def FrameBuilt (s u : State) : Prop :=
  s.hostFb = true ∧ s.krdy = true ∧ ∃ n, n ≤ payloadMax s.config ∧ n + 12 ≤ s.config.frameMax ∧ ∃ fb ctr,
    KeepsForm s.config.frameMax s.fb fb ∧
    u = { s with fb := fb, ctr := ctr, txlen := BitVec.ofNat 8 (n + 12), plen := 0, rxpos := 0, rxfrz := false }

/-- A frozen frame has been processed (R148): the link mode changes with `RX_SYNC_OK` alone. -/
def FrameProcessed (s u : State) : Prop :=
  s.rxfrz = true ∧ s.krdy = true ∧ ∃ fb ctr lm res,
    KeepsForm s.config.frameMax s.fb fb ∧ (lm = s.lm ∨ (res = .syncOk ∧ lm = .stopped)) ∧
    u = { s with rxfrz := false, rxres := res, fb := fb, ctr := ctr, lm := lm }

/-- `u` differs from `s` in nothing but what the command writes where it succeeds (R33), the response aside; with the
conditions under which it writes `FB` and `PB`. -/
def Writes (i : Instr) (s u : State) : Prop :=
  match i with
  | .nop | .rdcsr _ | .rdctr _ | .rdblk _ | .rdfb _ | .macv _ _ | .macvc _ _ => u = s
  | .reset => u = s.cleared
  | .setrole _ => ∃ role, u = { s with role := role }
  | .wrmk _ _ => ∃ keys mkmask, u = { s with keys := keys, mkmask := mkmask, krdy := false }
  | .derive => ∃ keys, u = { s with keys := keys, mkmask := 0, krdy := true }
  | .wrctr _ _ | .addcnt _ => ∃ ctr, u = { s with ctr := ctr }
  | .wrblk _ _ | .xencMac | .xencEnc | .xencMaster => ∃ blk, u = { s with blk := blk }
  | .macg _ _ | .macgc _ _ | .wrfb _ _ =>
    s.hostFb = true ∧ ∃ fb, KeepsForm s.config.frameMax s.fb fb ∧ u = { s with fb := fb }
  | .crypt _ _ =>
    s.hostFb = true ∧ ∃ fb ctr, KeepsForm s.config.frameMax s.fb fb ∧ u = { s with fb := fb, ctr := ctr }
  | .putc _ => s.plen.toNat < payloadMax s.config ∧ ∃ pb, KeepsForm (payloadMax s.config) s.pb pb ∧
    u = { s with pb := pb, plen := s.plen + 1 }
  | .clrpb => u = { s with plen := 0 }
  | .buildd _ | .builds _ => FrameBuilt s u
  | .send => s.hostFb = true ∧ s.txlen ≠ 0 ∧ ∃ frame,
    u = { s with txframes := frame, lm := .transmitting, rxpos := 0, rxfrz := false, txlen := 0 }
  | .rxproc => FrameProcessed s u
  | .rxon => u = { s with lm := .receiving, rxpos := 0, rxfrz := false, rxrej := false, txlen := 0, rxen := true }
  | .stop => u = { s with lm := .stopped, rxen := false, rxpos := 0, rxfrz := false, rxrej := false, txlen := 0 }

/-- `t` is the state after a success of `i` on `s`. -/
def Succeeded (i : Instr) (s t : State) : Prop := ∃ u data, Writes i s u ∧ t = u.respond 0 data

/-! ## One command after the other -/

theorem succeeded_of_macGenerate {i : Instr} {off len : Byte} {pfx : Option Block} {s t : State}
    (hi : Writes i s = Writes (.macg off len) s) (h : macGenerate off len pfx s = .next t) :
    (∃ e, t = s.failed e) ∨ Succeeded i s t := by
  refine (macGenerate_next h).imp_right fun ⟨hhost, _, hrange, ht⟩ => ⟨_, _, ?_, ht⟩
  rw [hi]
  exact ⟨hhost, _, keepsForm_writeBytes _ (by simpa using hrange), rfl⟩

theorem succeeded_of_macVerify {i : Instr} {off len : Byte} {pfx : Option Block} {s t : State}
    (hi : Writes i s = Writes .nop s) (h : macVerify off len pfx s = .next t) :
    (∃ e, t = s.failed e) ∨ Succeeded i s t := by
  refine (macVerify_next h).imp_right fun ⟨_, _, _, ht⟩ => ⟨_, _, ?_, ht⟩
  rw [hi]
  exact rfl

theorem succeeded_of_encryptBlk {i : Instr} {k : KeySel} {s t : State} (hi : Writes i s = Writes .xencMac s)
    (h : encryptBlk k s = .next t) : (∃ e, t = s.failed e) ∨ Succeeded i s t := by
  refine (encryptBlk_next h).imp_right fun ⟨_, ht⟩ => ⟨_, _, ?_, ht⟩
  rw [hi]
  exact ⟨_, rfl⟩

theorem succeeded_of_execBuildd {addr : Byte} {s t : State} (h : execBuildd addr s = .next t) :
    (∃ e, t = s.failed e) ∨ Succeeded (.buildd addr) s t := by
  refine (execBuildd_next h).imp_right fun ⟨hhost, hkrdy, hpay, hfits, ht⟩ =>
    ⟨_, _, ⟨hhost, hkrdy, _, hpay, hfits, _, _, ?_, rfl⟩, ht⟩
  exact (keepsForm_layFrame s _ _ (by omega)).trans
    ((keepsForm_ctrCrypt _ _ _ (by omega)).trans (keepsForm_sealFrame s _ (by simp) (by omega)))

theorem succeeded_of_execBuilds {addr : Byte} {s t : State} (h : execBuilds addr s = .next t) :
    (∃ e, t = s.failed e) ∨ Succeeded (.builds addr) s t := by
  refine (execBuilds_next h).imp_right fun ⟨_, hhost, hkrdy, _, hpay, hfits, ht⟩ =>
    ⟨_, _, ⟨hhost, hkrdy, _, hpay, hfits, _, _, ?_, rfl⟩, ht⟩
  exact (keepsForm_layFrame s _ _ (by omega)).trans (keepsForm_sealFrame s _ (by simp) (by omega))

/-- A frame is decrypted in its place, and only a verified sync frame stops the link. -/
theorem frameProcessed_of_processFrame {n : Nat} {s u : State} {res : RxResult} (hfrz : s.rxfrz = true)
    (hkrdy : s.krdy = true) (hn : 2 + n ≤ s.config.frameMax)
    (h : processFrame n { s with rxfrz := false } = (u, res)) : FrameProcessed s { u with rxres := res } := by
  rcases processFrame_cases n { s with rxfrz := false } with
    ⟨-, ⟨-, hp⟩ | ⟨-, -, hp⟩ | ⟨-, -, hp⟩⟩ | ⟨-, ⟨-, hp⟩ | ⟨-, -, -, hp⟩ | ⟨-, -, hp⟩⟩ <;>
    obtain ⟨rfl, rfl⟩ := Prod.mk.inj (hp.symm.trans h)
  case inl.inr.inr => exact ⟨hfrz, hkrdy, _, _, _, _, .rfl, .inr ⟨rfl, rfl⟩, rfl⟩
  case inr.inr.inl | inr.inr.inr =>
    exact ⟨hfrz, hkrdy, _, _, _, _, keepsForm_ctrCrypt _ _ _ hn, .inl rfl, rfl⟩
  all_goals exact ⟨hfrz, hkrdy, _, _, _, _, .rfl, .inl rfl, rfl⟩

theorem succeeded_of_execRxproc {s t : State} (h : execRxproc s = .next t) :
    (∃ e, t = s.failed e) ∨ Succeeded .rxproc s t :=
  (execRxproc_next h).imp_right fun ⟨hfrz, hkrdy, hmin, hmax, _, _, hp, ht⟩ =>
    ⟨_, _, frameProcessed_of_processFrame hfrz hkrdy (by omega) hp, ht⟩

/-- R61, R191: a command that answers has failed, or has done what its rule says. -/
theorem exec_next {i : Instr} {s t : State} (h : exec i s = .next t) :
    (∃ e, t = s.failed e) ∨ Succeeded i s t := by
  cases i with
  | nop | reset | clrpb | rxon | stop => exact .inr ⟨_, _, rfl, succeed_next h⟩
  | addcnt k => exact .inr ⟨_, _, ⟨_, rfl⟩, succeed_next h⟩
  | setrole role => exact (execSetrole_next h).imp_right fun ⟨_, ht⟩ => ⟨_, _, ⟨_, rfl⟩, ht⟩
  | rdcsr n => exact (execRdcsr_next h).imp_right fun ⟨_, _, ht⟩ => ⟨_, _, rfl, ht⟩
  | wrmk idx d => exact (execWrmk_next h).imp_right fun ⟨_, ht⟩ => ⟨_, _, ⟨_, _, rfl⟩, ht⟩
  | derive => exact (execDerive_next h).imp_right fun ⟨_, ht⟩ => ⟨_, _, ⟨_, rfl⟩, ht⟩
  | wrctr idx d => exact (execWrctr_next h).imp_right fun ⟨_, ht⟩ => ⟨_, _, ⟨_, rfl⟩, ht⟩
  | rdctr idx => exact (execRdctr_next h).imp_right fun ⟨_, ht⟩ => ⟨_, _, rfl, ht⟩
  | wrblk idx d => exact (execWrblk_next h).imp_right fun ⟨_, ht⟩ => ⟨_, _, ⟨_, rfl⟩, ht⟩
  | rdblk idx => exact (execRdblk_next h).imp_right fun ⟨_, ht⟩ => ⟨_, _, rfl, ht⟩
  | xencMac | xencEnc | xencMaster => exact succeeded_of_encryptBlk rfl h
  | macg off len | macgc off len => exact succeeded_of_macGenerate rfl h
  | macv off len | macvc off len => exact succeeded_of_macVerify rfl h
  | crypt off len =>
    exact (execCrypt_next h).imp_right fun ⟨hhost, _, hrange, ht⟩ =>
      ⟨_, _, ⟨hhost, _, _, keepsForm_ctrCrypt _ _ _ hrange, rfl⟩, ht⟩
  | wrfb idx d =>
    exact (execWrfb_next h).imp_right fun ⟨hhost, hidx, ht⟩ => ⟨_, _, ⟨hhost, _, keepsForm_write _ _ hidx, rfl⟩, ht⟩
  | rdfb idx => exact (execRdfb_next h).imp_right fun ⟨_, ht⟩ => ⟨_, _, rfl, ht⟩
  | putc d =>
    exact (execPutc_next h).imp_right fun ⟨hplen, ht⟩ => ⟨_, _, ⟨hplen, _, keepsForm_write _ _ hplen, rfl⟩, ht⟩
  | buildd addr => exact succeeded_of_execBuildd h
  | builds addr => exact succeeded_of_execBuilds h
  | send => exact (execSend_next h).imp_right fun ⟨hhost, hlen, _, ht⟩ => ⟨_, _, ⟨hhost, hlen, _, rfl⟩, ht⟩
  | rxproc => exact succeeded_of_execRxproc h

end Sys2Proof.Outcomes
end

section
/-! PROOFS. Where a command stops instead of answering (log entry 4): at a byte outside `PB` or `FB`, and nowhere else. -/

namespace Sys2Proof.Stops

open Sys2Proof Sys2Proof.Machine

/-- The checks of the command pass, and then its lengths do not fit the buffers. -/
def LeavesBuffers (i : Instr) (s : State) : Prop :=
  match i with
  | .putc _ => payloadMax s.config < s.plen.toNat
  | .buildd _ => s.hostFb = true ∧ s.krdy = true ∧ frameFits s.config s.plen.toNat = false
  | .builds _ => s.role = .master ∧ s.hostFb = true ∧ s.krdy = true ∧ 4 ≤ s.plen.toNat ∧
    frameFits s.config s.plen.toNat = false
  | .send => s.hostFb = true ∧ s.txlen ≠ 0 ∧ s.config.frameMax < s.txlen.toNat
  | .rxproc => s.rxfrz = true ∧ s.krdy = true ∧ (s.rxpos.toNat < 6 ∨ s.config.frameMax < s.rxpos.toNat)
  | _ => False

/-! ## A command that leaves the buffers stops -/

theorem exec_eq_fault {i : Instr} {s : State} (h : LeavesBuffers i s) : exec i s = .fault .outsideBuffer := by
  cases i with
  | putc d =>
    change payloadMax s.config < s.plen.toNat at h
    rw [exec, execPutc, if_neg (by omega), if_pos h]
  | buildd addr =>
    obtain ⟨hhost, hkrdy, hfits⟩ := h
    rw [exec, execBuildd, if_neg (by simp [hhost]), if_neg (by simp [hkrdy]), if_pos hfits]
  | builds addr =>
    obtain ⟨hrole, hhost, hkrdy, hlen, hfits⟩ := h
    rw [exec, execBuilds, if_neg (by simp [hrole]), if_neg (by simp [hhost]), if_neg (by simp [hkrdy]),
      if_neg (by omega), if_pos hfits]
  | send =>
    obtain ⟨hhost, hlen, hmax⟩ := h
    rw [exec, execSend, if_neg (by simpa [hhost] using hlen), if_pos hmax]
  | rxproc =>
    obtain ⟨hfrz, hkrdy, hpos⟩ := h
    rw [exec, execRxproc, if_neg (by simp [hfrz]), if_neg (by simp [hkrdy])]
    exact if_pos hpos
  | _ => exact h.elim

/-! ## Every other command answers -/

/-- The command gives a next state, by success or by failure. -/
def Answers (o : Host.Outcome State Fault Refusal) : Prop := ∃ t, o = .next t

theorem answers_fail (e : CommandError) (s : State) : Answers (fail e s) := ⟨_, rfl⟩

theorem answers_succeed (s : State) (data : Byte) : Answers (succeed s data) := ⟨_, rfl⟩

theorem answers_ite {c : Prop} [Decidable c] {o o' : Host.Outcome State Fault Refusal} (h : c → Answers o)
    (h' : ¬c → Answers o') : Answers (if c then o else o') := by
  split_ifs with hc
  · exact h hc
  · exact h' hc

/-- A check that fails the command, or lets the rest of it run. -/
theorem answers_check {c : Prop} [Decidable c] {e : CommandError} {s : State} {o : Host.Outcome State Fault Refusal}
    (h : ¬c → Answers o) : Answers (if c then fail e s else o) := answers_ite (fun _ => answers_fail e s) h

/-- A check on which the model stops, where it cannot fire. -/
theorem answers_guard {c : Prop} [Decidable c] {f : Fault} {o : Host.Outcome State Fault Refusal} (hc : ¬c)
    (h : Answers o) : Answers (if c then .fault f else o) := by rwa [if_neg hc]

theorem answers_checkMac {off len : Byte} {s : State} {o : Host.Outcome State Fault Refusal} (h : Answers o) :
    Answers (checkMac off len s o) :=
  answers_check fun _ => answers_check fun _ => answers_check fun _ => h

theorem answers_exec {i : Instr} {s : State} (h : ¬LeavesBuffers i s) : Answers (exec i s) := by
  cases i with
  | nop | reset | addcnt k | clrpb | rxon | stop => exact answers_succeed _ _
  | setrole _ | wrmk _ _ | derive | wrctr _ _ | rdctr _ | wrblk _ _ | rdblk _ | xencMac | xencEnc | xencMaster | rdfb _ =>
    exact answers_check fun _ => answers_succeed _ _
  | rdcsr n =>
    rw [exec, execRdcsr]
    cases s.csr n
    · exact answers_fail _ _
    · exact answers_succeed _ _
  | macg _ _ | macgc _ _ | macv _ _ | macvc _ _ => exact answers_checkMac (answers_succeed _ _)
  | crypt _ _ => exact answers_check fun _ => answers_check fun _ => answers_check fun _ => answers_succeed _ _
  | wrfb _ _ => exact answers_check fun _ => answers_check fun _ => answers_succeed _ _
  | putc _ => exact answers_check fun _ => answers_guard h (answers_succeed _ _)
  | buildd _ =>
    refine answers_check fun hhost => answers_check fun hkrdy => answers_guard (fun hfits => h ?_) (answers_succeed _ _)
    exact ⟨by simpa using hhost, by simpa using hkrdy, hfits⟩
  | builds _ =>
    refine answers_check fun hrole => answers_check fun hhost => answers_check fun hkrdy => answers_check fun hlen =>
      answers_guard (fun hfits => h ?_) (answers_succeed _ _)
    exact ⟨not_not.mp hrole, by simpa using hhost, by simpa using hkrdy, not_lt.mp hlen, hfits⟩
  | send =>
    refine answers_check fun hready => answers_guard (fun hmax => h ?_) (answers_succeed _ _)
    obtain ⟨hhost, hlen⟩ := not_or.mp hready
    exact ⟨by simpa using hhost, hlen, hmax⟩
  | rxproc =>
    refine answers_check fun hfrz => answers_check fun hkrdy => answers_guard (fun hpos => h ?_) (answers_succeed _ _)
    exact ⟨by simpa using hfrz, by simpa using hkrdy, hpos⟩

/-- The two ways a command can go. -/
theorem exec_cases (i : Instr) (s : State) :
    (LeavesBuffers i s ∧ exec i s = .fault .outsideBuffer) ∨ (¬LeavesBuffers i s ∧ Answers (exec i s)) := by
  by_cases h : LeavesBuffers i s
  · exact .inl ⟨h, exec_eq_fault h⟩
  · exact .inr ⟨h, answers_exec h⟩

theorem exec_fault_iff (i : Instr) (s : State) : (∃ f, exec i s = .fault f) ↔ LeavesBuffers i s := by
  rcases exec_cases i s with ⟨h, hf⟩ | ⟨h, t, ht⟩
  · exact iff_of_true ⟨_, hf⟩ h
  · exact iff_of_false (by simp [ht]) h

theorem exec_ne_refused (i : Instr) (s : State) (r : Refusal) : exec i s ≠ .refused r := by
  rcases exec_cases i s with ⟨-, hf⟩ | ⟨-, t, ht⟩
  · simp [hf]
  · simp [ht]

/-! ## No state with the invariants lets a command leave the buffers -/

theorem payloadMax_add_le {c : Config} (h : c.wf) : payloadMax c + 12 ≤ c.frameMax := by
  have hmax : 16 ≤ c.frameMax := h.1
  unfold payloadMax
  omega

theorem payloadMax_le (c : Config) : payloadMax c ≤ 121 := Nat.min_le_right _ _

theorem frameFits_of_inv {s : State} (h : s.Inv) : frameFits s.config s.plen.toNat = true := by
  have hplen := h.plen_le
  have hmax := payloadMax_add_le h.config_wf
  exact (frameFits_iff _ _).mpr ⟨hplen, by omega⟩

theorem not_leavesBuffers_of_inv (i : Instr) {s : State} (h : s.Inv) : ¬LeavesBuffers i s := by
  have hfits := frameFits_of_inv h
  cases i with
  | putc _ => exact not_lt.mpr h.plen_le
  | buildd _ | builds _ => simp [LeavesBuffers, hfits]
  | send =>
    rintro ⟨-, hne, hmax⟩
    rcases h.txlen_ok with hzero | ⟨-, hle, hle'⟩
    · exact hne hzero
    · omega
  | rxproc =>
    rintro ⟨hfrz, -, hpos⟩
    obtain ⟨-, -, hmin, hmax, -⟩ := h.frozen hfrz
    omega
  | _ => exact id

theorem answers_exec_of_inv (i : Instr) {s : State} (h : s.Inv) : Answers (exec i s) :=
  answers_exec (not_leavesBuffers_of_inv i h)

/-! ## The five commands that can stop -/

theorem frameFits_eq_false_iff (c : Config) (n : Nat) :
    frameFits c n = false ↔ payloadMax c < n ∨ c.frameMax < n + 12 := by
  rw [← Bool.not_eq_true, frameFits_iff]
  omega

theorem leavesBuffers_iff (i : Instr) (s : State) : LeavesBuffers i s ↔
    ((∃ d, i = .putc d) ∧ payloadMax s.config < s.plen.toNat) ∨
    ((∃ addr, i = .buildd addr) ∧ s.hostFb = true ∧ s.krdy = true ∧
      (payloadMax s.config < s.plen.toNat ∨ s.config.frameMax < s.plen.toNat + 12)) ∨
    ((∃ addr, i = .builds addr) ∧ s.role = .master ∧ s.hostFb = true ∧ s.krdy = true ∧ 4 ≤ s.plen.toNat ∧
      (payloadMax s.config < s.plen.toNat ∨ s.config.frameMax < s.plen.toNat + 12)) ∨
    (i = .send ∧ s.hostFb = true ∧ s.config.frameMax < s.txlen.toNat ∧ s.txlen ≠ 0) ∨
    (i = .rxproc ∧ s.rxfrz = true ∧ s.krdy = true ∧ (s.rxpos.toNat < 6 ∨ s.config.frameMax < s.rxpos.toNat)) := by
  cases i with
  | putc _ | rxproc => simp [LeavesBuffers]
  | buildd _ | builds _ => simp [LeavesBuffers, frameFits_eq_false_iff]
  | send => simp [LeavesBuffers, and_comm]
  | _ => simp [LeavesBuffers]

/-- Settles O59: a command answers or leaves the buffers, and the second the invariants exclude. -/
theorem commandsStopOnlyOutsideTheBuffers : Obligations.CommandsStopOnlyOutsideTheBuffers := by
  intro i s
  refine ⟨exec_ne_refused i s, fun hinv f hf => ?_, (exec_fault_iff i s).trans (leavesBuffers_iff i s)⟩
  exact not_leavesBuffers_of_inv i hinv ((exec_fault_iff i s).mp ⟨f, hf⟩)

end Sys2Proof.Stops
end

section
/-! PROOFS. One step of the machine (spec 10_state.md R10, 30_encoding.md R61, 70_reset_and_hazards.md R226), the reset
(10_state.md R32), and the radio strobe (46_link_system.md R177). -/

namespace Sys2Proof.Steps

open Sys2Proof Sys2Proof.Machine

/-! ## Command words -/

theorem step_of_command {s : State} {w : CommandWord} {rest : List Input} (h : s.inbox = .command w :: rest) :
    step s = acceptCommand w { s with inbox := rest } := step_of_inbox h

theorem acceptCommand_of_decode {w : CommandWord} {i : Instr} (h : decode w = .ok i) (s : State) :
    acceptCommand w s = exec i s := by
  rw [acceptCommand, h]

/-- A word is run as its command, or fails as an illegal one. -/
theorem acceptCommand_cases (w : CommandWord) (s : State) :
    (∃ i, decode w = .ok i ∧ acceptCommand w s = exec i s) ∨ acceptCommand w s = fail .illegal s := by
  cases hw : decode w with
  | ok i => exact .inl ⟨i, rfl, acceptCommand_of_decode hw s⟩
  | error e => exact .inr (Encoding.acceptCommand_of_illegal (by simp [hw]) s)

/-- Settles O6: the step gives the word to the command port, which decodes it. -/
theorem stepRunsTheDecodedCommand : Obligations.StepRunsTheDecodedCommand := by
  intro s w rest hinbox
  rw [step_of_command hinbox]
  refine ⟨fun i hi => acceptCommand_of_decode hi _, fun hillegal => ?_, rfl⟩
  rw [Encoding.acceptCommand_of_illegal hillegal]
  exact Xtea.failsWith_fail .illegal _

theorem step_of_no_input {s : State} (h : s.inbox = []) : step s = .next s := by
  rw [step, takeInput, h]

/-- Settles O7: with an empty inbox there is no input to take. -/
theorem stepWithoutInputChangesNothing : Obligations.StepWithoutInputChangesNothing := fun _ h => step_of_no_input h

/-- Settles O12: an input is an event, which cannot fail, or a command word, whose command answers under the invariants. -/
theorem everyInputHasADefinedOutcome : Obligations.EveryInputHasADefinedOutcome := by
  intro s hinv
  cases hinbox : s.inbox with
  | nil => exact ⟨s, step_of_no_input hinbox⟩
  | cons i rest =>
    rw [step_of_inbox hinbox]
    cases i with
    | rxByte _ | txComplete | hardReset => exact ⟨_, rfl⟩
    | command w =>
      have hinv' : State.Inv { s with inbox := rest } := { hinv with }
      rcases acceptCommand_cases w { s with inbox := rest } with ⟨i, -, h⟩ | h <;> rw [acceptInput, h]
      · exact Stops.answers_exec_of_inv i hinv'
      · exact Stops.answers_fail _ _

/-! ## Reset -/

/-- Settles O8: both resets give the cleared state, `RESET` with its answer. -/
theorem resetClearsEveryPieceOfState : Obligations.ResetClearsEveryPieceOfState := by
  refine ⟨rfl, fun a b s h => Link.failsWith_of_nonzero_operand (i := .reset) (fun _ _ => rfl) h s, fun s => ?_⟩
  refine ⟨Xtea.succeed_zero s.cleared, fun rest hinbox => ?_, fun a => ⟨rfl, rfl⟩, rfl⟩
  exact step_of_inbox hinbox

theorem byteAt_replicate_zero (n j : Nat) : byteAt (Vector.replicate n (0 : Byte)) j = 0 := by
  obtain hj | hj := Nat.lt_or_ge j n
  · rw [byteAt_eq_getElem _ _ hj, Vector.getElem_replicate]
  · exact byteAt_of_le _ _ hj

/-- Settles O9: the registers read zero byte by byte, and everything else is the table's value as it stands. -/
theorem initialStateHasTheResetValues : Obligations.InitialStateHasTheResetValues :=
  ⟨fun j _ => byteAt_replicate_zero 40 j, rfl, rfl, fun j _ => byteAt_replicate_zero 8 j,
    fun j _ => byteAt_replicate_zero 8 j, fun _ => rfl, fun _ => rfl, rfl, rfl, rfl, rfl, rfl, rfl, rfl, rfl, rfl, rfl, rfl⟩

/-! ## `TXCOMPLETE` -/

theorem completeTransmission_of_transmitting {s : State} (h : s.lm = .transmitting) :
    completeTransmission s = { s with lm := .txDone } := if_pos h

theorem completeTransmission_of_not_transmitting {s : State} (h : s.lm ≠ .transmitting) :
    completeTransmission s = s := if_neg h

theorem step_of_txComplete {s t : State} {rest : List Input} (h : s.inbox = .txComplete :: rest)
    (ht : completeTransmission { s with inbox := rest } = t) : step s = .next t :=
  (step_of_inbox h).trans (congrArg _ ht)

/-- Settles O18: the strobe's two equations. -/
theorem txCompleteEndsATransmission : Obligations.TxCompleteEndsATransmission := by
  intro s rest hinbox
  exact ⟨fun hlm => step_of_txComplete hinbox (completeTransmission_of_transmitting hlm),
    fun hlm => step_of_txComplete hinbox (completeTransmission_of_not_transmitting hlm)⟩

end Sys2Proof.Steps
end

section
/-! PROOFS. The invariants of spec 10_state.md R30 hold after reset, and every step keeps them. -/

namespace Sys2Proof.Invariants

open Sys2Proof Sys2Proof.Machine Sys2Proof.Outcomes

/-! ## Resets and responses -/

/-- A reset keeps nothing but the parameters of R5, and those are all that the invariants then ask for. -/
theorem inv_cleared {s : State} (h : s.config.wf) : s.cleared.Inv where
  config_wf := h
  fb_wf := rfl
  pb_wf := rfl
  fb_within := rfl
  pb_within := rfl
  armed h := nomatch h
  frozen h := nomatch h
  plen_le := Nat.zero_le _
  txlen_ok := .inl rfl
  keys_ready h := nomatch h
  errflags_high := by simp
  rxpos_lt h := nomatch h
  collecting h := nomatch h

/-- Settles O10: the start state is a cleared one, with the reference parameters. -/
theorem resetStateHasTheInvariants : Obligations.ResetStateHasTheInvariants :=
  inv_cleared (s := State.reset) (by decide)

theorem inv_respond {s : State} (h : s.Inv) (code data : Byte) : (s.respond code data).Inv := { h with }

/-- No error has one of the two bits of `ERRFLAGS` that R26 keeps at 0. -/
theorem flag_high (e : CommandError) : e.flag &&& 0xC0 = 0 := by
  cases e <;> rfl

theorem inv_failed {s : State} (h : s.Inv) (e : CommandError) : (s.failed e).Inv where
  __ := h
  errflags_high := by
    have hs : s.errflags &&& 0xC0#8 = 0#8 := h.errflags_high
    have he : e.flag &&& 0xC0#8 = 0#8 := flag_high e
    change (s.errflags ||| e.flag) &&& 0xC0#8 = 0#8
    rw [BitVec.and_comm, BitVec.and_or_distrib_left, BitVec.and_comm _ s.errflags, BitVec.and_comm _ e.flag, hs, he]
    rfl

/-! ## Successful commands -/

theorem frameMax_pos {c : Config} (h : c.wf) : 0 < c.frameMax := Nat.lt_of_lt_of_le (by decide) h.1

theorem not_armed_of_hostFb {s : State} (h : s.hostFb = true) : s.rxen ≠ true := by
  obtain ⟨hrxen, -⟩ := (hostFb_iff s).mp h
  simp [hrxen]

theorem not_frozen_of_txDone {s : State} (h : s.Inv) (hlm : s.lm = .txDone) : s.rxfrz = false := by
  by_contra hfrz
  obtain ⟨-, hrecv, -⟩ := h.frozen (by simpa using hfrz)
  simp [hlm] at hrecv

/-- The host writes the buffer while no frame is being collected in it. -/
theorem inv_of_host_writes_fb {s : State} (h : s.Inv) (hhost : s.hostFb = true) {fb : Memory}
    (hfb : KeepsForm s.config.frameMax s.fb fb) : State.Inv { s with fb := fb } :=
  { h with
    fb_wf := hfb.wf h.fb_wf
    fb_within := hfb.within h.fb_within
    collecting := fun harmed => absurd harmed (not_armed_of_hostFb hhost) }

theorem inv_of_frameBuilt {s u : State} (h : s.Inv) (hb : FrameBuilt s u) : u.Inv := by
  obtain ⟨hhost, -, n, hpay, hfits, fb, ctr, hfb, rfl⟩ := hb
  have hoff := not_armed_of_hostFb hhost
  have hlen : (BitVec.ofNat 8 (n + 12)).toNat = n + 12 := by
    have := Stops.payloadMax_le s.config
    rw [BitVec.toNat_ofNat, Nat.mod_eq_of_lt (by omega)]
  have hroom := Stops.payloadMax_add_le h.config_wf
  have htxlen : 12 ≤ (BitVec.ofNat 8 (n + 12)).toNat ∧ (BitVec.ofNat 8 (n + 12)).toNat ≤ payloadMax s.config + 12 := by
    omega
  exact { inv_of_host_writes_fb h hhost hfb with
    armed := fun harmed => absurd harmed hoff
    frozen := fun hfrz => nomatch hfrz
    plen_le := Nat.zero_le _
    txlen_ok := .inr ⟨htxlen.1, htxlen.2, hroom⟩
    rxpos_lt := fun harmed => absurd harmed hoff
    collecting := fun harmed => absurd harmed hoff }

theorem inv_of_frameProcessed {s u : State} (h : s.Inv) (hp : FrameProcessed s u) : u.Inv := by
  obtain ⟨hfrz, -, fb, ctr, lm, res, hfb, -, rfl⟩ := hp
  obtain ⟨hoff, -⟩ := h.frozen hfrz
  have hoff' : s.rxen ≠ true := by simp [hoff]
  exact { h with
    fb_wf := hfb.wf h.fb_wf
    fb_within := hfb.within h.fb_within
    armed := fun harmed => absurd harmed hoff'
    frozen := fun hfrz => nomatch hfrz
    collecting := fun harmed => absurd harmed hoff' }

theorem inv_of_send {s : State} (h : s.Inv) (hhost : s.hostFb = true) (frames : List (List Byte)) :
    State.Inv { s with txframes := frames, lm := .transmitting, rxpos := 0, rxfrz := false, txlen := 0 } :=
  have hoff := not_armed_of_hostFb hhost
  { h with
    armed := fun harmed => absurd harmed hoff
    frozen := fun hfrz => nomatch hfrz
    txlen_ok := .inl rfl
    rxpos_lt := fun harmed => absurd harmed hoff
    collecting := fun harmed => absurd harmed hoff }

theorem inv_of_rxon {s : State} (h : s.Inv) : State.Inv
    { s with lm := .receiving, rxpos := 0, rxfrz := false, rxrej := false, txlen := 0, rxen := true } :=
  { h with
    armed := fun _ => ⟨rfl, rfl⟩
    frozen := fun hfrz => nomatch hfrz
    txlen_ok := .inl rfl
    rxpos_lt := fun _ => frameMax_pos h.config_wf
    collecting := fun _ hpos => absurd rfl hpos }

theorem inv_of_stop {s : State} (h : s.Inv) : State.Inv
    { s with lm := .stopped, rxen := false, rxpos := 0, rxfrz := false, rxrej := false, txlen := 0 } :=
  { h with
    armed := fun harmed => nomatch harmed
    frozen := fun hfrz => nomatch hfrz
    txlen_ok := .inl rfl
    rxpos_lt := fun harmed => nomatch harmed
    collecting := fun harmed => nomatch harmed }

theorem inv_of_putc {s : State} (h : s.Inv) (hplen : s.plen.toNat < payloadMax s.config) {pb : Memory}
    (hpb : KeepsForm (payloadMax s.config) s.pb pb) : State.Inv { s with pb := pb, plen := s.plen + 1 } :=
  { h with
    pb_wf := hpb.wf h.pb_wf
    pb_within := hpb.within h.pb_within
    plen_le := by
      have := Stops.payloadMax_le s.config
      change (s.plen + 1#8).toNat ≤ payloadMax s.config
      bv_omega }

/-- Every piece of state that R30 speaks of is written by commands that keep it in its limits. -/
theorem inv_of_writes {i : Instr} {s u : State} (h : s.Inv) (hw : Writes i s u) : u.Inv := by
  cases i with
  | nop | rdcsr _ | rdctr _ | rdblk _ | rdfb _ | macv _ _ | macvc _ _ =>
    obtain rfl := hw
    exact h
  | reset =>
    obtain rfl := hw
    exact inv_cleared h.config_wf
  | setrole _ | wrctr _ _ | addcnt _ | wrblk _ _ | xencMac | xencEnc | xencMaster =>
    obtain ⟨_, rfl⟩ := hw
    exact { h with }
  | wrmk _ _ =>
    obtain ⟨_, _, rfl⟩ := hw
    exact { h with keys_ready := fun hkrdy => nomatch hkrdy }
  | derive =>
    obtain ⟨_, rfl⟩ := hw
    exact { h with keys_ready := fun _ => rfl }
  | macg _ _ | macgc _ _ | wrfb _ _ =>
    obtain ⟨hhost, _, hfb, rfl⟩ := hw
    exact inv_of_host_writes_fb h hhost hfb
  | crypt _ _ =>
    obtain ⟨hhost, _, _, hfb, rfl⟩ := hw
    exact { inv_of_host_writes_fb h hhost hfb with }
  | putc _ =>
    obtain ⟨hplen, _, hpb, rfl⟩ := hw
    exact inv_of_putc h hplen hpb
  | clrpb =>
    obtain rfl := hw
    exact { h with plen_le := Nat.zero_le _ }
  | buildd _ | builds _ => exact inv_of_frameBuilt h hw
  | send =>
    obtain ⟨hhost, -, _, rfl⟩ := hw
    exact inv_of_send h hhost _
  | rxproc => exact inv_of_frameProcessed h hw
  | rxon =>
    obtain rfl := hw
    exact inv_of_rxon h
  | stop =>
    obtain rfl := hw
    exact inv_of_stop h

theorem inv_exec {i : Instr} {s t : State} (h : s.Inv) (ht : exec i s = .next t) : t.Inv := by
  rcases exec_next ht with ⟨e, rfl⟩ | ⟨u, data, hw, rfl⟩
  · exact inv_failed h e
  · exact inv_respond (inv_of_writes h hw) 0 data

/-! ## Events -/

/-- A byte stored after the first one leaves the length byte, so the declared length is that of the frame so far. -/
theorem declaredLength_write {a : Nat} (fb : Memory) (b : Byte) (h : a ≠ 0) :
    declaredLength (fb.write a b) = declaredLength fb := by
  rw [declaredLength, read_write, if_neg (Ne.symm h), declaredLength]

theorem declaredLength_lt (fb : Memory) : declaredLength fb < 128 := by
  rw [declaredLength_eq]
  exact Nat.mod_lt _ (by decide)

theorem toNat_add_one {x : Byte} {n : Nat} (h : x.toNat < n) (hn : n ≤ 255) : (x + 1).toNat = x.toNat + 1 := by
  bv_omega

/-- While a frame is being collected, the count of its bytes is below its declared length; at its start it is 0. -/
theorem rxpos_lt_declaredLength {s : State} (h : s.Inv) (harmed : s.rxen = true) {b : Byte}
    (hmin : 6 ≤ declaredLength (s.fb.write s.rxpos.toNat b)) :
    s.rxpos.toNat < declaredLength (s.fb.write s.rxpos.toNat b) := by
  by_cases hpos : s.rxpos = 0
  · have hzero : s.rxpos.toNat = 0 := by simp [hpos]
    omega
  · obtain ⟨hlt, -⟩ := h.collecting harmed hpos
    rwa [declaredLength_write]
    exact fun hzero => hpos (BitVec.eq_of_toNat_eq (by simpa using hzero))

theorem inv_of_rejected {s : State} (h : s.Inv) (harmed : s.rxen = true) {fb : Memory}
    (hfb : KeepsForm s.config.frameMax s.fb fb) : State.Inv { s with fb := fb, rxpos := 0, rxrej := true } :=
  have ⟨_, hfrz⟩ := h.armed harmed
  { h with
    fb_wf := hfb.wf h.fb_wf
    fb_within := hfb.within h.fb_within
    frozen := fun hfrz' => nomatch hfrz.symm.trans hfrz'
    rxpos_lt := fun _ => frameMax_pos h.config_wf
    collecting := fun _ hpos => absurd rfl hpos }

theorem inv_of_frozen {s : State} (h : s.Inv) (harmed : s.rxen = true) {fb : Memory}
    (hfb : KeepsForm s.config.frameMax s.fb fb) {n : Nat} (hn : (s.rxpos + 1).toNat = n)
    (hlen : 6 ≤ n ∧ n < s.config.frameMax ∧ n ≤ 127) :
    State.Inv { s with fb := fb, rxpos := s.rxpos + 1, rxen := false, rxfrz := true } :=
  have ⟨hlm, _⟩ := h.armed harmed
  { h with
    fb_wf := hfb.wf h.fb_wf
    fb_within := hfb.within h.fb_within
    armed := fun harmed => nomatch harmed
    frozen := fun _ => ⟨rfl, hlm, hn ▸ hlen⟩
    rxpos_lt := fun harmed => nomatch harmed
    collecting := fun harmed => nomatch harmed }

theorem inv_of_collected {s : State} (h : s.Inv) (harmed : s.rxen = true) {fb : Memory}
    (hfb : KeepsForm s.config.frameMax s.fb fb) {n : Nat} (hn : (s.rxpos + 1).toNat = n)
    (hlen : n < declaredLength fb ∧ 6 ≤ declaredLength fb ∧ declaredLength fb < s.config.frameMax) :
    State.Inv { s with fb := fb, rxpos := s.rxpos + 1 } :=
  have ⟨_, hfrz⟩ := h.armed harmed
  { h with
    fb_wf := hfb.wf h.fb_wf
    fb_within := hfb.within h.fb_within
    frozen := fun hfrz' => nomatch hfrz.symm.trans hfrz'
    rxpos_lt := fun _ => hn ▸ hlen.1.trans hlen.2.2
    collecting := fun _ _ => hn ▸ hlen }

/-- R147: a frame is frozen exactly when its count reaches the declared length, which is acceptable by then. -/
theorem inv_receiveByte {s : State} (h : s.Inv) (b : Byte) : (receiveByte b s).Inv := by
  rcases receiveByte_cases b s with
    ⟨-, heq⟩ | ⟨harmed, hfull, -⟩ | ⟨harmed, hroom, ⟨-, heq⟩ | ⟨hmin, hmax, hdone, heq⟩ | ⟨hmin, hmax, hshort, heq⟩⟩
  · rwa [heq]
  · exact absurd (h.rxpos_lt harmed) (by omega)
  · rw [heq]
    exact inv_of_rejected h harmed (keepsForm_write _ _ hroom)
  · rw [heq]
    have hpos := rxpos_lt_declaredLength h harmed hmin
    have hlen := declaredLength_lt (s.fb.write s.rxpos.toNat b)
    have hcount : (s.rxpos + 1).toNat = s.rxpos.toNat + 1 := toNat_add_one hpos (by omega)
    exact inv_of_frozen h harmed (keepsForm_write _ _ hroom) hcount (by omega)
  · rw [heq]
    have hlen := declaredLength_lt (s.fb.write s.rxpos.toNat b)
    have hcount : (s.rxpos + 1).toNat = s.rxpos.toNat + 1 := toNat_add_one (Nat.lt_of_succ_lt hshort) (by omega)
    exact inv_of_collected h harmed (keepsForm_write _ _ hroom) hcount ⟨hshort, hmin, hmax⟩

/-- Whoever owns the buffer, a transmission that ends neither arms nor freezes. -/
theorem inv_completeTransmission {s : State} (h : s.Inv) : (completeTransmission s).Inv := by
  by_cases hlm : s.lm = .transmitting
  · rw [Steps.completeTransmission_of_transmitting hlm]
    have hno : s.lm ≠ .receiving := by simp [hlm]
    exact { h with
      armed := fun harmed => absurd (h.armed harmed).1 hno
      frozen := fun hfrz => absurd (h.frozen hfrz).2.1 hno }
  · rwa [Steps.completeTransmission_of_not_transmitting hlm]

/-- Settles O11: the invariants do not speak of the inbox, and each kind of input keeps them. -/
theorem stepKeepsTheInvariants : Obligations.StepKeepsTheInvariants := by
  intro s t hinv ht
  cases hinbox : s.inbox with
  | nil =>
    obtain rfl := Host.Outcome.next.inj ((Steps.step_of_no_input hinbox).symm.trans ht)
    exact hinv
  | cons i rest =>
    rw [step_of_inbox hinbox] at ht
    have hinv' : State.Inv { s with inbox := rest } := { hinv with }
    cases i with
    | command w =>
      rcases Steps.acceptCommand_cases w { s with inbox := rest } with ⟨i, -, h⟩ | h <;> rw [acceptInput, h] at ht
      · exact inv_exec hinv' ht
      · obtain rfl := fail_next ht
        exact inv_failed hinv' .illegal
    | rxByte b =>
      obtain rfl := Host.Outcome.next.inj ht
      exact inv_receiveByte hinv' b
    | txComplete =>
      obtain rfl := Host.Outcome.next.inj ht
      exact inv_completeTransmission hinv'
    | hardReset =>
      obtain rfl := Host.Outcome.next.inj ht
      exact inv_cleared hinv.config_wf

end Sys2Proof.Invariants
end

section
/-! PROOFS. What every command keeps: its one response and the error flags (spec 60_exceptions.md R190, R191), the pieces
of state that are not its own (10_state.md R33), the frame buffer of another owner (20_memory.md R44). -/

namespace Sys2Proof.Summary

open Sys2Proof Sys2Proof.Machine Sys2Proof.Outcomes

/-! ## The table of R33 -/

/-- The columns of R33: each piece of state is as before, unless the command is one of those named for it. -/
structure KeepsOthers (i : Instr) (s u : State) : Prop where
  config : u.config = s.config
  inbox : u.inbox = s.inbox
  responses : u.responses = s.responses
  errflags : u.errflags = s.errflags
  keys : (∀ idx d, i ≠ .wrmk idx d) → i ≠ .derive → u.keys = s.keys ∧ u.mkmask = s.mkmask ∧ u.krdy = s.krdy
  ctr : (∀ idx d, i ≠ .wrctr idx d) → (∀ k, i ≠ .addcnt k) → (∀ off len, i ≠ .crypt off len) →
    (∀ addr, i ≠ .buildd addr) → (∀ addr, i ≠ .builds addr) → i ≠ .rxproc → u.ctr = s.ctr
  blk : (∀ idx d, i ≠ .wrblk idx d) → i ≠ .xencMac → i ≠ .xencEnc → i ≠ .xencMaster → u.blk = s.blk
  fb : (∀ off len, i ≠ .macg off len) → (∀ off len, i ≠ .macgc off len) → (∀ off len, i ≠ .crypt off len) →
    (∀ idx d, i ≠ .wrfb idx d) → (∀ addr, i ≠ .buildd addr) → (∀ addr, i ≠ .builds addr) → i ≠ .rxproc → u.fb = s.fb
  pb : (∀ d, i ≠ .putc d) → u.pb = s.pb
  plen : (∀ d, i ≠ .putc d) → i ≠ .clrpb → (∀ addr, i ≠ .buildd addr) → (∀ addr, i ≠ .builds addr) → u.plen = s.plen
  role : (∀ r, i ≠ .setrole r) → u.role = s.role
  rxen : i ≠ .rxon → i ≠ .stop → u.rxen = s.rxen ∧ u.rxrej = s.rxrej
  rxpos : i ≠ .rxon → i ≠ .stop → i ≠ .send → (∀ addr, i ≠ .buildd addr) → (∀ addr, i ≠ .builds addr) →
    u.rxpos = s.rxpos ∧ u.txlen = s.txlen ∧ (i ≠ .rxproc → u.rxfrz = s.rxfrz)
  rxres : i ≠ .rxproc → u.rxres = s.rxres
  lm : i ≠ .send → i ≠ .rxproc → i ≠ .rxon → i ≠ .stop → u.lm = s.lm
  txframes : i ≠ .send → u.txframes = s.txframes

/-- Each group of commands writes its columns of R33 and no other. -/
theorem keepsOthers_of_writes {i : Instr} {s u : State} (h : Writes i s u) (hreset : i ≠ .reset) : KeepsOthers i s u := by
  cases i with
  | reset => exact absurd rfl hreset
  | nop | rdcsr _ | rdctr _ | rdblk _ | rdfb _ | macv _ _ | macvc _ _ | clrpb | rxon | stop =>
    obtain rfl := h
    constructor <;> simp
  | setrole _ | derive | wrctr _ _ | addcnt _ | wrblk _ _ | xencMac | xencEnc | xencMaster =>
    obtain ⟨x, rfl⟩ := h
    constructor <;> simp
  | wrmk _ _ =>
    obtain ⟨keys, mkmask, rfl⟩ := h
    constructor <;> simp
  | macg _ _ | macgc _ _ | wrfb _ _ =>
    obtain ⟨-, fb, -, rfl⟩ := h
    constructor <;> simp
  | crypt _ _ =>
    obtain ⟨-, fb, ctr, -, rfl⟩ := h
    constructor <;> simp
  | putc _ =>
    obtain ⟨-, pb, -, rfl⟩ := h
    constructor <;> simp
  | buildd _ | builds _ =>
    obtain ⟨-, -, n, -, -, fb, ctr, -, rfl⟩ := h
    constructor <;> simp
  | send =>
    obtain ⟨-, -, frames, rfl⟩ := h
    constructor <;> simp
  | rxproc =>
    obtain ⟨-, -, fb, ctr, lm, res, -, -, rfl⟩ := h
    constructor <;> simp

/-- A command that failed changed one bit of `ERRFLAGS`, which is nothing of the table. -/
theorem failsWith_of_failed {i : Instr} {s : State} {e : CommandError} (h : exec i s = .next (s.failed e)) :
    FailsWith (exec i s) s e.code.toNat := by
  rw [h]
  exact Xtea.failsWith_fail e s

/-- Settles O57: a failure changes nothing of the table, and a success only what the command writes. -/
theorem whoWritesWhat : Obligations.WhoWritesWhat := by
  intro i s t h hreset
  rcases exec_next h with ⟨e, rfl⟩ | ⟨u, data, hw, rfl⟩
  · obtain ⟨-, hmin, hmax⟩ := flag_eq_bit e
    have herr : ∃ code, 1 ≤ code ∧ code ≤ 6 ∧ FailsWith (exec i s) s code := ⟨_, hmin, hmax, failsWith_of_failed h⟩
    simp [State.failed, herr]
  · have k := keepsOthers_of_writes hw hreset
    exact ⟨⟨k.config, k.inbox⟩, k.keys, k.ctr, k.blk, k.fb, k.pb, k.plen, k.role, k.rxen, k.rxpos, k.rxres, k.lm,
      .inl k.errflags, k.txframes⟩

/-! ## The response and the error flags -/

theorem code_ne_zero (e : CommandError) : e.code ≠ 0 := by
  cases e <;> decide

/-- A reset clears `ERRFLAGS`, every other success leaves it; no success gives a response of its own. -/
theorem writes_errflags {i : Instr} {s u : State} (h : Writes i s u) :
    u.responses = s.responses ∧ u.errflags = if i = .reset then 0 else s.errflags := by
  by_cases hreset : i = .reset
  · subst hreset
    obtain rfl := h
    exact ⟨rfl, rfl⟩
  · have k := keepsOthers_of_writes h hreset
    exact ⟨k.responses, by rw [if_neg hreset, k.errflags]⟩

/-- Settles O53: the code of a failure is that of its error, and the code of a success is 0. -/
theorem failingCommandChangesOneFlagOnly : Obligations.FailingCommandChangesOneFlagOnly := by
  intro i s t h
  rcases exec_next h with ⟨e, rfl⟩ | ⟨u, data, hw, rfl⟩
  · obtain ⟨-, -, hmax⟩ := flag_eq_bit e
    exact ⟨e.code, 0, rfl, hmax, fun _ => ⟨failsWith_of_failed h, rfl⟩, fun hzero => absurd hzero (code_ne_zero e)⟩
  · obtain ⟨hresp, herr⟩ := writes_errflags hw
    exact ⟨0, data, by rw [respond_responses, hresp, responseWord], by decide, fun hne => absurd rfl hne, fun _ => herr⟩

/-- Setting a sticky bit keeps those that are set. -/
theorem getLsbD_failed {s : State} {k : Nat} (e : CommandError) (h : s.errflags.getLsbD k = true) :
    (s.failed e).errflags.getLsbD k = true := by
  simp [State.failed, h]

theorem getLsbD_errflags_exec {i : Instr} {s t : State} {k : Nat} (ht : exec i s = .next t) (hreset : i ≠ .reset)
    (h : s.errflags.getLsbD k = true) : t.errflags.getLsbD k = true := by
  rcases exec_next ht with ⟨e, rfl⟩ | ⟨u, data, hw, rfl⟩
  · exact getLsbD_failed e h
  · rwa [respond_errflags, (keepsOthers_of_writes hw hreset).errflags]

theorem receiveByte_errflags (b : Byte) (s : State) : (receiveByte b s).errflags = s.errflags := by
  rcases receiveByte_cases b s with ⟨-, h⟩ | ⟨-, -, h⟩ | ⟨-, -, ⟨-, h⟩ | ⟨-, -, -, h⟩ | ⟨-, -, -, h⟩⟩ <;> rw [h]

theorem completeTransmission_errflags (s : State) : (completeTransmission s).errflags = s.errflags := by
  unfold completeTransmission
  split <;> rfl

/-- Settles O54: the inputs are gone through one by one, and the two resets are the exceptions. -/
theorem errflagsAreSticky : Obligations.ErrflagsAreSticky := by
  intro s t k ht hk
  cases hinbox : s.inbox with
  | nil =>
    obtain rfl := Host.Outcome.next.inj ((Steps.step_of_no_input hinbox).symm.trans ht)
    exact .inl hk
  | cons i rest =>
    rw [step_of_inbox hinbox] at ht
    cases i with
    | command w =>
      rcases Steps.acceptCommand_cases w { s with inbox := rest } with ⟨i, hi, h⟩ | h <;> rw [acceptInput, h] at ht
      · by_cases hreset : i = .reset
        · exact .inr ⟨rest, .inr ⟨w, rfl, hreset ▸ hi⟩⟩
        · exact .inl (getLsbD_errflags_exec ht hreset hk)
      · obtain rfl := fail_next ht
        exact .inl (getLsbD_failed _ hk)
    | rxByte b =>
      obtain rfl := Host.Outcome.next.inj ht
      rw [receiveByte_errflags]
      exact .inl hk
    | txComplete =>
      obtain rfl := Host.Outcome.next.inj ht
      rw [completeTransmission_errflags]
      exact .inl hk
    | hardReset => exact .inr ⟨rest, .inl rfl⟩

/-! ## Commands without keys -/

/-- A failure with `ERR_ROLE`, `ERR_STATE` or `ERR_NOKEY`. -/
def FailsByNoKey (o : Host.Outcome State Fault Refusal) (s : State) : Prop :=
  FailsWith o s 2 ∨ FailsWith o s 3 ∨ FailsWith o s 4

theorem failsByNoKey_fail (s : State) {e : CommandError} (h : e = .role ∨ e = .state ∨ e = .nokey) :
    FailsByNoKey (fail e s) s := by
  obtain rfl | rfl | rfl := h
  · exact .inl (Xtea.failsWith_fail .role s)
  · exact .inr (.inl (Xtea.failsWith_fail .state s))
  · exact .inr (.inr (Xtea.failsWith_fail .nokey s))

/-- A check that comes before that of the keys. -/
theorem failsByNoKey_check {c : Prop} [Decidable c] {e : CommandError} {s : State}
    {o : Host.Outcome State Fault Refusal} (he : e = .role ∨ e = .state) (h : FailsByNoKey o s) :
    FailsByNoKey (if c then fail e s else o) s := by
  split_ifs
  · exact failsByNoKey_fail s (he.imp_right .inl)
  · exact h

/-- The check of the keys. -/
theorem failsByNoKey_keys {s : State} (o : Host.Outcome State Fault Refusal) (h : s.krdy = false) :
    FailsByNoKey (if s.krdy = false then fail .nokey s else o) s := by
  rw [if_pos h]
  exact failsByNoKey_fail s (.inr (.inr rfl))

theorem failsByNoKey_checkMac (off len : Byte) {s : State} (o : Host.Outcome State Fault Refusal)
    (h : s.krdy = false) : FailsByNoKey (checkMac off len s o) s :=
  failsByNoKey_check (.inr rfl) (failsByNoKey_keys _ h)

/-- Settles O55: in each of the ten commands the check of the keys comes after those of role and owner, and before every
other. -/
theorem commandsWithoutKeysFail : Obligations.CommandsWithoutKeysFail := by
  intro i s off len addr hkrdy hi
  change FailsByNoKey (exec i s) s
  rcases hi with rfl | rfl | rfl | rfl | rfl | rfl | rfl | rfl | rfl | rfl
  case inl => exact .inr (.inr (Xtea.failsWith_encryptBlk (k := .mac) hkrdy))
  case inr.inl => exact .inr (.inr (Xtea.failsWith_encryptBlk (k := .enc) hkrdy))
  · exact failsByNoKey_checkMac _ _ _ hkrdy
  · exact failsByNoKey_checkMac _ _ _ hkrdy
  · exact failsByNoKey_checkMac _ _ _ hkrdy
  · exact failsByNoKey_checkMac _ _ _ hkrdy
  · exact failsByNoKey_check (.inr rfl) (failsByNoKey_keys _ hkrdy)
  · exact failsByNoKey_check (.inr rfl) (failsByNoKey_keys _ hkrdy)
  · exact failsByNoKey_check (.inl rfl) (failsByNoKey_check (.inr rfl) (failsByNoKey_keys _ hkrdy))
  · exact failsByNoKey_check (.inr rfl) (failsByNoKey_keys _ hkrdy)

/-! ## The owner of the frame buffer -/

/-- A host command writes the buffer only as its owner, and `RXPROC` only once the deframer has given it up. -/
theorem writes_fb_of_not_hostFb {i : Instr} {s u : State} (hinv : s.Inv) (hown : s.hostFb = false) (hreset : i ≠ .reset)
    (h : Writes i s u) : u.fb = s.fb := by
  cases i with
  | macg _ _ | macgc _ _ | wrfb _ _ | crypt _ _ | buildd _ | builds _ => exact absurd h.1 (by simp [hown])
  | rxproc =>
    obtain ⟨hoff, hlm, -⟩ := hinv.frozen h.1
    simp [State.hostFb, hoff, hlm] at hown
  | _ => exact (keepsOthers_of_writes h hreset).fb (by simp) (by simp) (by simp) (by simp) (by simp) (by simp) (by simp)

/-- Settles O56: the owner of the buffer is what the writing commands check first. -/
theorem onlyTheOwnerWritesTheFrameBuffer : Obligations.OnlyTheOwnerWritesTheFrameBuffer := by
  constructor
  · intro i s t hinv hbusy hreset ht
    have hown := (Buffers.hostFb_eq_false_iff s).mpr hbusy
    rcases exec_next ht with ⟨e, rfl⟩ | ⟨u, data, hw, rfl⟩
    · rfl
    · rw [respond_fb, writes_fb_of_not_hostFb hinv hown hreset hw]
  · intro s t b rest hinbox ht hoff
    have hstep := Framer.step_of_receiveByte hinbox (Framer.receiveByte_of_not_armed b (s := { s with inbox := rest }) hoff)
    obtain rfl := Host.Outcome.next.inj (hstep.symm.trans ht)
    rfl

end Sys2Proof.Summary
end

section
/-! PROOFS. The link mode and the frozen frame: which commands and events change them (spec 46_link_system.md R178), and
the interrupt line that shows them (60_exceptions.md R194, R195). -/

namespace Sys2Proof.LinkModes

open Sys2Proof Sys2Proof.Machine Sys2Proof.Outcomes

/-! ## Commands -/

/-- What a success makes of the link mode (R178). -/
theorem writes_lm {i : Instr} {s u : State} (h : Writes i s u) :
    (i = .rxon ∧ u.lm = .receiving) ∨ (i = .stop ∧ u.lm = .stopped) ∨ (i = .reset ∧ u.lm = .stopped) ∨
    (i = .send ∧ s.hostFb = true ∧ s.txlen ≠ 0 ∧ u.lm = .transmitting) ∨
    (i = .rxproc ∧ s.rxfrz = true ∧ u.rxfrz = false ∧ u.rxres = .syncOk ∧ u.lm = .stopped) ∨
    (i ≠ .rxon ∧ i ≠ .stop ∧ i ≠ .reset ∧ i ≠ .send ∧ u.lm = s.lm) := by
  cases i with
  | rxon =>
    obtain rfl := h
    simp
  | stop =>
    obtain rfl := h
    simp
  | reset =>
    obtain rfl := h
    simp
  | send =>
    obtain ⟨hhost, hlen, _, rfl⟩ := h
    simpa using ⟨hhost, hlen⟩
  | rxproc =>
    obtain ⟨hfrz, -, fb, ctr, lm, res, -, rfl | ⟨rfl, rfl⟩, rfl⟩ := h
    · simp
    · simp [hfrz]
  | _ => simpa using (Summary.keepsOthers_of_writes h (by simp)).lm (by simp) (by simp) (by simp) (by simp)

/-- The commands whose success clears a frozen frame (R195). -/
def ClearsFrozen (i : Instr) : Prop :=
  i = .rxproc ∨ i = .rxon ∨ i = .stop ∨ i = .send ∨ (∃ addr, i = .buildd addr) ∨ (∃ addr, i = .builds addr) ∨ i = .reset

/-- The commands whose success leaves tx-done (R195). -/
def LeavesTxDone (i : Instr) : Prop := i = .rxon ∨ i = .stop ∨ i = .send ∨ i = .reset

theorem writes_rxfrz {i : Instr} {s u : State} (h : Writes i s u) :
    (ClearsFrozen i ∧ u.rxfrz = false) ∨ (¬ClearsFrozen i ∧ u.rxfrz = s.rxfrz) := by
  cases i with
  | rxproc =>
    obtain ⟨-, -, _, _, _, _, -, -, rfl⟩ := h
    simp [ClearsFrozen]
  | rxon | stop | reset =>
    obtain rfl := h
    simp [ClearsFrozen]
  | send =>
    obtain ⟨-, -, _, rfl⟩ := h
    simp [ClearsFrozen]
  | buildd _ | builds _ =>
    obtain ⟨-, -, _, -, -, _, _, -, rfl⟩ := h
    simp [ClearsFrozen]
  | _ =>
    obtain ⟨-, -, hfrz⟩ :=
      (Summary.keepsOthers_of_writes h (by simp)).rxpos (by simp) (by simp) (by simp) (by simp) (by simp)
    simpa [ClearsFrozen] using hfrz (by simp)

/-- The three commands that check nothing. -/
theorem ne_failed_of_unchecked {i : Instr} {s : State} {e : CommandError} (h : exec i s = .next (s.failed e)) :
    i ≠ .rxon ∧ i ≠ .stop ∧ i ≠ .reset := by
  have hne : ∀ u : State, succeed u 0 = .next (s.failed e) → u.responses ≠ s.responses := by
    intro u heq hu
    have hresp := congrArg State.responses (Host.Outcome.next.inj heq)
    rw [respond_responses, hu, State.failed, respond_responses, flagError_responses] at hresp
    obtain ⟨hcode, -⟩ := Framer.responseWord_inj (List.singleton_injective (List.append_cancel_left hresp))
    exact Summary.code_ne_zero e hcode.symm
  refine ⟨?_, ?_, ?_⟩ <;> rintro rfl <;> exact hne _ h rfl

/-! ## The transitions -/

theorem receiveByte_lm (b : Byte) (s : State) : (receiveByte b s).lm = s.lm := by
  rcases receiveByte_cases b s with ⟨-, h⟩ | ⟨-, -, h⟩ | ⟨-, -, ⟨-, h⟩ | ⟨-, -, -, h⟩ | ⟨-, -, -, h⟩⟩ <;> rw [h]

theorem completeTransmission_lm (s : State) :
    (completeTransmission s).lm = if s.lm = .transmitting then .txDone else s.lm := by
  unfold completeTransmission
  split <;> rfl

/-- Settles O19: a failing command leaves the mode, a succeeding one does what `writes_lm` says, and a frozen frame is one
of the receiving mode. -/
theorem linkModeTransitions : Obligations.LinkModeTransitions := by
  refine ⟨fun i s t hinv ht => ?_, fun s t rest ht => ⟨fun b hinbox => ?_, fun hinbox => ?_, fun hinbox => ?_⟩⟩
  · rcases exec_next ht with ⟨e, rfl⟩ | ⟨u, data, hw, rfl⟩
    · obtain ⟨hrxon, hstop, hreset⟩ := ne_failed_of_unchecked ht
      exact .inr (.inr (.inr (.inr (.inr ⟨hrxon, hstop, hreset, rfl⟩))))
    · rcases writes_lm hw with h | h | h | ⟨hi, hhost, hlen, hlm⟩ | ⟨hi, hfrz, h⟩ | ⟨hrxon, hstop, hreset, -, hlm⟩
      · exact .inl h
      · exact .inr (.inl h)
      · exact .inr (.inr (.inl h))
      · obtain ⟨hoff, hidle⟩ := (hostFb_iff s).mp hhost
        exact .inr (.inr (.inr (.inl ⟨hi, hidle, hoff, hlen, hlm⟩)))
      · obtain ⟨-, hrecv, -⟩ := hinv.frozen hfrz
        exact .inr (.inr (.inr (.inr (.inl ⟨hi, hrecv, hfrz, h⟩))))
      · exact .inr (.inr (.inr (.inr (.inr ⟨hrxon, hstop, hreset, hlm⟩))))
  · obtain rfl := Host.Outcome.next.inj ((step_of_inbox hinbox).symm.trans ht)
    exact receiveByte_lm b _
  · obtain rfl := Host.Outcome.next.inj ((step_of_inbox hinbox).symm.trans ht)
    exact completeTransmission_lm _
  · obtain rfl := Host.Outcome.next.inj ((step_of_inbox hinbox).symm.trans ht)
    rfl

/-! ## The interrupt line -/

theorem irq_eq_false_iff (s : State) : s.irq = false ↔ s.rxfrz = false ∧ s.lm ≠ .txDone := by
  rw [← Bool.not_eq_true, Link.irq_iff, not_or, Bool.not_eq_true]

/-- A response with code 0 is that of a success. -/
theorem succeeded_of_response {i : Instr} {s t : State} {data : Byte} (ht : exec i s = .next t)
    (hresp : t.responses = s.responses ++ [0x00#8 ++ data]) : Succeeded i s t := by
  refine (exec_next ht).resolve_left ?_
  rintro ⟨e, rfl⟩
  rw [State.failed, respond_responses, flagError_responses] at hresp
  obtain ⟨hcode, -⟩ := Framer.responseWord_inj (List.singleton_injective (List.append_cancel_left hresp))
  exact Summary.code_ne_zero e hcode

theorem writes_rxfrz_of_low {i : Instr} {s u : State} (h : Writes i s u) (hfrz : s.rxfrz = false) : u.rxfrz = false := by
  rcases writes_rxfrz h with ⟨-, hu⟩ | ⟨-, hu⟩
  · exact hu
  · rw [hu, hfrz]

/-- No command ends a transmission with the strobe's mode. -/
theorem writes_lm_ne_txDone {i : Instr} {s u : State} (h : Writes i s u) (hlm : s.lm ≠ .txDone ∨ LeavesTxDone i) :
    u.lm ≠ .txDone := by
  rcases writes_lm h with ⟨-, hu⟩ | ⟨-, hu⟩ | ⟨-, hu⟩ | ⟨-, -, -, hu⟩ | ⟨-, -, -, -, hu⟩ | ⟨h1, h2, h3, h4, hu⟩ <;> rw [hu]
  case inr.inr.inr.inr.inr =>
    refine hlm.resolve_right ?_
    rintro (hi | hi | hi | hi) <;> contradiction
  all_goals simp

theorem lm_ne_txDone_of_frozen {s : State} (h : s.Inv) (hfrz : s.rxfrz = true) : s.lm ≠ .txDone := by
  intro hlm
  simp [Invariants.not_frozen_of_txDone h hlm] at hfrz

/-- Settles O58: the line is read off its two sources, and a command changes these where it succeeds. -/
theorem interruptLineAndItsSources : Obligations.InterruptLineAndItsSources := by
  refine ⟨Link.irq_iff, fun s h hboth => lm_ne_txDone_of_frozen h hboth.1 hboth.2, ?noRise, ?frozenOnly, ?frozenCleared,
    ?doneOnly, ?doneLeft, ?idle⟩
  case noRise =>
    intro i s t _ ht hlow
    obtain ⟨hfrz, hlm⟩ := (irq_eq_false_iff s).mp hlow
    rcases exec_next ht with ⟨e, rfl⟩ | ⟨u, data, hw, rfl⟩
    · exact hlow
    · have hfrz' := writes_rxfrz_of_low hw hfrz
      have hlm' := writes_lm_ne_txDone hw (.inl hlm)
      exact (irq_eq_false_iff _).mpr ⟨hfrz', hlm'⟩
  case frozenOnly =>
    intro i s t _ ht hfrz hcleared
    rcases exec_next ht with ⟨e, rfl⟩ | ⟨u, data, hw, rfl⟩
    · exact nomatch hfrz.symm.trans hcleared
    · rcases writes_rxfrz hw with ⟨hi, -⟩ | ⟨-, hu⟩
      · exact hi
      · exact nomatch hfrz.symm.trans (hu.symm.trans hcleared)
  case frozenCleared =>
    intro i s t data hinv ht hresp hfrz hi
    obtain ⟨u, data', hw, rfl⟩ := succeeded_of_response ht hresp
    have hu : u.rxfrz = false := (writes_rxfrz hw).elim And.right fun hno => absurd hi hno.1
    have hlm := writes_lm_ne_txDone hw (.inl (lm_ne_txDone_of_frozen hinv hfrz))
    exact ⟨hu, (irq_eq_false_iff _).mpr ⟨hu, hlm⟩⟩
  case doneOnly =>
    intro i s t hinv ht hdone hleft
    rcases exec_next ht with ⟨e, rfl⟩ | ⟨u, data, hw, rfl⟩
    · exact absurd hdone hleft
    · have hno := Invariants.not_frozen_of_txDone hinv hdone
      rcases writes_lm hw with ⟨hi, -⟩ | ⟨hi, -⟩ | ⟨hi, -⟩ | ⟨hi, -⟩ | ⟨-, hfrz, -⟩ | ⟨-, -, -, -, hu⟩
      · exact .inl hi
      · exact .inr (.inl hi)
      · exact .inr (.inr (.inr hi))
      · exact .inr (.inr (.inl hi))
      · exact nomatch hno.symm.trans hfrz
      · exact absurd (hu.trans hdone) hleft
  case doneLeft =>
    intro i s t data hinv ht hresp hdone hi
    obtain ⟨u, data', hw, rfl⟩ := succeeded_of_response ht hresp
    have hlm := writes_lm_ne_txDone hw (.inr hi)
    have hfrz := writes_rxfrz_of_low hw (Invariants.not_frozen_of_txDone hinv hdone)
    exact ⟨hlm, (irq_eq_false_iff _).mpr ⟨hfrz, hlm⟩⟩
  case idle =>
    rintro s ⟨hlm, -, hfrz, -⟩
    exact (irq_eq_false_iff s).mpr ⟨hfrz, by simp [hlm]⟩

end Sys2Proof.LinkModes
end

section
/-! PROOFS. The key schedule as a whole (spec 41_key_schedule.md R92, R93): the five slots of `KEYS` after `DERIVE`, what
they depend on, and what is left of the master key. -/

namespace Sys2Proof.KeySchedule

open Sys2Proof Sys2Proof.Machine

/-! ## Slots -/

theorem zeroBlock_eq_replicate : zeroBlock = Vector.replicate 8 0 := by decide

/-- Two slots side by side are the operand that covers both. -/
theorem slice_congr_of_halves {n : Nat} {v w : Vector Byte n} {off m : Nat} (hlo : slice v off m = slice w off m)
    (hhi : slice v (off + m) m = slice w (off + m) m) : slice v off (m + m) = slice w off (m + m) := by
  apply bytes_ext
  intro i hi
  rw [byteAt_slice, byteAt_slice, if_pos hi, if_pos hi]
  obtain h | h := Nat.lt_or_ge i m
  · simpa [h] using congrArg (byteAt · i) hlo
  · have hsub : i - m < m := by omega
    simpa [hsub, Nat.add_assoc, Nat.add_sub_cancel' h] using congrArg (byteAt · (i - m)) hhi

/-- The five slots cover `KEYS`. -/
theorem keys_ext {v w : Vector Byte 40} (h : ∀ j, j < 5 → slice v (8 * j) 8 = slice w (8 * j) 8) : v = w := by
  apply bytes_ext
  intro i hi
  have hmod : i % 8 < 8 := Nat.mod_lt _ (by decide)
  simpa [hmod, Nat.div_add_mod] using congrArg (byteAt · (i % 8)) (h (i / 8) (by omega))

/-- `KEYS` after step 1 of R92: the seeds encrypted under the master key, in slots 0 to 2. -/
def seedKeys (enc : Key → Block → Block) (c : Config) (keys : Vector Byte 40) : Vector Byte 40 :=
  let mk := keyOperand keys .master
  setSlice (setSlice (setSlice keys 0 (enc mk c.seedMac)) 8 (enc mk c.seedEncLo)) 16 (enc mk c.seedEncHi)

/-- `K1`, from the MAC key that step 1 has given. -/
def derivedK1 (enc : Key → Block → Block) (c : Config) (keys : Vector Byte 40) : Block :=
  dbl c.rb (enc (slice (seedKeys enc c keys) 0 16) zeroBlock)

theorem deriveKeys_eq (enc : Key → Block → Block) (c : Config) (keys : Vector Byte 40) :
    deriveKeys enc c keys =
      setSlice (setSlice (seedKeys enc c keys) 24 (derivedK1 enc c keys)) 32 (dbl c.rb (derivedK1 enc c keys)) := rfl

/-- The two subkeys stand above the slots of step 1. -/
theorem slice_deriveKeys_below (enc : Key → Block → Block) (c : Config) (keys : Vector Byte 40) {off m : Nat}
    (h : off + m ≤ 24) : slice (deriveKeys enc c keys) off m = slice (seedKeys enc c keys) off m := by
  rw [deriveKeys_eq, slice_setSlice_disjoint _ _ _ _ (by omega) (.inl (by omega)),
    slice_setSlice_disjoint _ _ _ _ (by omega) (.inl (by omega))]

theorem deriveKeys_mac (enc : Key → Block → Block) (c : Config) (keys : Vector Byte 40) :
    slice (deriveKeys enc c keys) 0 8 = enc (slice keys 24 16) c.seedMac := by
  rw [slice_deriveKeys_below _ _ _ (by decide), seedKeys, slice_setSlice_disjoint _ _ _ _ (by decide) (by decide),
    slice_setSlice_disjoint _ _ _ _ (by decide) (by decide), slice_setSlice_same _ _ _ (by decide)]
  rfl

theorem deriveKeys_encLo (enc : Key → Block → Block) (c : Config) (keys : Vector Byte 40) :
    slice (deriveKeys enc c keys) 8 8 = enc (slice keys 24 16) c.seedEncLo := by
  rw [slice_deriveKeys_below _ _ _ (by decide), seedKeys, slice_setSlice_disjoint _ _ _ _ (by decide) (by decide),
    slice_setSlice_same _ _ _ (by decide)]
  rfl

theorem deriveKeys_encHi (enc : Key → Block → Block) (c : Config) (keys : Vector Byte 40) :
    slice (deriveKeys enc c keys) 16 8 = enc (slice keys 24 16) c.seedEncHi := by
  rw [slice_deriveKeys_below _ _ _ (by decide), seedKeys, slice_setSlice_same _ _ _ (by decide)]
  rfl

theorem deriveKeys_k1 (enc : Key → Block → Block) (c : Config) (keys : Vector Byte 40) :
    slice (deriveKeys enc c keys) 24 8 =
      dbl c.rb (enc (slice (deriveKeys enc c keys) 0 16) (Vector.replicate 8 0)) := by
  have hkey : slice (deriveKeys enc c keys) 0 16 = slice (seedKeys enc c keys) 0 16 :=
    slice_deriveKeys_below _ _ _ (by decide)
  rw [hkey, ← zeroBlock_eq_replicate, deriveKeys_eq, slice_setSlice_disjoint _ _ _ _ (by decide) (by decide),
    slice_setSlice_same _ _ _ (by decide), derivedK1]

theorem deriveKeys_k2 (enc : Key → Block → Block) (c : Config) (keys : Vector Byte 40) :
    slice (deriveKeys enc c keys) 32 8 = dbl c.rb (slice (deriveKeys enc c keys) 24 8) := by
  rw [deriveKeys_eq, slice_setSlice_same _ _ _ (by decide), slice_setSlice_disjoint _ _ _ _ (by decide) (by decide),
    slice_setSlice_same _ _ _ (by decide)]

/-- R93 (b): slot by slot, the key block is a function of the master key. -/
theorem deriveKeys_congr (enc : Key → Block → Block) (c : Config) {keys keys' : Vector Byte 40}
    (h : slice keys 24 16 = slice keys' 24 16) : deriveKeys enc c keys = deriveKeys enc c keys' := by
  have hmac : slice (deriveKeys enc c keys) 0 8 = slice (deriveKeys enc c keys') 0 8 := by
    rw [deriveKeys_mac, deriveKeys_mac, h]
  have hlo : slice (deriveKeys enc c keys) 8 8 = slice (deriveKeys enc c keys') 8 8 := by
    rw [deriveKeys_encLo, deriveKeys_encLo, h]
  have hhi : slice (deriveKeys enc c keys) 16 8 = slice (deriveKeys enc c keys') 16 8 := by
    rw [deriveKeys_encHi, deriveKeys_encHi, h]
  have hkey : slice (deriveKeys enc c keys) 0 16 = slice (deriveKeys enc c keys') 0 16 :=
    slice_congr_of_halves (m := 8) hmac hlo
  have hk1 : slice (deriveKeys enc c keys) 24 8 = slice (deriveKeys enc c keys') 24 8 := by
    rw [deriveKeys_k1, deriveKeys_k1, hkey]
  have hk2 : slice (deriveKeys enc c keys) 32 8 = slice (deriveKeys enc c keys') 32 8 := by
    rw [deriveKeys_k2, deriveKeys_k2, hk1]
  apply keys_ext
  intro j hj
  interval_cases j
  exacts [hmac, hlo, hhi, hk1, hk2]

/-! ## `DERIVE` -/

theorem exec_derive_of_not_loaded {s : State} (h : s.mkmask ≠ 0xFFFF) : exec .derive s = fail .nokey s := if_pos h

theorem exec_derive_of_loaded {s : State} (h : s.mkmask = 0xFFFF) :
    exec .derive s = .next { s with
      keys := deriveKeys (blockEncrypt s.config) s.config s.keys, mkmask := 0, krdy := true,
      responses := s.responses ++ [0x0000#16] } := by
  rw [exec, execDerive, if_neg (not_not.mpr h), Xtea.succeed_zero]

/-- Settles O21: each slot by its lemma. -/
theorem deriveRunsTheKeySchedule : Obligations.DeriveRunsTheKeySchedule := by
  refine ⟨rfl, fun s => ⟨fun h => ?_, fun h => ⟨_, exec_derive_of_loaded h, deriveKeys_mac _ _ _, deriveKeys_encLo _ _ _,
    deriveKeys_encHi _ _ _, deriveKeys_k1 _ _ _, deriveKeys_k2 _ _ _⟩⟩⟩
  rw [exec_derive_of_not_loaded h]
  exact Xtea.failsWith_fail .nokey s

/-- Settles O23: the schedule is the same function in both states, and it reads the master key alone. -/
theorem derivedKeysDependOnTheMasterKeyAlone : Obligations.DerivedKeysDependOnTheMasterKeyAlone := by
  intro s s' t t' hconfig hkey hs hs' ht ht'
  obtain rfl := Host.Outcome.next.inj ((exec_derive_of_loaded hs).symm.trans ht)
  obtain rfl := Host.Outcome.next.inj ((exec_derive_of_loaded hs').symm.trans ht')
  refine ⟨?_, rfl, rfl⟩
  dsimp only
  rw [← hconfig, deriveKeys_congr _ _ hkey]

theorem failsWith_xencMaster {s : State} (h : s.mkmask ≠ 0xFFFF) : FailsWith (exec .xencMaster s) s 4 :=
  Xtea.failsWith_encryptBlk (k := .master) (decide_eq_false h)

theorem failsWith_xencMac {s : State} (h : s.krdy = false) : FailsWith (exec .xencMac s) s 4 :=
  Xtea.failsWith_encryptBlk (k := .mac) h

/-- Settles O24: `DERIVE` leaves no loaded master key, and a `WRMK` after it no ready keys. -/
theorem deriveErasesTheMasterKey : Obligations.DeriveErasesTheMasterKey := by
  intro s t hs ht
  obtain rfl := Host.Outcome.next.inj ((exec_derive_of_loaded hs).symm.trans ht)
  refine ⟨?_, failsWith_xencMaster (by simp), deriveKeys_k1 _ _ _, deriveKeys_k2 _ _ _, fun idx d u hidx hu => ?_⟩
  · rw [exec_derive_of_not_loaded (by simp)]
    exact Xtea.failsWith_fail .nokey _
  · obtain rfl := Host.Outcome.next.inj ((execWrmk_of_inside d _ hidx).symm.trans hu)
    exact ⟨rfl, failsWith_xencMac rfl⟩

end Sys2Proof.KeySchedule
end

section
/-! PROOFS. The cipher of a configuration (spec 40_xtea.md R80 to R82): any function by its values, and XTEA, whose loop is
the one of R81 and whose every step can be undone. -/

namespace Sys2Proof.Cipher

open Sys2Proof Sys2Proof.Machine

/-! ## Any function, by its values -/

theorem finite_bytes (n : Nat) : Finite (Vector Byte n) :=
  Finite.of_injective (fun (v : Vector Byte n) (i : Fin n) => byteAt v i) fun _ _ h =>
    bytes_ext fun i hi => congrFun h ⟨i, hi⟩

/-- There are finitely many keys and blocks, so that a list can hold the value of each pair. -/
theorem exists_rows (f : Key → Block → Block) : ∃ rows : List CipherRow, ∀ k x, cipherValue k x rows = f k x := by
  have := finite_bytes 16
  have := finite_bytes 8
  obtain ⟨pairs, -, hall⟩ := Finite.exists_univ_list (Key × Block)
  exact ⟨_, fun k x => cipherValue_of_mem f pairs k x (hall (k, x))⟩

/-! ## Words and their bytes -/

theorem toNat_le32 (b0 b1 b2 b3 : Byte) :
    (le32 b0 b1 b2 b3).toNat = b0.toNat + 2 ^ 8 * b1.toNat + 2 ^ 16 * b2.toNat + 2 ^ 24 * b3.toNat := by
  have h0 := b0.isLt
  have h1 := b1.isLt
  have h2 := b2.isLt
  simp only [le32, BitVec.toNat_append]
  rw [← Nat.shiftLeft_add_eq_or_of_lt h2, ← Nat.shiftLeft_add_eq_or_of_lt h1, ← Nat.shiftLeft_add_eq_or_of_lt h0]
  simp only [Nat.shiftLeft_eq]
  omega

/-- Big-endian is little-endian with the bytes the other way round. -/
theorem be32_eq_le32 (b0 b1 b2 b3 : Byte) : be32 b0 b1 b2 b3 = le32 b3 b2 b1 b0 := rfl

/-- The number that bytes 0 to 3 stand for in a byte order (R45). -/
def wordValue (e : Endian) (b : Nat → Byte) : Nat :=
  match e with
  | .little => (b 0).toNat + 2 ^ 8 * (b 1).toNat + 2 ^ 16 * (b 2).toNat + 2 ^ 24 * (b 3).toNat
  | .big => 2 ^ 24 * (b 0).toNat + 2 ^ 16 * (b 1).toNat + 2 ^ 8 * (b 2).toNat + (b 3).toNat

theorem toNat_packWord (e : Endian) (b : Nat → Byte) :
    (packWord e (b 0) (b 1) (b 2) (b 3)).toNat = wordValue e b := by
  cases e with
  | little => exact toNat_le32 _ _ _ _
  | big =>
    rw [packWord, be32_eq_le32, toNat_le32, wordValue]
    omega

theorem toNat_cipherWord {n : Nat} (e : Endian) (v : Vector Byte n) (j : Nat) :
    (cipherWord e v j).toNat = wordValue e fun i => byteAt v (4 * j + i) :=
  toNat_packWord e fun i => byteAt v (4 * j + i)

theorem packWord_unpackByte (e : Endian) (w : Word) :
    packWord e (unpackByte e w 0) (unpackByte e w 1) (unpackByte e w 2) (unpackByte e w 3) = w := by
  cases e <;> exact le32_le32Byte w

/-- Byte `i` of a packed word is the byte that was packed there. -/
theorem unpackByte_packWord (e : Endian) (b : Nat → Byte) {i : Nat} (hi : i < 4) :
    unpackByte e (packWord e (b 0) (b 1) (b 2) (b 3)) i = b i := by
  obtain ⟨l0, l1, l2, l3⟩ := le32Byte_le32 (b 0) (b 1) (b 2) (b 3)
  obtain ⟨r0, r1, r2, r3⟩ := le32Byte_le32 (b 3) (b 2) (b 1) (b 0)
  cases e with
  | little =>
    interval_cases i
    exacts [l0, l1, l2, l3]
  | big =>
    interval_cases i
    exacts [r3, r2, r1, r0]

/-! ## Blocks as two words -/

theorem byteAt_packBlock_low (e : Endian) (v0 v1 : Word) {i : Nat} (hi : i < 4) :
    byteAt (packBlock e v0 v1) i = unpackByte e v0 i := by
  have h8 : i < 8 := by omega
  simp [packBlock, hi, h8]

theorem byteAt_packBlock_high (e : Endian) (v0 v1 : Word) {i : Nat} (hi : i < 4) :
    byteAt (packBlock e v0 v1) (4 + i) = unpackByte e v1 i := by
  have h8 : 4 + i < 8 := by omega
  simp [packBlock, h8]

theorem cipherWord_packBlock_zero (e : Endian) (v0 v1 : Word) : cipherWord e (packBlock e v0 v1) 0 = v0 := by
  simp only [cipherWord, Nat.mul_zero, Nat.zero_add]
  rw [byteAt_packBlock_low _ _ _ (by decide), byteAt_packBlock_low _ _ _ (by decide),
    byteAt_packBlock_low _ _ _ (by decide), byteAt_packBlock_low _ _ _ (by decide), packWord_unpackByte]

theorem cipherWord_packBlock_one (e : Endian) (v0 v1 : Word) : cipherWord e (packBlock e v0 v1) 1 = v1 := by
  have h0 := byteAt_packBlock_high e v0 v1 (i := 0) (by decide)
  have h1 := byteAt_packBlock_high e v0 v1 (i := 1) (by decide)
  have h2 := byteAt_packBlock_high e v0 v1 (i := 2) (by decide)
  have h3 := byteAt_packBlock_high e v0 v1 (i := 3) (by decide)
  simp only [Nat.reduceAdd] at h0 h1 h2 h3
  simp only [cipherWord, Nat.mul_one, Nat.reduceAdd]
  rw [h0, h1, h2, h3, packWord_unpackByte]

/-- The two words of a block hold all of it. -/
theorem packBlock_cipherWord (e : Endian) (x : Block) : packBlock e (cipherWord e x 0) (cipherWord e x 1) = x := by
  apply bytes_ext
  intro i hi
  obtain h | h := Nat.lt_or_ge i 4
  · rw [byteAt_packBlock_low _ _ _ h]
    exact (unpackByte_packWord e (fun i => byteAt x (4 * 0 + i)) h).trans (by simp)
  · obtain ⟨k, rfl⟩ := Nat.exists_eq_add_of_le h
    rw [byteAt_packBlock_high _ _ _ (by omega)]
    exact unpackByte_packWord e (fun i => byteAt x (4 * 1 + i)) (by omega)

/-! ## The loop of R81 -/

theorem toNat_and_three (x : Word) : (x &&& 3).toNat = x.toNat % 4 := by
  rw [BitVec.toNat_and]
  exact Nat.and_two_pow_sub_one_eq_mod x.toNat 2

/-- One iteration: the two assignments of R81 and the sum between them. -/
theorem xteaCycle_eq (k : Nat → Word) (r : XteaRegs) :
    (xteaCycle k r).v0 = r.v0 + ((((r.v1 <<< 4) ^^^ (r.v1 >>> 5)) + r.v1) ^^^ (r.sum + k (r.sum.toNat % 4))) ∧
    (xteaCycle k r).sum = r.sum + 0x9E3779B9 ∧
    (xteaCycle k r).v1 = r.v1 + (((((xteaCycle k r).v0 <<< 4) ^^^ ((xteaCycle k r).v0 >>> 5)) + (xteaCycle k r).v0) ^^^
      ((xteaCycle k r).sum + k ((xteaCycle k r).sum.toNat / 2 ^ 11 % 4))) := by
  refine ⟨?_, ?_, ?_⟩ <;>
    simp only [xteaCycle, xteaMix, xteaDelta, toNat_and_three, BitVec.toNat_ushiftRight, Nat.shiftRight_eq_div_pow]

theorem xteaRegs_ext {r r' : XteaRegs} (hv0 : r.v0 = r'.v0) (hv1 : r.v1 = r'.v1) (hsum : r.sum = r'.sum) : r = r' := by
  cases r
  cases r'
  simp_all

/-- Each of the three assignments adds what the other registers give, so an iteration can be undone. -/
theorem xteaCycle_injective (k : Nat → Word) : Function.Injective (xteaCycle k) := by
  intro r r' h
  obtain ⟨hv0, hsum, hv1⟩ := xteaCycle_eq k r
  obtain ⟨hv0', hsum', hv1'⟩ := xteaCycle_eq k r'
  rw [← h] at hv0' hsum' hv1'
  have esum : r.sum = r'.sum := (BitVec.add_left_inj _).mp (hsum.symm.trans hsum')
  have ev1 : r.v1 = r'.v1 := (BitVec.add_left_inj _).mp (hv1.symm.trans hv1')
  rw [← esum, ← ev1] at hv0'
  have ev0 : r.v0 = r'.v0 := (BitVec.add_left_inj _).mp (hv0.symm.trans hv0')
  exact xteaRegs_ext ev0 ev1 esum

theorem xteaLoop_injective (k : Nat → Word) (n : Nat) : Function.Injective (xteaLoop k n) := by
  induction n with
  | zero => exact fun _ _ h => h
  | succ n ih => exact fun _ _ h => xteaCycle_injective k (ih h)

/-! ## XTEA -/

/-- The registers before the loop (R81). -/
def xteaStart (c : Config) (x : Block) : XteaRegs :=
  { v0 := cipherWord c.xteaEndian x 0, v1 := cipherWord c.xteaEndian x 1, sum := 0 }

/-- The registers after `n` iterations on the block `x`. -/
def xteaRun (c : Config) (k : Key) (x : Block) (n : Nat) : XteaRegs :=
  xteaLoop (cipherWord c.xteaEndian k) n (xteaStart c x)

theorem xteaEncrypt_eq (c : Config) (k : Key) (x : Block) :
    xteaEncrypt c k x =
      packBlock c.xteaEndian (xteaRun c k x c.xteaRounds).v0 (xteaRun c k x c.xteaRounds).v1 := rfl

theorem xteaRun_succ (c : Config) (k : Key) (x : Block) (n : Nat) :
    xteaRun c k x (n + 1) = xteaCycle (cipherWord c.xteaEndian k) (xteaRun c k x n) := xteaLoop_succ _ _ _

/-- The sum does not depend on the block. -/
theorem xteaRun_sum (c : Config) (k : Key) (x y : Block) (n : Nat) :
    (xteaRun c k x n).sum = (xteaRun c k y n).sum := by
  induction n with
  | zero => rfl
  | succ n ih =>
    obtain ⟨-, hx, -⟩ := xteaCycle_eq (cipherWord c.xteaEndian k) (xteaRun c k x n)
    obtain ⟨-, hy, -⟩ := xteaCycle_eq (cipherWord c.xteaEndian k) (xteaRun c k y n)
    rw [xteaRun_succ, xteaRun_succ, hx, hy, ih]

/-- R80: the words packed back give the registers, these the block's two words, and these the block. -/
theorem xteaEncrypt_injective (c : Config) (k : Key) : Function.Injective (xteaEncrypt c k) := by
  intro x y h
  rw [xteaEncrypt_eq, xteaEncrypt_eq] at h
  have hv0 := congrArg (cipherWord c.xteaEndian · 0) h
  have hv1 := congrArg (cipherWord c.xteaEndian · 1) h
  simp only [cipherWord_packBlock_zero, cipherWord_packBlock_one] at hv0 hv1
  have hregs : xteaRun c k x c.xteaRounds = xteaRun c k y c.xteaRounds :=
    xteaRegs_ext hv0 hv1 (xteaRun_sum c k x y c.xteaRounds)
  have hstart : xteaStart c x = xteaStart c y := xteaLoop_injective _ _ hregs
  have hw0 : cipherWord c.xteaEndian x 0 = cipherWord c.xteaEndian y 0 := congrArg XteaRegs.v0 hstart
  have hw1 : cipherWord c.xteaEndian x 1 = cipherWord c.xteaEndian y 1 := congrArg XteaRegs.v1 hstart
  rw [← packBlock_cipherWord c.xteaEndian x, hw0, hw1, packBlock_cipherWord]

theorem toNat_v0_eq (c : Config) (k : Key) (x : Block) :
    (xteaRun c k x c.xteaRounds).v0.toNat = wordValue c.xteaEndian fun i => byteAt (xteaEncrypt c k x) i := by
  have h := toNat_cipherWord c.xteaEndian (xteaEncrypt c k x) 0
  rw [xteaEncrypt_eq, cipherWord_packBlock_zero] at h
  simpa [xteaEncrypt_eq] using h

theorem toNat_v1_eq (c : Config) (k : Key) (x : Block) :
    (xteaRun c k x c.xteaRounds).v1.toNat = wordValue c.xteaEndian fun i => byteAt (xteaEncrypt c k x) (4 + i) := by
  have h := toNat_cipherWord c.xteaEndian (xteaEncrypt c k x) 1
  rw [xteaEncrypt_eq, cipherWord_packBlock_one] at h
  simpa [xteaEncrypt_eq] using h

theorem toNat_start_v0 (c : Config) (x : Block) :
    (xteaStart c x).v0.toNat = wordValue c.xteaEndian fun i => byteAt x i := by
  simpa [xteaStart] using toNat_cipherWord c.xteaEndian x 0

theorem toNat_start_v1 (c : Config) (x : Block) :
    (xteaStart c x).v1.toNat = wordValue c.xteaEndian fun i => byteAt x (4 + i) :=
  toNat_cipherWord c.xteaEndian x 1

/-- Settles O25: the values of a function in a list; the registers of the loop, iteration by iteration; and an injective
function on finitely many blocks. -/
theorem cipherIsAnyFunctionOrXtea : Obligations.CipherIsAnyFunctionOrXtea := by
  refine ⟨fun f c => ?anyFunction, fun c k x hc => ?xtea, fun c k hc => ?permutation⟩
  case anyFunction =>
    obtain ⟨rows, hrows⟩ := exists_rows f
    exact ⟨rows, fun k x => (blockEncrypt_values rfl k x).trans (hrows k x)⟩
  case xtea =>
    rw [blockEncrypt_xtea hc]
    refine ⟨cipherWord c.xteaEndian k, fun n => (xteaRun c k x n).v0, fun n => (xteaRun c k x n).v1,
      fun n => (xteaRun c k x n).sum, fun j _ => toNat_cipherWord c.xteaEndian k j, toNat_start_v0 c x,
      toNat_start_v1 c x, rfl, fun n => ?_, toNat_v0_eq c k x, toNat_v1_eq c k x⟩
    dsimp only
    rw [xteaRun_succ]
    exact xteaCycle_eq _ _
  case permutation =>
    have := finite_bytes 8
    have heq : blockEncrypt c k = xteaEncrypt c k := funext (blockEncrypt_xtea hc k)
    rw [heq]
    exact Finite.injective_iff_bijective.mp (xteaEncrypt_injective c k)

end Sys2Proof.Cipher
end

section
/-! PROOFS. The authenticator (spec 42_cmac.md): the chain and the padding decision of R101, R108, and the four MAC commands
(R103 to R107). -/

namespace Sys2Proof.Cmac

open Sys2Proof Sys2Proof.Machine

/-! ## The chain and the padding -/

/-- The chain value before the first block (R101). -/
def initialChain (enc : Block → Block) (pfx : Option Block) : Block :=
  match pfx with
  | none => zeroBlock
  | some p => enc p

theorem cmac_eq (enc : Block → Block) (k1 k2 : Block) (msg : List Byte) (pfx : Option Block) :
    cmac enc k1 k2 msg pfx =
      enc (xorBytes (chainBlocks enc (fullBlocks msg.length) msg (initialChain enc pfx)) (lastBlock k1 k2 msg)) := by
  cases pfx <;> rfl

theorem endsOnBlock_iff (len : Nat) : endsOnBlock len = true ↔ 0 < len ∧ len % 8 = 0 := by
  simp [endsOnBlock]

theorem endsOnBlock_eq_false {len : Nat} (h : ¬(0 < len ∧ len % 8 = 0)) : endsOnBlock len = false := by
  rwa [← endsOnBlock_iff, Bool.not_eq_true] at h

theorem lastBlock_of_whole (k1 k2 : Block) {msg : List Byte} (h : 0 < msg.length ∧ msg.length % 8 = 0) :
    lastBlock k1 k2 msg = xorBytes (blockOf (msg.drop (8 * fullBlocks msg.length))) k1 := by
  rw [lastBlock, if_pos ((endsOnBlock_iff _).mpr h)]

theorem lastBlock_of_padded (k1 k2 : Block) {msg : List Byte} (h : ¬(0 < msg.length ∧ msg.length % 8 = 0)) :
    lastBlock k1 k2 msg = xorBytes (blockOf (msg.drop (8 * fullBlocks msg.length) ++ [0x80])) k2 := by
  rw [lastBlock, if_neg (by simp [endsOnBlock_eq_false h])]

/-- A message of one block at most has nothing to chain. -/
theorem fullBlocks_of_le {len : Nat} (h : len ≤ 8) : fullBlocks len = 0 := by
  unfold fullBlocks
  split_ifs with hwhole
  · omega
  · rw [endsOnBlock_iff] at hwhole
    omega

theorem cmac_of_short (enc : Block → Block) (k1 k2 : Block) {msg : List Byte} (pfx : Option Block)
    (h : msg.length ≤ 8) : cmac enc k1 k2 msg pfx = enc (xorBytes (initialChain enc pfx) (lastBlock k1 k2 msg)) := by
  rw [cmac_eq, fullBlocks_of_le h, chainBlocks]

/-- What a folded-in last block is, byte by byte. -/
theorem xorBytes_fold (c k : Block) (rest : List Byte) :
    xorBytes c (xorBytes (blockOf rest) k) =
      tabulate 8 fun i => byteAt c i ^^^ (rest.getD i 0 ^^^ byteAt k i) := by
  apply bytes_ext
  intro i hi
  simp [hi]

/-! ### A block before the rest of the message -/

theorem endsOnBlock_add_eight {len : Nat} (h : 0 < len) : endsOnBlock (8 + len) = endsOnBlock len := by
  rw [Bool.eq_iff_iff, endsOnBlock_iff, endsOnBlock_iff]
  omega

theorem fullBlocks_add_eight {len : Nat} (h : 0 < len) : fullBlocks (8 + len) = fullBlocks len + 1 := by
  unfold fullBlocks
  rw [endsOnBlock_add_eight h]
  split_ifs with hwhole
  · have hmod := (endsOnBlock_iff len).mp hwhole
    omega
  · omega

theorem blockOf_append (block : Block) (msg : List Byte) : blockOf (block.toList ++ msg) = block := by
  apply bytes_ext
  intro i hi
  have hlt : i < block.toList.length := by simpa using hi
  rw [byteAt_blockOf, if_pos hi, List.getD_append _ _ _ _ hlt, byteAt]

theorem drop_append (block : Block) (msg : List Byte) (n : Nat) :
    (block.toList ++ msg).drop (8 * (n + 1)) = msg.drop (8 * n) := by
  rw [show 8 * (n + 1) = block.toList.length + 8 * n by simp; omega, List.drop_length_add_append]

/-- The block is out of the chain when the last one is made. -/
theorem lastBlock_append (k1 k2 : Block) (block : Block) {msg : List Byte} (h : msg ≠ []) :
    lastBlock k1 k2 (block.toList ++ msg) = lastBlock k1 k2 msg := by
  have hpos : 0 < msg.length := List.length_pos_iff.mpr h
  have hlen : (block.toList ++ msg).length = 8 + msg.length := by simp
  unfold lastBlock
  rw [hlen, fullBlocks_add_eight hpos, endsOnBlock_add_eight hpos, drop_append]

/-- R101: the chain takes the block first, and the rest goes on from its encryption. -/
theorem cmac_append (enc : Block → Block) (k1 k2 : Block) (block : Block) {msg : List Byte} (pfx : Option Block)
    (h : msg ≠ []) :
    cmac enc k1 k2 (block.toList ++ msg) pfx = cmac enc k1 k2 msg (some (xorBytes (initialChain enc pfx) block)) := by
  have hpos : 0 < msg.length := List.length_pos_iff.mpr h
  have hlen : (block.toList ++ msg).length = 8 + msg.length := by simp
  have hdrop : (block.toList ++ msg).drop 8 = msg := drop_append block msg 0
  rw [cmac_eq, cmac_eq, lastBlock_append _ _ _ h, hlen, fullBlocks_add_eight hpos, chainBlocks, hdrop, blockOf_append,
    initialChain]

/-- Settles O33: the last block names one subkey, by the length, and the chain is taken block by block. -/
theorem cmacChainAndPaddingByLength : Obligations.CmacChainAndPaddingByLength := by
  intro enc k1 k2 msg pfx c0
  have hc0 : c0 = initialChain enc pfx := by
    cases pfx with
    | none => exact KeySchedule.zeroBlock_eq_replicate.symm
    | some p => rfl
  rw [hc0]
  refine ⟨fun hwhole k => ?_, fun hpadded k => ?_, fun hlen => ?_, fun hlen => ?_, fun hne block => cmac_append _ _ _ _ _ hne⟩
  · rw [cmac_eq, cmac_eq, lastBlock_of_whole k1 k2 hwhole, lastBlock_of_whole k1 k hwhole]
  · rw [cmac_eq, cmac_eq, lastBlock_of_padded k1 k2 hpadded, lastBlock_of_padded k k2 hpadded]
  · rw [cmac_of_short _ _ _ _ (by omega), lastBlock_of_whole _ _ (by omega), fullBlocks_of_le (by omega), xorBytes_fold]
    rfl
  · rw [cmac_of_short _ _ _ _ (by omega), lastBlock_of_padded _ _ (by omega), fullBlocks_of_le (by omega), xorBytes_fold]
    rfl

/-! ## The checks of the commands -/

theorem checkMac_of_not_owned (off len : Byte) {s : State} (o : Host.Outcome State Fault Refusal)
    (h : s.hostFb = false) : checkMac off len s o = fail .state s := if_pos h

theorem checkMac_of_no_keys (off len : Byte) {s : State} (o : Host.Outcome State Fault Refusal) (hown : s.hostFb = true)
    (h : s.krdy = false) : checkMac off len s o = fail .nokey s := by
  rw [checkMac, if_neg (by simp [hown]), if_pos h]

theorem checkMac_of_outside {off len : Byte} {s : State} (o : Host.Outcome State Fault Refusal) (hown : s.hostFb = true)
    (hkrdy : s.krdy = true) (h : s.config.frameMax < off.toNat + len.toNat + 4) :
    checkMac off len s o = fail .range s := by
  rw [checkMac, if_neg (by simp [hown]), if_neg (by simp [hkrdy]), if_pos (by simpa [macRangeInFb] using h)]

theorem checkMac_of_ready {off len : Byte} {s : State} (o : Host.Outcome State Fault Refusal) (hown : s.hostFb = true)
    (hkrdy : s.krdy = true) (h : off.toNat + len.toNat + 4 ≤ s.config.frameMax) : checkMac off len s o = o := by
  rw [checkMac, if_neg (by simp [hown]), if_neg (by simp [hkrdy]), if_neg (by simp [macRangeInFb, h])]

theorem execCrypt_of_not_owned (off len : Byte) {s : State} (h : s.hostFb = false) :
    execCrypt off len s = fail .state s := if_pos h

theorem execCrypt_of_no_keys (off len : Byte) {s : State} (hown : s.hostFb = true) (h : s.krdy = false) :
    execCrypt off len s = fail .nokey s := by
  rw [execCrypt, if_neg (by simp [hown]), if_pos h]

theorem execCrypt_of_outside {off len : Byte} {s : State} (hown : s.hostFb = true) (hkrdy : s.krdy = true)
    (h : s.config.frameMax < off.toNat + len.toNat) : execCrypt off len s = fail .range s := by
  rw [execCrypt, if_neg (by simp [hown]), if_neg (by simp [hkrdy]), if_pos (by simpa [rangeInFb] using h)]

/-- The three checks that the five commands share, for a command that needs `extra` bytes after its range (42_cmac.md
section 2, R117). -/
def ChecksInOrder (off len : Byte) (s : State) (i : Instr) (extra : Nat) : Prop :=
  ((s.rxen = true ∨ s.lm = .transmitting) → FailsWith (exec i s) s 3) ∧
  (s.rxen = false → s.lm ≠ .transmitting → s.krdy = false → FailsWith (exec i s) s 4) ∧
  (s.rxen = false → s.lm ≠ .transmitting → s.krdy = true → s.config.frameMax < off.toNat + len.toNat + extra →
    FailsWith (exec i s) s 5)

theorem checksInOrder_of_checkMac {off len : Byte} {s : State} {i : Instr} {o : Host.Outcome State Fault Refusal}
    (h : exec i s = checkMac off len s o) : ChecksInOrder off len s i 4 := by
  unfold ChecksInOrder
  rw [h]
  refine ⟨fun hbusy => ?_, fun hoff hlm hkrdy => ?_, fun hoff hlm hkrdy hout => ?_⟩
  · rw [checkMac_of_not_owned _ _ _ ((Buffers.hostFb_eq_false_iff s).mpr hbusy)]
    exact Xtea.failsWith_fail .state s
  · rw [checkMac_of_no_keys _ _ _ ((hostFb_iff s).mpr ⟨hoff, hlm⟩) hkrdy]
    exact Xtea.failsWith_fail .nokey s
  · rw [checkMac_of_outside _ ((hostFb_iff s).mpr ⟨hoff, hlm⟩) hkrdy hout]
    exact Xtea.failsWith_fail .range s

theorem checksInOrder_crypt (off len : Byte) (s : State) : ChecksInOrder off len s (.crypt off len) 0 := by
  unfold ChecksInOrder
  rw [exec]
  refine ⟨fun hbusy => ?_, fun hoff hlm hkrdy => ?_, fun hoff hlm hkrdy hout => ?_⟩
  · rw [execCrypt_of_not_owned _ _ ((Buffers.hostFb_eq_false_iff s).mpr hbusy)]
    exact Xtea.failsWith_fail .state s
  · rw [execCrypt_of_no_keys _ _ ((hostFb_iff s).mpr ⟨hoff, hlm⟩) hkrdy]
    exact Xtea.failsWith_fail .nokey s
  · rw [execCrypt_of_outside ((hostFb_iff s).mpr ⟨hoff, hlm⟩) hkrdy hout]
    exact Xtea.failsWith_fail .range s

/-- Settles O28: the four MAC commands run behind one check, `CRYPT` behind its own. -/
theorem macAndCryptChecksInOrder : Obligations.MacAndCryptChecksInOrder := by
  refine ⟨fun _ _ => ⟨rfl, rfl, rfl, rfl, rfl⟩, fun off len s i hi => ?_⟩
  change ChecksInOrder off len s i (if i = .crypt off len then 0 else 4)
  rcases hi with rfl | rfl | rfl | rfl | rfl
  case inr.inr.inr.inr =>
    rw [if_pos rfl]
    exact checksInOrder_crypt off len s
  all_goals
    rw [if_neg (by simp)]
    exact checksInOrder_of_checkMac rfl

/-! ## Generating and verifying -/

/-- The message of a MAC command. -/
def message (off len : Byte) (s : State) : List Byte := s.fb.readBytes off.toNat len.toNat

/-- The buffer with the tag after its message (R103). -/
def taggedFb (off len : Byte) (pfx : Option Block) (s : State) : Memory :=
  s.fb.writeBytes (off.toNat + len.toNat) (macTag s (message off len s) pfx)

theorem macGenerate_of_ready {off len : Byte} (pfx : Option Block) {s : State} (hown : s.hostFb = true)
    (hkrdy : s.krdy = true) (h : off.toNat + len.toNat + 4 ≤ s.config.frameMax) :
    macGenerate off len pfx s = .next { s with
      fb := taggedFb off len pfx s, responses := s.responses ++ [0x0000#16] } := by
  rw [macGenerate, checkMac_of_ready _ hown hkrdy h, Xtea.succeed_zero, taggedFb, message]

theorem read_taggedFb (off len : Byte) (pfx : Option Block) (s : State) (a : Nat) :
    Memory.read (taggedFb off len pfx s) a =
      if off.toNat + len.toNat ≤ a ∧ a < off.toNat + len.toNat + 4 then
        byteAt (cmac (encryptUnder s .mac) (subkey1 s.keys) (subkey2 s.keys) (message off len s) pfx)
          (a - (off.toNat + len.toNat))
      else Memory.read s.fb a := by
  rw [taggedFb, read_writeBytes, length_macTag]
  split_ifs with h
  · exact getD_macTag _ _ _ _ (by omega)
  · rfl

/-- Settles O29: the tag is what `writeBytes` puts after the message, without CTR and with it. -/
theorem macGenerateWritesTheTag : Obligations.MacGenerateWritesTheTag := by
  refine ⟨fun _ _ => ⟨rfl, rfl⟩, fun off len s hown hkrdy hrange => ⟨?_, ?_⟩⟩
  · exact ⟨_, macGenerate_of_ready none hown hkrdy hrange, read_taggedFb off len none s⟩
  · exact ⟨_, macGenerate_of_ready (some s.ctr) hown hkrdy hrange, read_taggedFb off len (some s.ctr) s⟩

theorem macMatches_iff (off len : Byte) (pfx : Option Block) (s : State) :
    macMatches off len pfx s = true ↔ ∀ k, k < 4 → Memory.read s.fb (off.toNat + len.toNat + k) =
      byteAt (cmac (encryptUnder s .mac) (subkey1 s.keys) (subkey2 s.keys) (message off len s) pfx) k := by
  rw [macMatches, decide_eq_true_iff, macTag_eq_iff, message]

theorem macVerify_of_match {off len : Byte} {pfx : Option Block} {s : State} (hown : s.hostFb = true)
    (hkrdy : s.krdy = true) (hrange : off.toNat + len.toNat + 4 ≤ s.config.frameMax)
    (h : macMatches off len pfx s = true) :
    macVerify off len pfx s = .next { s with responses := s.responses ++ [0x0001#16] } := by
  rw [macVerify, checkMac_of_ready _ hown hkrdy hrange, if_pos h]
  rfl

theorem macVerify_of_mismatch {off len : Byte} {pfx : Option Block} {s : State} (hown : s.hostFb = true)
    (hkrdy : s.krdy = true) (hrange : off.toNat + len.toNat + 4 ≤ s.config.frameMax)
    (h : ¬macMatches off len pfx s = true) :
    macVerify off len pfx s = .next { s with responses := s.responses ++ [0x0000#16] } := by
  rw [macVerify, checkMac_of_ready _ hown hkrdy hrange, if_neg h]
  rfl

/-- Settles O30: the comparison of the tag, byte by byte, decides the answer. -/
theorem macVerifyComparesTheTag : Obligations.MacVerifyComparesTheTag := by
  refine ⟨fun _ _ => ⟨rfl, rfl⟩, fun off len s hown hkrdy hrange => ⟨fun h => ?_, fun h => ?_, fun h => ?_, fun h => ?_⟩⟩
  · exact macVerify_of_match hown hkrdy hrange ((macMatches_iff off len none s).mpr h)
  · exact macVerify_of_mismatch hown hkrdy hrange (mt (macMatches_iff off len none s).mp h)
  · exact macVerify_of_match hown hkrdy hrange ((macMatches_iff off len (some s.ctr) s).mpr h)
  · exact macVerify_of_mismatch hown hkrdy hrange (mt (macMatches_iff off len (some s.ctr) s).mp h)

/-! ## A generated tag -/

/-- The state after a tag was generated. -/
def tagged (off len : Byte) (pfx : Option Block) (s : State) : State :=
  { s with fb := taggedFb off len pfx s, responses := s.responses ++ [0x0000#16] }

/-- The message stands before the tag, and stays. -/
theorem message_congr {off len : Byte} {s t : State}
    (h : ∀ a, a < off.toNat + len.toNat → Memory.read t.fb a = Memory.read s.fb a) :
    message off len t = message off len s :=
  readBytes_congr fun i hi => h (off.toNat + i) (by omega)

theorem message_tagged (off len : Byte) (pfx : Option Block) (s : State) :
    message off len (tagged off len pfx s) = message off len s :=
  message_congr fun a ha => by rw [tagged, read_taggedFb, if_neg (by omega)]

theorem macMatches_tagged (off len : Byte) (pfx : Option Block) (s : State) :
    macMatches off len pfx (tagged off len pfx s) = true := by
  rw [macMatches_iff, message_tagged]
  intro k hk
  rw [tagged, read_taggedFb, if_pos (by omega), Nat.add_sub_cancel_left]
  rfl

theorem macVerify_tagged {off len : Byte} (pfx : Option Block) {s : State} (hown : s.hostFb = true)
    (hkrdy : s.krdy = true) (hrange : off.toNat + len.toNat + 4 ≤ s.config.frameMax) :
    ∃ u, macVerify off len pfx (tagged off len pfx s) = .next u ∧ u.lastResponse = some 0x0001#16 :=
  ⟨_, macVerify_of_match hown hkrdy hrange (macMatches_tagged off len pfx s), by simp [State.lastResponse]⟩

/-- Settles O31: the message and the key are those of the generation, so the tag is. -/
theorem generatedTagVerifies : Obligations.GeneratedTagVerifies := by
  intro off len s hown hkrdy hrange
  obtain ⟨u, hu, hlast⟩ := macVerify_tagged none hown hkrdy hrange
  obtain ⟨u', hu', hlast'⟩ := macVerify_tagged (some s.ctr) hown hkrdy hrange
  exact ⟨⟨_, u, macGenerate_of_ready none hown hkrdy hrange, hu, hlast⟩,
    ⟨_, u', macGenerate_of_ready (some s.ctr) hown hkrdy hrange, hu', hlast'⟩⟩

/-- The state after a host wrote one byte of the buffer. -/
def overwritten (idx d : Byte) (t : State) : State :=
  { t with fb := t.fb.write idx.toNat d, responses := t.responses ++ [0x0000#16] }

/-- A changed byte of the tag no longer agrees with the message, which it leaves alone. -/
theorem not_macMatches_overwritten {off len idx d : Byte} (pfx : Option Block) {s : State} {k : Nat} (hk : k < 4)
    (hidx : idx.toNat = off.toNat + len.toNat + k)
    (hd : d ≠ Memory.read (taggedFb off len pfx s) idx.toNat) :
    ¬macMatches off len pfx (overwritten idx d (tagged off len pfx s)) = true := by
  have hmsg : message off len (overwritten idx d (tagged off len pfx s)) = message off len s := by
    refine (message_congr fun a ha => ?_).trans (message_tagged off len pfx s)
    rw [overwritten, read_write, if_neg (by omega)]
  have hbyte := read_taggedFb off len pfx s idx.toNat
  rw [if_pos (by omega), show idx.toNat - (off.toNat + len.toNat) = k by omega] at hbyte
  rw [macMatches_iff, hmsg]
  intro h
  have hread := h k hk
  rw [overwritten, read_write, if_pos hidx.symm] at hread
  exact hd (hread.trans hbyte.symm)

theorem macVerify_overwritten {off len idx d : Byte} (pfx : Option Block) {s t u : State} {k : Nat}
    (hown : s.hostFb = true) (hkrdy : s.krdy = true) (hrange : off.toNat + len.toNat + 4 ≤ s.config.frameMax)
    (hk : k < 4) (hidx : idx.toNat = off.toNat + len.toNat + k) (hd : d ≠ Memory.read t.fb idx.toNat)
    (hu : exec (.wrfb idx d) t = .next u) (ht : macGenerate off len pfx s = .next t) :
    u.ctr = s.ctr ∧ macVerify off len pfx u = .next { u with responses := u.responses ++ [0x0000#16] } := by
  obtain rfl := Host.Outcome.next.inj ((macGenerate_of_ready pfx hown hkrdy hrange).symm.trans ht)
  have hidx' : idx.toNat < s.config.frameMax := by omega
  have hwrite := Buffers.execWrfb_of_inside (s := tagged off len pfx s) d hown hidx'
  obtain rfl := Host.Outcome.next.inj (hwrite.symm.trans hu)
  exact ⟨rfl, macVerify_of_mismatch hown hkrdy hrange (not_macMatches_overwritten pfx hk hidx hd)⟩

/-- Settles O32: for either kind of tag, whatever the other bytes are. -/
theorem changedTagByteFailsVerification : Obligations.ChangedTagByteFailsVerification := by
  intro off len idx d k s t u hown hkrdy hrange hk hidx hd hu
  refine ⟨fun ht => ?_, fun ht => ?_⟩
  · exact (macVerify_overwritten none hown hkrdy hrange hk hidx hd hu ht).2
  · obtain ⟨hctr, hverify⟩ := macVerify_overwritten (some s.ctr) hown hkrdy hrange hk hidx hd hu ht
    have hexec : exec (.macvc off len) u = macVerify off len (some s.ctr) u := by rw [exec, execMacvc, hctr]
    exact ⟨hctr, hexec.trans hverify⟩

end Sys2Proof.Cmac
end

section
/-! PROOFS. `CRYPT` (spec 43_ctr.md R116, R117, R121): the keystream over a range, the count it leaves, and that it undoes
itself. -/

namespace Sys2Proof.Ctr

open Sys2Proof Sys2Proof.Machine

/-- What `CRYPT` makes of the buffer and the counter. -/
def crypted (off len : Byte) (s : State) : CryptRegs :=
  ctrCrypt (encryptUnder s .enc) off.toNat len.toNat { fb := s.fb, ctr := s.ctr }

theorem execCrypt_of_ready {off len : Byte} {s : State} (hown : s.hostFb = true) (hkrdy : s.krdy = true)
    (h : off.toNat + len.toNat ≤ s.config.frameMax) :
    execCrypt off len s = .next { s with
      fb := (crypted off len s).fb, ctr := (crypted off len s).ctr, responses := s.responses ++ [0x0000#16] } := by
  rw [execCrypt, if_neg (by simp [hown]), if_neg (by simp [hkrdy]), if_neg (by simp [rangeInFb, h])]
  exact Xtea.succeed_zero _

theorem crypted_ctr (off len : Byte) (s : State) :
    (crypted off len s).ctr = addCnt s.ctr (BitVec.ofNat 32 (ceil8 len.toNat)) := ctrCrypt_ctr _ _ _ _

theorem toNat_pktCnt_addCnt_ofNat (c : Block) (n : Nat) :
    (pktCnt (addCnt c (BitVec.ofNat 32 n))).toNat = ((pktCnt c).toNat + n) % 2 ^ 32 := by
  rw [pktCnt_addCnt, BitVec.toNat_add, BitVec.toNat_ofNat, Nat.add_mod_mod]

/-- Settles O36: the law of `ctr_crypt` for each byte, and the counter it ends with. -/
theorem cryptXorsTheKeystream : Obligations.CryptXorsTheKeystream := by
  refine ⟨fun _ _ => rfl, fun off len s hown hkrdy hrange => ⟨_, _, execCrypt_of_ready hown hkrdy hrange,
    fun a => ctrCrypt_read (encryptUnder s .enc) off.toNat len.toNat a { fb := s.fb, ctr := s.ctr }, ?_, ?_⟩⟩
  · rw [crypted_ctr]
    exact fun j hj => byteAt_addCnt_time s.ctr _ hj
  · rw [crypted_ctr]
    exact toNat_pktCnt_addCnt_ofNat s.ctr (ceil8 len.toNat)

/-- R121: from the same counter the keystream is the same, and XORing it twice gives every byte back. -/
theorem ctrCrypt_twice (enc : Block → Block) (off len : Nat) {fb : Memory} (ctr : Block) (h : Memory.wf fb = true) :
    (ctrCrypt enc off len { fb := (ctrCrypt enc off len { fb := fb, ctr := ctr }).fb, ctr := ctr }).fb = fb := by
  refine memory_ext (ctrCrypt_wf _ _ _ _ (ctrCrypt_wf _ _ _ _ h)) h fun a => ?_
  rw [ctrCrypt_read, ctrCrypt_read]
  split_ifs
  · rw [BitVec.xor_assoc, BitVec.xor_self, BitVec.xor_zero]
  · rfl

/-- Settles O37: the second run starts from the first run's buffer and the first counter. -/
theorem cryptTwiceRestoresTheBuffer : Obligations.CryptTwiceRestoresTheBuffer := by
  intro off len s hown hkrdy hwf hrange
  refine ⟨_, _, execCrypt_of_ready hown hkrdy hrange, execCrypt_of_ready hown hkrdy hrange, ?_, ?_⟩
  · exact ctrCrypt_twice _ _ _ s.ctr hwf
  · exact (crypted_ctr off len _).trans (crypted_ctr off len s).symm

end Sys2Proof.Ctr
end

section
/-! PROOFS. The commands on the pending payload (spec 44_buffers.md R127, R128) and on the role (46_link_system.md
R172). -/

namespace Sys2Proof.Buffers

open Sys2Proof Sys2Proof.Machine

/-! ## `PUTC` and `CLRPB` -/

theorem execPutc_of_full (d : Byte) {s : State} (h : s.plen.toNat = payloadMax s.config) :
    execPutc d s = fail .full s := if_pos h

theorem execPutc_of_room (d : Byte) {s : State} (h : s.plen.toNat < payloadMax s.config) :
    execPutc d s = .next { s with
      pb := s.pb.write s.plen.toNat d, plen := s.plen + 1,
      responses := s.responses ++ [responseWord 0 (s.plen + 1)] } := by
  rw [execPutc, if_neg (by omega), if_neg (by omega), succeed_eq]

theorem illegalFields_putc {a : Byte} (d : Byte) (h : a ≠ 0) : Encoding.IllegalFields 0x32 a d :=
  .inr (.inl ⟨h, by decide⟩)

/-- Settles O40: `PAYLOAD_MAX` is at most 121, so that the count does not wrap. -/
theorem putcAppendsAByte : Obligations.PutcAppendsAByte := by
  refine ⟨fun _ => rfl, fun a d s ha => Xtea.failsWith_of_illegalFields (illegalFields_putc d ha) s,
    fun d s => ⟨fun hfull => ?_, fun hroom => ⟨_, _, execPutc_of_room d hroom, ?_, fun a => read_write _ _ _ _⟩⟩⟩
  · rw [exec, execPutc_of_full d hfull]
    exact Xtea.failsWith_fail .full s
  · exact Invariants.toNat_add_one hroom (by omega)

/-- Settles O41: `CLRPB` checks nothing. -/
theorem clrpbDiscardsThePayload : Obligations.ClrpbDiscardsThePayload := by
  refine ⟨rfl, fun a b s h => Link.failsWith_of_nonzero_operand (i := .clrpb) (fun _ _ => rfl) h s, fun s => ?_⟩
  rw [exec, execClrpb, Xtea.succeed_zero]

/-! ## `SETROLE` -/

theorem execSetrole_of_outside {role : Byte} (s : State) (h : 1 < role.toNat) :
    execSetrole role s = fail .illegal s := if_pos h

theorem execSetrole_of_role {role : Byte} (s : State) (h : role.toNat ≤ 1) :
    execSetrole role s = .next { s with
      role := if role = 1 then .master else .slave, responses := s.responses ++ [0x0000#16] } := by
  rw [execSetrole, if_neg (by omega), Xtea.succeed_zero]

theorem illegalFields_setrole {a b : Byte} (h : a ≠ 0 ∨ 1 < b.toNat) : Encoding.IllegalFields 0x02 a b := by
  obtain ha | hb := h
  · exact .inr (.inl ⟨ha, by decide⟩)
  · exact .inr (.inr (.inr (.inl ⟨rfl, hb⟩)))

/-- Settles O14: the two roles, and every other operand, as a word and as a term. -/
theorem setroleWritesTheRole : Obligations.SetroleWritesTheRole := by
  refine ⟨fun _ => rfl, fun a b s h => Xtea.failsWith_of_illegalFields (illegalFields_setrole h) s, fun role s h => ?_,
    fun s => execSetrole_of_role s (by decide), fun s => execSetrole_of_role s (by decide)⟩
  rw [exec, execSetrole_of_outside s h]
  exact Xtea.failsWith_fail .illegal s

end Sys2Proof.Buffers
end

section
/-! PROOFS. The sending side of the framer (spec 45_framer.md R141 to R146): the bytes of a built frame, and the transmit
event that carries them. -/

namespace Sys2Proof.Building

open Sys2Proof Sys2Proof.Machine

/-! ## The bytes of a frame -/

/-- Preamble, length byte and address (R42). -/
def header (lengthByte addr : Byte) : List Byte := [0xAA, 0xAA, 0x2D, 0xD4, lengthByte, addr]

/-- A whole frame around the payload as it is sent (R42). -/
def frameBytes (s : State) (lengthByte addr : Byte) (body tag : List Byte) : List Byte :=
  header lengthByte addr ++ body ++ tag ++ [s.config.trailer, s.config.trailer]

theorem length_frameBytes (s : State) (lengthByte addr : Byte) {body tag : List Byte} (htag : tag.length = 4) :
    (frameBytes s lengthByte addr body tag).length = body.length + 12 := by
  simp [frameBytes, header, htag]

/-- The buffer holds a frame up to its payload; behind that it is as before. -/
def Laid (s : State) (fb : Memory) (lengthByte addr : Byte) (body : List Byte) : Prop :=
  ∀ a, Memory.read fb a =
    if a < 6 + body.length then (header lengthByte addr ++ body).getD a 0 else Memory.read s.fb a

theorem laid_layFrame (s : State) (lengthByte addr : Byte) (n : Nat) :
    Laid s (layFrame s lengthByte addr n) lengthByte addr (s.pb.readBytes 0 n) := by
  intro a
  rw [read_layFrame, length_readBytes]
  rfl

/-- Tag and trailer complete the frame. -/
theorem read_sealFrame_of_laid {s : State} {fb : Memory} {lengthByte addr : Byte} {body tag : List Byte}
    (h : Laid s fb lengthByte addr body) (htag : tag.length = 4) (a : Nat) :
    Memory.read (sealFrame s fb body.length tag) a =
      if a < body.length + 12 then (frameBytes s lengthByte addr body tag).getD a 0 else Memory.read s.fb a := by
  have hlen : (header lengthByte addr ++ body).length = 6 + body.length := by
    rw [List.length_append]
    rfl
  rw [read_sealFrame _ _ _ _ _ htag, h a, frameBytes, List.append_assoc _ tag]
  by_cases htail : 6 + body.length ≤ a ∧ a < 12 + body.length
  · rw [if_pos htail, if_pos (by omega),
      List.getD_append_right (header lengthByte addr ++ body) _ _ _ (by omega), hlen]
  · rw [if_neg htail]
    by_cases hhead : a < 6 + body.length
    · rw [if_pos hhead, if_pos (by omega), List.getD_append (header lengthByte addr ++ body) _ _ _ (by omega)]
    · rw [if_neg hhead, if_neg (by omega)]

/-- The payload stands behind the header. -/
theorem readBytes_body_of_laid {s : State} {fb : Memory} {lengthByte addr : Byte} {body : List Byte}
    (h : Laid s fb lengthByte addr body) : fb.readBytes 6 body.length = body := by
  rw [readBytes_eq_iff _ _ _ _ rfl]
  intro i hi
  rw [h, if_pos (by omega), List.getD_append_right _ _ _ _ (by simp [header])]
  simp [header]

/-- The payload with the address before it. -/
theorem readBytes_addressed_of_laid {s : State} {fb : Memory} {lengthByte addr : Byte} {body : List Byte}
    (h : Laid s fb lengthByte addr body) : fb.readBytes 5 (body.length + 1) = addr :: body := by
  have hsplit : header lengthByte addr ++ body = [0xAA, 0xAA, 0x2D, 0xD4, lengthByte] ++ addr :: body := rfl
  refine (readBytes_eq_iff fb 5 (body.length + 1) (addr :: body) rfl).mpr fun i hi => ?_
  rw [h, if_pos (by omega), hsplit, List.getD_append_right _ _ _ _ (by simp)]
  simp

/-! ## The length byte -/

theorem toNat_and_low_seven (x : Byte) : (x &&& 0x7F).toNat = x.toNat % 128 := by
  rw [BitVec.toNat_and]
  exact Nat.and_two_pow_sub_one_eq_mod x.toNat 7

theorem sync_flag_and_low_seven : ∀ x : Byte, (0x80 ||| x) &&& 0x7F = x &&& 0x7F := by decide

theorem sync_flag_bit : ∀ x : Byte, (0x80 ||| x).getLsbD 7 = true := by decide

/-- The length byte of a data frame declares its length. -/
theorem dataLength_declares {n : Nat} (h : n ≤ 121) : (BitVec.ofNat 8 (n + 6) &&& 0x7F).toNat = n + 6 := by
  rw [toNat_and_low_seven, BitVec.toNat_ofNat]
  omega

theorem dataLength_bit {n : Nat} (h : n ≤ 121) : (BitVec.ofNat 8 (n + 6)).getLsbD 7 = false := by
  rw [BitVec.getLsbD_ofNat, Nat.testBit_lt_two_pow (by omega), Bool.and_false]

/-- The length byte of a sync frame declares its length below the flag. -/
theorem syncLength_declares {n : Nat} (h : n ≤ 121) : ((0x80 ||| BitVec.ofNat 8 (n + 6)) &&& 0x7F).toNat = n + 6 := by
  rw [sync_flag_and_low_seven, dataLength_declares h]

theorem toNat_frameLength {n : Nat} (h : n ≤ 121) : (BitVec.ofNat 8 (n + 12)).toNat = n + 12 := by
  rw [BitVec.toNat_ofNat]
  omega

theorem responseWord_frameLength {n : Nat} (h : n ≤ 121) :
    responseWord 0 (BitVec.ofNat 8 (n + 12)) = BitVec.ofNat 16 (n + 12) := by
  apply BitVec.eq_of_toNat_eq
  rw [responseWord, BitVec.toNat_append, toNat_frameLength h, BitVec.toNat_ofNat]
  simp
  omega

/-! ## `BUILDD` -/

/-- Byte `j` of the keystream from the counter as it stands (R116). -/
def keystream (s : State) (j : Nat) : Byte :=
  byteAt (encryptUnder s .enc (withCnt s.ctr (pktCnt s.ctr + BitVec.ofNat 32 (j / 8)))) (j % 8)

/-- The pending payload under the keystream. -/
def cipherText (s : State) : List Byte := (List.range s.plen.toNat).map fun j => Memory.read s.pb j ^^^ keystream s j

@[simp] theorem length_cipherText (s : State) : (cipherText s).length = s.plen.toNat := by simp [cipherText]

theorem getD_cipherText (s : State) {j : Nat} (h : j < s.plen.toNat) :
    (cipherText s).getD j 0 = Memory.read s.pb j ^^^ keystream s j := by
  simp [cipherText, List.getD, h]

/-- The counter `k` blocks on (R116 a). -/
def counterAt (c : Block) (k : Nat) : Block := withCnt c (pktCnt c + BitVec.ofNat 32 k)

theorem addCnt_eq_counterAt (c : Block) (k : Nat) : addCnt c (BitVec.ofNat 32 k) = counterAt c k := rfl

theorem addCnt_one_counterAt (c : Block) (k : Nat) : addCnt (counterAt c k) 1 = counterAt c (k + 1) := by
  rw [← addCnt_eq_counterAt, ← addCnt_eq_counterAt, addCnt_addCnt, BitVec.ofNat_add]
  rfl

/-- The buffer and the counter of `BUILDD` once the payload is laid out and encrypted. -/
def encrypted (addr : Byte) (s : State) : CryptRegs :=
  ctrCrypt (encryptUnder s .enc) 6 s.plen.toNat
    { fb := layFrame s (BitVec.ofNat 8 (s.plen.toNat + 6)) addr s.plen.toNat, ctr := s.ctr }

theorem encrypted_ctr (addr : Byte) (s : State) : (encrypted addr s).ctr = counterAt s.ctr (ceil8 s.plen.toNat) :=
  ctrCrypt_ctr _ _ _ _

theorem laid_encrypted (addr : Byte) (s : State) :
    Laid s (encrypted addr s).fb (BitVec.ofNat 8 (s.plen.toNat + 6)) addr (cipherText s) := by
  intro a
  rw [encrypted, ctrCrypt_read, laid_layFrame, length_readBytes, length_cipherText]
  have hlen : (header (BitVec.ofNat 8 (s.plen.toNat + 6)) addr).length = 6 := rfl
  by_cases hbody : 6 ≤ a ∧ a < 6 + s.plen.toNat
  · rw [if_pos hbody, if_pos hbody.2, if_pos hbody.2, List.getD_append_right _ _ _ _ (by omega),
      List.getD_append_right _ _ _ _ (by omega), hlen, getD_readBytes, if_pos (by omega), getD_cipherText _ (by omega),
      Nat.zero_add]
    rfl
  · rw [if_neg hbody]
    by_cases hhead : a < 6
    · rw [if_pos (by omega), if_pos (by omega), List.getD_append _ _ _ _ (by omega), List.getD_append _ _ _ _ (by omega)]
    · rw [if_neg (by omega), if_neg (by omega)]

/-- The tag of a data frame, over address and ciphertext (R141 step 3). -/
def dataTag (addr : Byte) (s : State) : List Byte :=
  macTag s (addr :: cipherText s) (some (counterAt s.ctr (ceil8 s.plen.toNat)))

/-- The frame that `BUILDD` builds (R42, R141). -/
def dataFrame (addr : Byte) (s : State) : List Byte :=
  frameBytes s (BitVec.ofNat 8 (s.plen.toNat + 6)) addr (cipherText s) (dataTag addr s)

/-- The buffer that `BUILDD` leaves. -/
def dataFrameFb (addr : Byte) (s : State) : Memory :=
  sealFrame s (encrypted addr s).fb s.plen.toNat (dataTag addr s)

theorem read_dataFrameFb (addr : Byte) (s : State) (a : Nat) :
    Memory.read (dataFrameFb addr s) a =
      if a < s.plen.toNat + 12 then (dataFrame addr s).getD a 0 else Memory.read s.fb a := by
  have h := read_sealFrame_of_laid (laid_encrypted addr s) (tag := dataTag addr s) (length_macTag _ _ _) a
  rwa [length_cipherText] at h

theorem encrypted_tag (addr : Byte) (s : State) :
    macTag s ((encrypted addr s).fb.readBytes 5 (s.plen.toNat + 1)) (some (encrypted addr s).ctr) = dataTag addr s := by
  have hmsg := readBytes_addressed_of_laid (laid_encrypted addr s)
  rw [length_cipherText] at hmsg
  rw [hmsg, encrypted_ctr, dataTag]

/-- The state after `BUILDD`. -/
def builtData (addr : Byte) (s : State) : State :=
  { s with
    fb := dataFrameFb addr s, ctr := counterAt s.ctr (ceil8 s.plen.toNat + 1)
    txlen := BitVec.ofNat 8 (s.plen.toNat + 12), plen := 0, rxpos := 0, rxfrz := false
    responses := s.responses ++ [BitVec.ofNat 16 (s.plen.toNat + 12)] }

theorem execBuildd_of_ready (addr : Byte) {s : State} (hown : s.hostFb = true) (hkrdy : s.krdy = true)
    (hplen : s.plen.toNat ≤ payloadMax s.config) (hfits : s.plen.toNat + 12 ≤ s.config.frameMax) :
    execBuildd addr s = .next (builtData addr s) := by
  have hmax := hplen.trans (Stops.payloadMax_le s.config)
  have heq : execBuildd addr s = finishBuild s
      (sealFrame s (encrypted addr s).fb s.plen.toNat
        (macTag s ((encrypted addr s).fb.readBytes 5 (s.plen.toNat + 1)) (some (encrypted addr s).ctr)))
      (addCnt (encrypted addr s).ctr 1) s.plen.toNat := by
    rw [execBuildd, if_neg (by simp [hown]), if_neg (by simp [hkrdy]), if_neg (by simp [(frameFits_iff _ _).mpr ⟨hplen, hfits⟩])]
    rfl
  rw [heq, encrypted_tag, encrypted_ctr, addCnt_one_counterAt, finishBuild_eq, responseWord_frameLength hmax]
  rfl

theorem failsWith_buildd_of_not_owned (addr : Byte) {s : State} (h : s.hostFb = false) :
    FailsWith (exec (.buildd addr) s) s 3 := by
  rw [exec, execBuildd, if_pos h]
  exact Xtea.failsWith_fail .state s

theorem failsWith_buildd_of_no_keys (addr : Byte) {s : State} (hown : s.hostFb = true) (h : s.krdy = false) :
    FailsWith (exec (.buildd addr) s) s 4 := by
  rw [exec, execBuildd, if_neg (by simp [hown]), if_pos h]
  exact Xtea.failsWith_fail .nokey s

theorem illegalFields_buildd {a : Byte} (addr : Byte) (h : a ≠ 0) : Encoding.IllegalFields 0x40 a addr :=
  .inr (.inl ⟨h, by decide⟩)

/-- Settles O42: the buffer is the frame's bytes as far as it reaches. -/
theorem builddBuildsADataFrame : Obligations.BuilddBuildsADataFrame := by
  refine ⟨fun _ => rfl, fun a addr s ha => Xtea.failsWith_of_illegalFields (illegalFields_buildd addr ha) s,
    fun addr s => ⟨fun hbusy => ?_, fun hoff hlm hkrdy => ?_, fun hoff hlm hkrdy hplen hmax => ?_⟩⟩
  · exact failsWith_buildd_of_not_owned addr ((Buffers.hostFb_eq_false_iff s).mpr hbusy)
  · exact failsWith_buildd_of_no_keys addr ((hostFb_iff s).mpr ⟨hoff, hlm⟩) hkrdy
  · exact ⟨_, execBuildd_of_ready addr ((hostFb_iff s).mpr ⟨hoff, hlm⟩) hkrdy hplen (by omega), read_dataFrameFb addr s⟩

/-! ## `BUILDS` -/

/-- The pending payload in clear. -/
def clearText (s : State) : List Byte := (List.range s.plen.toNat).map fun j => Memory.read s.pb j

@[simp] theorem length_clearText (s : State) : (clearText s).length = s.plen.toNat := by simp [clearText]

theorem getD_clearText (s : State) {j : Nat} (h : j < s.plen.toNat) : (clearText s).getD j 0 = Memory.read s.pb j := by
  simp [clearText, List.getD, h]

theorem readBytes_pb (s : State) : s.pb.readBytes 0 s.plen.toNat = clearText s := by
  simp [Memory.readBytes, clearText]

/-- The length byte of a sync frame, with the flag (R145). -/
def syncLength (s : State) : Byte := 0x80 ||| BitVec.ofNat 8 (s.plen.toNat + 6)

/-- The tag of a sync frame, over the payload alone (R145). -/
def syncTag (s : State) : List Byte := macTag s (clearText s) none

/-- The frame that `BUILDS` builds (R42, R145). -/
def syncFrame (addr : Byte) (s : State) : List Byte := frameBytes s (syncLength s) addr (clearText s) (syncTag s)

/-- The buffer of `BUILDS` before the tag. -/
def syncLaid (addr : Byte) (s : State) : Memory := layFrame s (syncLength s) addr s.plen.toNat

/-- The buffer that `BUILDS` leaves. -/
def syncFrameFb (addr : Byte) (s : State) : Memory := sealFrame s (syncLaid addr s) s.plen.toNat (syncTag s)

theorem laid_syncLaid (addr : Byte) (s : State) : Laid s (syncLaid addr s) (syncLength s) addr (clearText s) := by
  rw [← readBytes_pb]
  exact laid_layFrame s (syncLength s) addr s.plen.toNat

theorem read_syncFrameFb (addr : Byte) (s : State) (a : Nat) :
    Memory.read (syncFrameFb addr s) a =
      if a < s.plen.toNat + 12 then (syncFrame addr s).getD a 0 else Memory.read s.fb a := by
  have h := read_sealFrame_of_laid (laid_syncLaid addr s) (tag := syncTag s) (length_macTag _ _ _) a
  rwa [length_clearText] at h

theorem syncLaid_tag (addr : Byte) (s : State) :
    macTag s ((syncLaid addr s).readBytes 6 s.plen.toNat) none = syncTag s := by
  have hmsg := readBytes_body_of_laid (laid_syncLaid addr s)
  rw [length_clearText] at hmsg
  rw [hmsg, syncTag]

theorem getD_frameBytes_body (s : State) (lengthByte addr : Byte) {body : List Byte} (tag : List Byte) {j : Nat}
    (h : j < body.length) : (frameBytes s lengthByte addr body tag).getD (6 + j) 0 = body.getD j 0 := by
  rw [frameBytes, List.append_assoc, List.append_assoc, List.getD_append_right _ _ _ _ (by simp [header]),
    List.getD_append _ _ _ _ (by simpa [header] using h)]
  simp [header]

/-- The counter that both ends take from a sync frame (R145, R149). -/
def syncCtr (addr : Byte) (s : State) : Block := syncCounter (syncFrameFb addr s) 6

theorem byteAt_syncCtr (addr : Byte) {s : State} (hlen : 4 ≤ s.plen.toNat) {j : Nat} (hj : j < 4) :
    byteAt (syncCtr addr s) j = Memory.read s.pb j := by
  rw [syncCtr, byteAt_syncCounter, if_pos hj, read_syncFrameFb, if_pos (by omega), syncFrame,
    getD_frameBytes_body _ _ _ _ (by rw [length_clearText]; omega), getD_clearText _ (by omega)]

/-- The state after `BUILDS`. -/
def builtSync (addr : Byte) (s : State) : State :=
  { s with
    fb := syncFrameFb addr s, ctr := syncCtr addr s
    txlen := BitVec.ofNat 8 (s.plen.toNat + 12), plen := 0, rxpos := 0, rxfrz := false
    responses := s.responses ++ [BitVec.ofNat 16 (s.plen.toNat + 12)] }

theorem execBuilds_of_ready (addr : Byte) {s : State} (hrole : s.role = .master) (hown : s.hostFb = true)
    (hkrdy : s.krdy = true) (hlen : 4 ≤ s.plen.toNat) (hplen : s.plen.toNat ≤ payloadMax s.config)
    (hfits : s.plen.toNat + 12 ≤ s.config.frameMax) : execBuilds addr s = .next (builtSync addr s) := by
  have hmax := hplen.trans (Stops.payloadMax_le s.config)
  have heq : execBuilds addr s = finishBuild s
      (sealFrame s (syncLaid addr s) s.plen.toNat (macTag s ((syncLaid addr s).readBytes 6 s.plen.toNat) none))
      (syncCounter (sealFrame s (syncLaid addr s) s.plen.toNat
        (macTag s ((syncLaid addr s).readBytes 6 s.plen.toNat) none)) 6) s.plen.toNat := by
    rw [execBuilds, if_neg (not_not.mpr hrole), if_neg (by simp [hown]), if_neg (by simp [hkrdy]), if_neg (by omega),
      if_neg (by simp [(frameFits_iff _ _).mpr ⟨hplen, hfits⟩])]
    rfl
  rw [heq, syncLaid_tag, finishBuild_eq, responseWord_frameLength hmax]
  rfl

theorem failsWith_builds_of_slave (addr : Byte) {s : State} (h : s.role ≠ .master) :
    FailsWith (exec (.builds addr) s) s 2 := by
  rw [exec, execBuilds, if_pos h]
  exact Xtea.failsWith_fail .role s

theorem failsWith_builds_of_not_owned (addr : Byte) {s : State} (hrole : s.role = .master) (h : s.hostFb = false) :
    FailsWith (exec (.builds addr) s) s 3 := by
  rw [exec, execBuilds, if_neg (not_not.mpr hrole), if_pos h]
  exact Xtea.failsWith_fail .state s

theorem failsWith_builds_of_no_keys (addr : Byte) {s : State} (hrole : s.role = .master) (hown : s.hostFb = true)
    (h : s.krdy = false) : FailsWith (exec (.builds addr) s) s 4 := by
  rw [exec, execBuilds, if_neg (not_not.mpr hrole), if_neg (by simp [hown]), if_pos h]
  exact Xtea.failsWith_fail .nokey s

theorem failsWith_builds_of_short (addr : Byte) {s : State} (hrole : s.role = .master) (hown : s.hostFb = true)
    (hkrdy : s.krdy = true) (h : s.plen.toNat < 4) : FailsWith (exec (.builds addr) s) s 5 := by
  rw [exec, execBuilds, if_neg (not_not.mpr hrole), if_neg (by simp [hown]), if_neg (by simp [hkrdy]), if_pos h]
  exact Xtea.failsWith_fail .range s

theorem illegalFields_builds {a : Byte} (addr : Byte) (h : a ≠ 0) : Encoding.IllegalFields 0x41 a addr :=
  .inr (.inl ⟨h, by decide⟩)

/-- Settles O43: the buffer is the frame's bytes, and the counter is read from its first four payload bytes. -/
theorem buildsBuildsASyncFrame : Obligations.BuildsBuildsASyncFrame := by
  refine ⟨fun _ => rfl, fun a addr s ha => Xtea.failsWith_of_illegalFields (illegalFields_builds addr ha) s,
    fun addr s => ⟨fun hrole => ?_, fun hrole hbusy => ?_, fun hrole hoff hlm hkrdy => ?_,
      fun hrole hoff hlm hkrdy hshort => ?_, fun hrole hoff hlm hkrdy hlen hplen => ?_⟩⟩
  · exact failsWith_builds_of_slave addr (by simp [hrole])
  · exact failsWith_builds_of_not_owned addr hrole ((Buffers.hostFb_eq_false_iff s).mpr hbusy)
  · exact failsWith_builds_of_no_keys addr hrole ((hostFb_iff s).mpr ⟨hoff, hlm⟩) hkrdy
  · exact failsWith_builds_of_short addr hrole ((hostFb_iff s).mpr ⟨hoff, hlm⟩) hkrdy hshort
  · exact ⟨_, _, execBuilds_of_ready addr hrole ((hostFb_iff s).mpr ⟨hoff, hlm⟩) hkrdy hlen hplen (by omega),
      read_syncFrameFb addr s, fun j hj => byteAt_syncCtr addr hlen hj, pktCnt_syncCounter _ _⟩

/-! ## A built frame declares its length -/

/-- What R144 says of the state after a build. -/
def DeclaresItsLength (s t : State) : Prop :=
  t.errflags = s.errflags ∧ (Memory.read t.fb 4 &&& 0x7F).toNat = t.txlen.toNat - 6 ∧
    6 ≤ t.txlen.toNat - 6 ∧ t.txlen.toNat - 6 ≤ min 127 (s.config.frameMax - 6) ∧ t.txlen.toNat ≤ s.config.frameMax

theorem declaresItsLength_of_built {s t : State} {n : Nat} (herr : t.errflags = s.errflags)
    (htxlen : t.txlen = BitVec.ofNat 8 (n + 12)) (hlen : (Memory.read t.fb 4 &&& 0x7F).toNat = n + 6)
    (hmax : n ≤ 121) (hfits : n + 12 ≤ s.config.frameMax) : DeclaresItsLength s t := by
  unfold DeclaresItsLength
  rw [htxlen, toNat_frameLength hmax, hlen]
  exact ⟨herr, by omega, by omega, by omega, hfits⟩

/-- Settles O44: the checks of the builds give the codes 2 to 5, and the length byte is the fifth of the frame. -/
theorem builtFrameDeclaresItsLength : Obligations.BuiltFrameDeclaresItsLength := by
  intro addr s i hinv hi
  change (∃ code, 2 ≤ code ∧ code ≤ 5 ∧ FailsWith (exec i s) s code) ∨
    ∃ t, exec i s = .next t ∧ DeclaresItsLength s t
  have hplen := hinv.plen_le
  have hmax := hplen.trans (Stops.payloadMax_le s.config)
  have hfits : s.plen.toNat + 12 ≤ s.config.frameMax := by
    have := Stops.payloadMax_add_le hinv.config_wf
    omega
  by_cases hown : s.hostFb = true
  case neg =>
    rw [Bool.not_eq_true] at hown
    rcases hi with rfl | rfl
    · exact .inl ⟨3, by decide, by decide, failsWith_buildd_of_not_owned addr hown⟩
    · by_cases hrole : s.role = .master
      · exact .inl ⟨3, by decide, by decide, failsWith_builds_of_not_owned addr hrole hown⟩
      · exact .inl ⟨2, by decide, by decide, failsWith_builds_of_slave addr hrole⟩
  case pos =>
    rcases hi with rfl | rfl
    · by_cases hkrdy : s.krdy = true
      · refine .inr ⟨_, execBuildd_of_ready addr hown hkrdy hplen hfits,
          declaresItsLength_of_built rfl rfl ?_ hmax hfits⟩
        rw [builtData, read_dataFrameFb, if_pos (by omega)]
        exact dataLength_declares hmax
      · exact .inl ⟨4, by decide, by decide, failsWith_buildd_of_no_keys addr hown (by simpa using hkrdy)⟩
    · by_cases hrole : s.role = .master
      case neg => exact .inl ⟨2, by decide, by decide, failsWith_builds_of_slave addr hrole⟩
      by_cases hkrdy : s.krdy = true
      case neg => exact .inl ⟨4, by decide, by decide, failsWith_builds_of_no_keys addr hrole hown (by simpa using hkrdy)⟩
      by_cases hlen : 4 ≤ s.plen.toNat
      case neg => exact .inl ⟨5, by decide, by decide, failsWith_builds_of_short addr hrole hown hkrdy (by omega)⟩
      refine .inr ⟨_, execBuilds_of_ready addr hrole hown hkrdy hlen hplen hfits,
        declaresItsLength_of_built rfl rfl ?_ hmax hfits⟩
      rw [builtSync, read_syncFrameFb, if_pos (by omega)]
      exact syncLength_declares hmax

/-! ## `SEND` -/

theorem execSend_of_not_ready {s : State} (h : s.hostFb = false ∨ s.txlen = 0) : execSend s = fail .state s := if_pos h

theorem execSend_of_ready {s : State} (hown : s.hostFb = true) (hne : s.txlen ≠ 0)
    (hmax : s.txlen.toNat ≤ s.config.frameMax) :
    execSend s = .next { s with
      txframes := s.txframes ++ [s.fb.readBytes 0 s.txlen.toNat]
      lm := .transmitting, rxpos := 0, rxfrz := false, txlen := 0
      responses := s.responses ++ [responseWord 0 s.txlen] } := by
  rw [execSend, if_neg (by simpa [hown] using hne), if_neg (by omega), succeed_eq]
  rfl

/-- Settles O45: the two checks of `SEND`, and the bytes as they stand. -/
theorem sendEmitsTheBuiltFrame : Obligations.SendEmitsTheBuiltFrame := by
  refine ⟨rfl, fun a b s h => Link.failsWith_of_nonzero_operand (i := .send) (fun _ _ => rfl) h s, fun s =>
    ⟨fun h => ?_, fun hoff hlm hne hmax => ?_⟩⟩
  · have hno : s.hostFb = false ∨ s.txlen = 0 := by rwa [Buffers.hostFb_eq_false_iff, or_assoc]
    rw [exec, execSend_of_not_ready hno]
    exact Xtea.failsWith_fail .state s
  · have hbytes : s.fb.readBytes 0 s.txlen.toNat = (List.range s.txlen.toNat).map fun a => Memory.read s.fb a := by
      simp [Memory.readBytes]
    rw [exec, execSend_of_ready ((hostFb_iff s).mpr ⟨hoff, hlm⟩) hne hmax, hbytes]
    rfl

end Sys2Proof.Building
end

section
/-! PROOFS. The processing of a frozen frame (spec 45_framer.md R148 to R151), outcome by outcome. -/

namespace Sys2Proof.Framer

open Sys2Proof Sys2Proof.Machine

/-! ## The checks of `RXPROC` -/

/-- Settles O47: the two checks come before anything of the frame is looked at. -/
theorem rxprocNeedsAFrozenFrameAndKeys : Obligations.RxprocNeedsAFrozenFrameAndKeys := by
  refine ⟨rfl, fun a b s h => Link.failsWith_of_nonzero_operand (i := .rxproc) (fun _ _ => rfl) h s, fun s =>
    ⟨fun hfrz => ?_, fun hfrz hkrdy => ?_⟩⟩
  · rw [exec, execRxproc, if_pos hfrz]
    exact Xtea.failsWith_fail .state s
  · rw [exec, execRxproc, if_neg (by simp [hfrz]), if_pos hkrdy]
    exact Xtea.failsWith_fail .nokey s

/-! ## Sync frames -/

theorem syncVerified_iff (n : Nat) (s : State) : SyncVerified n s ↔ ∀ k, k < 4 →
    Memory.read s.fb (2 + n + k) =
      byteAt (cmac (encryptUnder s .mac) (subkey1 s.keys) (subkey2 s.keys) (s.fb.readBytes 2 n) none) k :=
  macTag_eq_iff _ _ _ _ _

theorem processFrame_of_sync {n : Nat} {s : State} (h : (s.fb.read 0).getLsbD 7 = true) :
    processFrame n s = syncBranch n s := if_pos h

theorem syncBranch_of_not_verified {n : Nat} {s : State} (h : ¬SyncVerified n s) :
    syncBranch n s = (s, .syncMacFail) := if_pos h

theorem syncBranch_of_short {n : Nat} {s : State} (h : SyncVerified n s) (hn : n < 4) :
    syncBranch n s = (s, .syncShort) := (if_neg (not_not.mpr h)).trans (if_pos hn)

theorem syncBranch_of_verified {n : Nat} {s : State} (h : SyncVerified n s) (hn : 4 ≤ n) :
    syncBranch n s = ({ s with ctr := syncCounter s.fb 2, lm := .stopped }, .syncOk) :=
  (if_neg (not_not.mpr h)).trans (if_neg (by omega))

/-- The answer of `RXPROC` to a sync frame is the outcome of the sync branch. -/
theorem execRxproc_of_sync {s t : State} {res : RxResult} (hfrz : s.rxfrz = true) (hkrdy : s.krdy = true)
    (hmin : 6 ≤ s.rxpos.toNat) (hmax : s.rxpos.toNat ≤ s.config.frameMax) (hsync : (s.fb.read 0).getLsbD 7 = true)
    (h : syncBranch (s.rxpos.toNat - 6) { s with rxfrz := false } = (t, res)) :
    execRxproc s = .next { t with rxres := res, responses := t.responses ++ [responseWord 0 res.code] } :=
  execRxproc_eq s t res hfrz hkrdy hmin hmax ((processFrame_of_sync (s := { s with rxfrz := false }) hsync).trans h)

/-- Settles O48: the three outcomes of the sync branch. -/
theorem rxprocOnASyncFrame : Obligations.RxprocOnASyncFrame := by
  intro s hfrz hkrdy hmin hmax hsync n payload chain verified
  have hverified : SyncVerified n { s with rxfrz := false } ↔ verified := syncVerified_iff _ _
  refine ⟨fun hno => ?_, fun hv hn => ?_, fun hv hn => ⟨syncCounter s.fb 2, ?_, fun j hj => ?_, pktCnt_syncCounter _ _⟩⟩
  · exact execRxproc_of_sync hfrz hkrdy hmin hmax hsync (syncBranch_of_not_verified (mt hverified.mp hno))
  · exact execRxproc_of_sync hfrz hkrdy hmin hmax hsync (syncBranch_of_short (hverified.mpr hv) hn)
  · exact execRxproc_of_sync hfrz hkrdy hmin hmax hsync (syncBranch_of_verified (hverified.mpr hv) hn)
  · rw [byteAt_syncCounter, if_pos hj]

/-! ## Data frames -/

theorem dataVerified_iff (n : Nat) (s : State) : DataVerified n s ↔ ∀ k, k < 4 →
    Memory.read s.fb (2 + n + k) = byteAt (cmac (encryptUnder s .mac) (subkey1 s.keys) (subkey2 s.keys)
      (s.fb.readBytes 1 (n + 1)) (some (Building.counterAt s.ctr (ceil8 n)))) k :=
  macTag_eq_iff _ _ _ _ _

theorem processFrame_of_data {n : Nat} {s : State} (h : (s.fb.read 0).getLsbD 7 = false) :
    processFrame n s = dataBranch n s := if_neg (by rw [h]; exact Bool.false_ne_true)

theorem dataBranch_of_not_verified {n : Nat} {s : State} (h : ¬DataVerified n s) :
    dataBranch n s = (s, .dataMacFail) := if_pos h

theorem dataDecrypted_ctr (n : Nat) (s : State) :
    addCnt (dataDecrypted n s).ctr 1 = Building.counterAt s.ctr (ceil8 n + 1) := by
  rw [dataDecrypted, ctrCrypt_ctr, Building.addCnt_eq_counterAt, Building.addCnt_one_counterAt]

/-- A verified frame is decrypted and counted; the address decides the result alone (R151). -/
theorem dataBranch_of_verified {n : Nat} {s : State} (h : DataVerified n s) :
    dataBranch n s = ({ s with fb := (dataDecrypted n s).fb, ctr := Building.counterAt s.ctr (ceil8 n + 1) },
      if s.role = .slave ∧ s.fb.read 1 ≠ 0 then .dataAddr else .dataOk) := by
  rw [← dataDecrypted_ctr]
  refine (if_neg (not_not.mpr h)).trans ?_
  by_cases hfilter : s.role = .slave ∧ s.fb.read 1 ≠ 0
  · rw [if_pos hfilter]
    exact if_pos hfilter
  · rw [if_neg hfilter]
    exact if_neg hfilter

/-- The answer of `RXPROC` to a data frame is the outcome of the data branch. -/
theorem execRxproc_of_data {s t : State} {res : RxResult} (hfrz : s.rxfrz = true) (hkrdy : s.krdy = true)
    (hmin : 6 ≤ s.rxpos.toNat) (hmax : s.rxpos.toNat ≤ s.config.frameMax) (hdata : (s.fb.read 0).getLsbD 7 = false)
    (h : dataBranch (s.rxpos.toNat - 6) { s with rxfrz := false } = (t, res)) :
    execRxproc s = .next { t with rxres := res, responses := t.responses ++ [responseWord 0 res.code] } :=
  execRxproc_eq s t res hfrz hkrdy hmin hmax ((processFrame_of_data (s := { s with rxfrz := false }) hdata).trans h)

/-- Settles O49: the outcomes of the data branch, with the law of `ctr_crypt` for the payload. -/
theorem rxprocOnADataFrame : Obligations.RxprocOnADataFrame := by
  intro s hfrz hkrdy hmin hmax hdata n c blocks body chain verified
  have hverified : DataVerified n { s with rxfrz := false } ↔ verified := dataVerified_iff _ _
  refine ⟨fun hno => ?_, fun hv => ⟨(dataDecrypted n s).fb, fun a => ctrCrypt_read _ _ _ _ _, fun hrole haddr => ?_,
    fun hpass => ?_⟩⟩
  · exact execRxproc_of_data hfrz hkrdy hmin hmax hdata (dataBranch_of_not_verified (mt hverified.mp hno))
  · have hres := dataBranch_of_verified (hverified.mpr hv)
    rw [if_pos ⟨hrole, haddr⟩] at hres
    exact execRxproc_of_data hfrz hkrdy hmin hmax hdata hres
  · have hres := dataBranch_of_verified (hverified.mpr hv)
    rw [if_neg (by rintro ⟨hrole, haddr⟩; simp_all)] at hres
    exact execRxproc_of_data hfrz hkrdy hmin hmax hdata hres

/-! ## A verified frame -/

/-- The result of a verified data frame: the address filter of R151. -/
def dataResult (s : State) : RxResult := if s.role = .slave ∧ s.fb.read 1 ≠ 0 then .dataAddr else .dataOk

/-- The state after a verified data frame of `n` payload bytes was processed. -/
def processedData (n : Nat) (s : State) : State :=
  { s with
    rxfrz := false, rxres := dataResult s, fb := (dataDecrypted n s).fb
    ctr := Building.counterAt s.ctr (ceil8 n + 1)
    responses := s.responses ++ [responseWord 0 (dataResult s).code] }

theorem execRxproc_of_verified_data {s : State} {n : Nat} (hfrz : s.rxfrz = true) (hkrdy : s.krdy = true)
    (hn : s.rxpos.toNat = n + 6) (hmax : n + 6 ≤ s.config.frameMax) (hdata : (s.fb.read 0).getLsbD 7 = false)
    (hv : DataVerified n s) : execRxproc s = .next (processedData n s) := by
  have hbranch := dataBranch_of_verified (s := { s with rxfrz := false }) hv
  rw [← Nat.add_sub_cancel n 6, ← hn] at hbranch
  refine (execRxproc_of_data hfrz hkrdy (by omega) (by omega) hdata hbranch).trans ?_
  rw [hn, Nat.add_sub_cancel]
  rfl

/-- The state after a verified sync frame with its time bytes was processed. -/
def processedSync (s : State) : State :=
  { s with
    rxfrz := false, rxres := .syncOk, ctr := syncCounter s.fb 2, lm := .stopped
    responses := s.responses ++ [0x0002#16] }

theorem execRxproc_of_verified_sync {s : State} {n : Nat} (hfrz : s.rxfrz = true) (hkrdy : s.krdy = true)
    (hn : s.rxpos.toNat = n + 6) (hmax : n + 6 ≤ s.config.frameMax) (hsync : (s.fb.read 0).getLsbD 7 = true)
    (hv : SyncVerified n s) (hlen : 4 ≤ n) : execRxproc s = .next (processedSync s) := by
  have hbranch := syncBranch_of_verified (s := { s with rxfrz := false }) hv hlen
  rw [← Nat.add_sub_cancel n 6, ← hn] at hbranch
  exact execRxproc_of_sync hfrz hkrdy (by omega) (by omega) hsync hbranch

end Sys2Proof.Framer
end

section
/-! PROOFS. Two engines (spec 45_framer.md R145, R149, R151): one builds and sends a frame, the other takes its bytes and
processes it. -/

namespace Sys2Proof.TwoEngines

open Sys2Proof Sys2Proof.Machine Sys2Proof.Building

/-! ## The sender -/

theorem run_succ {k : Nat} {s t : State} (h : step s = .next t) :
    Host.Core.run core (k + 1) s = Host.Core.run core k t := core_run_step core k s t h

theorem run_one_eq_step (s : State) : Host.Core.run core 1 s = step s := core_run_one core s

/-- A step on a command word that is first in the inbox runs the command. -/
theorem step_command {i : Instr} (hi : i.wellFormed = true) (s : State) (rest : List Input) :
    step { s with inbox := .command (encode i) :: rest } = exec i { s with inbox := rest } :=
  (Steps.step_of_command rfl).trans (Steps.acceptCommand_of_decode (Encoding.decode_encode hi) _)

/-- The state after `SEND` of the frame pending in `u`. -/
def sent (u : State) : State :=
  { u with
    txframes := u.txframes ++ [u.fb.readBytes 0 u.txlen.toNat]
    lm := .transmitting, rxpos := 0, rxfrz := false, txlen := 0
    responses := u.responses ++ [responseWord 0 u.txlen] }

/-- A build and a `SEND`, where the build leaves a pending frame. -/
theorem run_build_send {i : Instr} (hi : i.wellFormed = true) {s u : State} {n : Nat}
    (hbuild : exec i { s with inbox := [.command (encode .send)] } = .next { u with inbox := [.command (encode .send)] })
    (hown : u.hostFb = true) (htxlen : u.txlen.toNat = n + 12) (hmax : n + 12 ≤ u.config.frameMax) :
    Host.Core.run core 2 { s with inbox := [.command (encode i), .command (encode .send)] } =
      .next (sent { u with inbox := [] }) := by
  have hne : u.txlen ≠ 0 := by
    intro hzero
    simp [hzero] at htxlen
  have hle : u.txlen.toNat ≤ u.config.frameMax := by omega
  refine (run_succ ((step_command hi s _).trans hbuild)).trans ((run_one_eq_step _).trans ?_)
  exact (step_command rfl u []).trans (execSend_of_ready (s := { u with inbox := [] }) hown hne hle)

/-- The bytes that `SEND` emits are the frame that the buffer holds. -/
theorem readBytes_of_frame {fb old : Memory} {frame : List Byte} {n : Nat} (hlen : frame.length = n + 12)
    (h : ∀ a, Memory.read fb a = if a < n + 12 then frame.getD a 0 else Memory.read old a) :
    fb.readBytes 0 (n + 12) = frame := by
  refine (readBytes_eq_iff _ _ _ _ hlen).mpr fun i hi => ?_
  rw [h, Nat.zero_add, if_pos hi]

theorem length_dataFrame (addr : Byte) (s : State) : (dataFrame addr s).length = s.plen.toNat + 12 := by
  rw [dataFrame, length_frameBytes s _ _ (tag := dataTag addr s) (length_macTag _ _ _), length_cipherText]

theorem length_syncFrame (addr : Byte) (s : State) : (syncFrame addr s).length = s.plen.toNat + 12 := by
  rw [syncFrame, length_frameBytes s _ _ (tag := syncTag s) (length_macTag _ _ _), length_clearText]

theorem plen_le_of_inv {s : State} (h : s.Inv) : s.plen.toNat ≤ 121 := h.plen_le.trans (Stops.payloadMax_le _)

theorem plen_fits_of_inv {s : State} (h : s.Inv) : s.plen.toNat + 12 ≤ s.config.frameMax := by
  have := h.plen_le
  have := Stops.payloadMax_add_le h.config_wf
  omega

/-- `BUILDD` and `SEND` emit the data frame, and the counter ends one block behind its payload (R141). -/
theorem run_buildd_send (addr : Byte) {s : State} (hinv : s.Inv) (hown : s.hostFb = true) (hkrdy : s.krdy = true) :
    ∃ s', Host.Core.run core 2 { s with inbox := [.command (encode (.buildd addr)), .command (encode .send)] } =
        .next s' ∧
      s'.txframes = s.txframes ++ [dataFrame addr s] ∧ s'.ctr = counterAt s.ctr (ceil8 s.plen.toNat + 1) := by
  have hlen := toNat_frameLength (plen_le_of_inv hinv)
  have hfits := plen_fits_of_inv hinv
  have hbuild := execBuildd_of_ready addr (s := { s with inbox := [.command (encode .send)] }) hown hkrdy hinv.plen_le
    hfits
  refine ⟨_, run_build_send (i := .buildd addr) (u := builtData addr s) rfl hbuild hown hlen hfits, ?_, rfl⟩
  have hbytes := readBytes_of_frame (length_dataFrame addr s) (read_dataFrameFb addr s)
  rw [← hbytes, ← hlen]
  rfl

/-- `BUILDS` and `SEND` emit the sync frame, and the counter is the one that the frame carries (R145). -/
theorem run_builds_send (addr : Byte) {s : State} (hinv : s.Inv) (hrole : s.role = .master) (hown : s.hostFb = true)
    (hkrdy : s.krdy = true) (hlen4 : 4 ≤ s.plen.toNat) :
    ∃ s', Host.Core.run core 2 { s with inbox := [.command (encode (.builds addr)), .command (encode .send)] } =
        .next s' ∧
      s'.txframes = s.txframes ++ [syncFrame addr s] ∧ s'.ctr = syncCtr addr s := by
  have hlen := toNat_frameLength (plen_le_of_inv hinv)
  have hfits := plen_fits_of_inv hinv
  have hbuild := execBuilds_of_ready addr (s := { s with inbox := [.command (encode .send)] }) hrole hown hkrdy hlen4
    hinv.plen_le hfits
  refine ⟨_, run_build_send (i := .builds addr) (u := builtSync addr s) rfl hbuild hown hlen hfits, ?_, rfl⟩
  have hbytes := readBytes_of_frame (length_syncFrame addr s) (read_syncFrameFb addr s)
  rw [← hbytes, ← hlen]
  rfl

/-! ## The receiver -/

/-- The state after the bytes `bs` have been received one by one. -/
def receiveAll : List Byte → State → State
  | [], s => s
  | b :: bs, s => receiveAll bs (receiveByte b s)

theorem receiveAll_append (bs cs : List Byte) (s : State) :
    receiveAll (bs ++ cs) s = receiveAll cs (receiveAll bs s) := by
  induction bs generalizing s with
  | nil => rfl
  | cons b bs ih => exact ih (receiveByte b s)

/-- The deframer does not look at the inbox. -/
theorem receiveByte_inbox (b : Byte) (s : State) (rest : List Input) :
    receiveByte b { s with inbox := rest } = { receiveByte b s with inbox := rest } := by
  unfold receiveByte rejectFrame
  dsimp only
  split_ifs <;> rfl

/-- A run over received bytes, one step a byte. -/
theorem run_rxBytes (bs : List Byte) (s : State) (rest : List Input) :
    Host.Core.run core bs.length { s with inbox := bs.map Input.rxByte ++ rest } =
      .next { receiveAll bs s with inbox := rest } := by
  induction bs generalizing s with
  | nil => rfl
  | cons b bs ih =>
    refine (core_run_step core bs.length _ { receiveByte b s with inbox := bs.map Input.rxByte ++ rest } ?_).trans
      (ih (receiveByte b s))
    rw [← receiveByte_inbox]
    rfl

theorem receiveAll_of_not_armed (bs : List Byte) {s : State} (h : s.rxen = false) : receiveAll bs s = s := by
  induction bs with
  | nil => rfl
  | cons b bs ih => rw [receiveAll, Framer.receiveByte_of_not_armed b h, ih]

/-- The state once `l` bytes of a frame stand in `fb` and are all of it. -/
def frozenWith (s : State) (fb : Memory) (l : Nat) : State :=
  { s with fb := fb, rxpos := BitVec.ofNat 8 l, rxen := false, rxfrz := true }

/-- A length that the deframer accepts (R147). -/
def Acceptable (c : Config) (l : Nat) : Prop := 6 ≤ l ∧ l < c.frameMax ∧ l ≤ 127

/-- R147 (d): the byte that completes the frame freezes it. -/
theorem receiveByte_of_last (b : Byte) {s : State} {l : Nat} (hl : Acceptable s.config l) (harmed : s.rxen = true)
    (hdecl : declaredLength (s.fb.write s.rxpos.toNat b) = l) (hpos : s.rxpos.toNat + 1 = l) :
    receiveByte b s = frozenWith s (s.fb.write s.rxpos.toNat b) l := by
  obtain ⟨hmin, hmax, h127⟩ := hl
  have hcount : s.rxpos + 1 = BitVec.ofNat 8 l := by
    apply BitVec.eq_of_toNat_eq
    rw [Invariants.toNat_add_one (Nat.lt_succ_self _) (by omega), BitVec.toNat_ofNat]
    omega
  refine (Framer.receiveByte_of_room b harmed (by omega)).trans ?_
  rw [hdecl, if_neg (by omega), if_pos (by omega), hcount]
  rfl

/-- R147 (e): a byte before the last is counted. -/
theorem receiveByte_of_more (b : Byte) {s : State} {l : Nat} (hl : Acceptable s.config l) (harmed : s.rxen = true)
    (hdecl : declaredLength (s.fb.write s.rxpos.toNat b) = l) (hpos : s.rxpos.toNat + 1 < l) :
    receiveByte b s = { s with fb := s.fb.write s.rxpos.toNat b, rxpos := s.rxpos + 1 } := by
  obtain ⟨hmin, hmax, -⟩ := hl
  refine (Framer.receiveByte_of_room b harmed (by omega)).trans ?_
  rw [hdecl, if_neg (by omega), if_neg (by omega)]

/-- The bytes after the length byte, to the end of the frame. -/
theorem receiveAll_rest {l : Nat} (b : Byte) (bs : List Byte) {s : State} (hl : Acceptable s.config l)
    (harmed : s.rxen = true) (hpos : s.rxpos.toNat ≠ 0) (hdecl : declaredLength s.fb = l)
    (hlen : s.rxpos.toNat + (b :: bs).length = l) :
    receiveAll (b :: bs) s = frozenWith s (s.fb.writeBytes s.rxpos.toNat (b :: bs)) l := by
  have hdecl' : declaredLength (s.fb.write s.rxpos.toNat b) = l := by rwa [Invariants.declaredLength_write _ _ hpos]
  have h127 := hl.2.2
  rw [List.length_cons] at hlen
  induction bs generalizing b s with
  | nil => exact receiveByte_of_last b hl harmed hdecl' hlen
  | cons c bs ih =>
    rw [List.length_cons] at hlen
    have hcount : (s.rxpos + 1).toNat = s.rxpos.toNat + 1 := Invariants.toNat_add_one (Nat.lt_succ_self _) (by omega)
    rw [receiveAll, receiveByte_of_more b hl harmed hdecl' (by omega)]
    have hnext := ih c (s := { s with fb := s.fb.write s.rxpos.toNat b, rxpos := s.rxpos + 1 }) hl harmed
      (by dsimp only; omega) hdecl' (by dsimp only; omega)
      (by rw [Invariants.declaredLength_write _ _ (by dsimp only; omega)]; exact hdecl')
    refine hnext.trans ?_
    dsimp only
    rw [hcount]
    rfl

/-- A frame whose length byte declares all of its bytes but the trailer freezes when these are there, and what comes after
is dropped. -/
theorem receiveAll_frame {lengthByte : Byte} (b : Byte) (bs rest : List Byte) {s : State} {l : Nat}
    (hl : Acceptable s.config l) (harmed : s.rxen = true) (hpos : s.rxpos = 0) (hdecl : (lengthByte &&& 0x7F).toNat = l)
    (hlen : (lengthByte :: b :: bs).length = l) :
    receiveAll ((lengthByte :: b :: bs) ++ rest) s =
      frozenWith s (s.fb.writeBytes 0 (lengthByte :: b :: bs)) l := by
  have hmin := hl.1
  have hzero : s.rxpos.toNat = 0 := by simp [hpos]
  have hone : (s.rxpos + 1).toNat = 1 := by simp [hpos]
  have hdecl' : declaredLength (s.fb.write s.rxpos.toNat lengthByte) = l := by
    rw [declaredLength, read_write, if_pos hzero.symm, hdecl]
  have hrest := receiveAll_rest b bs (s := { s with fb := s.fb.write s.rxpos.toNat lengthByte, rxpos := s.rxpos + 1 })
    hl harmed (by rw [hone]; exact one_ne_zero) hdecl' (by rw [hone, Nat.add_comm]; exact hlen)
  have hframe : receiveAll (lengthByte :: b :: bs) s = frozenWith s (s.fb.writeBytes 0 (lengthByte :: b :: bs)) l := by
    rw [receiveAll, receiveByte_of_more lengthByte hl harmed hdecl' (by omega), hrest]
    dsimp only
    rw [hone, hzero]
    rfl
  rw [receiveAll_append, hframe]
  exact receiveAll_of_not_armed rest rfl

/-! ## What the receiver holds -/

/-- A part of what was written is read back. -/
theorem readBytes_writeBytes_part (m : Memory) (xs ys zs : List Byte) :
    (m.writeBytes 0 (xs ++ ys ++ zs)).readBytes xs.length ys.length = ys := by
  refine (readBytes_eq_iff _ _ _ _ rfl).mpr fun i hi => ?_
  have hxy : xs.length + i < (xs ++ ys).length := by simpa using hi
  have hall : xs.length + i < (xs ++ ys ++ zs).length := by
    rw [List.length_append]
    omega
  rw [read_writeBytes, if_pos (by omega), Nat.sub_zero, List.getD_append _ _ _ _ hxy,
    List.getD_append_right _ _ _ _ (by omega), Nat.add_sub_cancel_left]

/-- The bytes of a frame that the deframer takes: without preamble and trailer (R43). -/
def received (lengthByte addr : Byte) (body tag : List Byte) : List Byte := lengthByte :: addr :: (body ++ tag)

theorem drop_frameBytes (s : State) (lengthByte addr : Byte) (body tag : List Byte) :
    (frameBytes s lengthByte addr body tag).drop 4 =
      received lengthByte addr body tag ++ [s.config.trailer, s.config.trailer] := by
  simp [frameBytes, header, received]

section

variable (m : Memory) (lengthByte addr : Byte) (body tag : List Byte)

theorem read_received_length : Memory.read (m.writeBytes 0 (received lengthByte addr body tag)) 0 = lengthByte := by
  simp [read_writeBytes, received]

theorem read_received_addr : Memory.read (m.writeBytes 0 (received lengthByte addr body tag)) 1 = addr := by
  simp [read_writeBytes, received]

theorem readBytes_received_addressed :
    (m.writeBytes 0 (received lengthByte addr body tag)).readBytes 1 (body.length + 1) = addr :: body :=
  readBytes_writeBytes_part m [lengthByte] (addr :: body) tag

theorem readBytes_received_body :
    (m.writeBytes 0 (received lengthByte addr body tag)).readBytes 2 body.length = body := by
  have h := readBytes_writeBytes_part m [lengthByte, addr] body tag
  rwa [List.append_assoc] at h

theorem readBytes_received_tag (htag : tag.length = 4) :
    (m.writeBytes 0 (received lengthByte addr body tag)).readBytes (2 + body.length) 4 = tag := by
  have h := readBytes_writeBytes_part m (lengthByte :: addr :: body) tag []
  rw [List.append_nil, htag] at h
  rw [Nat.add_comm 2]
  exact h

theorem read_received_body {j : Nat} (hj : j < body.length) :
    Memory.read (m.writeBytes 0 (received lengthByte addr body tag)) (2 + j) = body.getD j 0 :=
  (readBytes_eq_iff _ _ _ _ rfl).mp (readBytes_received_body m lengthByte addr body tag) j hj

end

theorem length_received (lengthByte addr : Byte) {body tag : List Byte} (htag : tag.length = 4) :
    (received lengthByte addr body tag).length = body.length + 6 := by
  simp [received, htag]

/-- The state of a receiver in which a whole frame is frozen. -/
def holding (r : State) (lengthByte addr : Byte) (body tag : List Byte) : State :=
  frozenWith { r with inbox := [] } (r.fb.writeBytes 0 (received lengthByte addr body tag)) (body.length + 6)

/-- R147 over a whole frame: the receiver takes the frame from its length byte on, and then runs `RXPROC` on it. -/
theorem run_receive_process {s r t : State} {lengthByte addr : Byte} {body tag : List Byte}
    (hl : Acceptable r.config (body.length + 6)) (harmed : r.rxen = true) (hpos : r.rxpos = 0)
    (hdecl : (lengthByte &&& 0x7F).toNat = body.length + 6) (htag : tag.length = 4)
    (h : execRxproc (holding r lengthByte addr body tag) = .next t) :
    Host.Core.run core (body.length + 9)
      { r with inbox := ((frameBytes s lengthByte addr body tag).drop 4).map Input.rxByte ++
          [.command (encode .rxproc)] } = .next t := by
  have hcount : body.length + 9 = (received lengthByte addr body tag ++ [s.config.trailer, s.config.trailer]).length + 1 := by
    simp [length_received _ _ htag]
  have hfrozen := receiveAll_frame addr (body ++ tag) [s.config.trailer, s.config.trailer] hl harmed hpos hdecl
    (length_received lengthByte addr htag)
  have hrun := run_rxBytes (received lengthByte addr body tag ++ [s.config.trailer, s.config.trailer]) r
    [.command (encode .rxproc)]
  rw [received, hfrozen] at hrun
  rw [drop_frameBytes, hcount]
  refine (run_add hrun).trans ((run_one_eq_step _).trans ?_)
  exact (step_command (i := .rxproc) rfl _ []).trans h

/-- The receiver's count of the frame's bytes. -/
theorem toNat_holding_rxpos (r : State) (lengthByte addr : Byte) {body : List Byte} (tag : List Byte)
    (h : body.length ≤ 121) : (holding r lengthByte addr body tag).rxpos.toNat = body.length + 6 := by
  change (BitVec.ofNat 8 (body.length + 6)).toNat = body.length + 6
  rw [BitVec.toNat_ofNat]
  omega

theorem encryptUnder_congr {s t : State} (hc : s.config = t.config) (hk : s.keys = t.keys) (k : KeySel) :
    encryptUnder s k = encryptUnder t k := by
  funext x
  rw [encryptUnder, encryptUnder, hc, hk]

theorem acceptable_of_inv {s r : State} (h : s.Inv) (hc : s.config = r.config) :
    Acceptable r.config (s.plen.toNat + 6) := by
  have hfits := plen_fits_of_inv h
  have hmax := plen_le_of_inv h
  rw [hc] at hfits
  exact ⟨by omega, by omega, by omega⟩

/-! ## Data frames -/

/-- The receiver that holds the frame of `s`. -/
def holdingData (addr : Byte) (s r : State) : State :=
  holding r (BitVec.ofNat 8 (s.plen.toNat + 6)) addr (cipherText s) (dataTag addr s)

theorem read_holdingData_length (addr : Byte) (s r : State) :
    (holdingData addr s r).fb.read 0 = BitVec.ofNat 8 (s.plen.toNat + 6) := read_received_length _ _ _ _ _

theorem read_holdingData_addr (addr : Byte) (s r : State) : (holdingData addr s r).fb.read 1 = addr :=
  read_received_addr _ _ _ _ _

theorem read_holdingData_body (addr : Byte) (s r : State) {j : Nat} (hj : j < s.plen.toNat) :
    (holdingData addr s r).fb.read (2 + j) = Memory.read s.pb j ^^^ keystream s j :=
  (read_received_body _ _ _ _ _ (by rwa [length_cipherText])).trans (getD_cipherText s hj)

theorem readBytes_holdingData_addressed (addr : Byte) (s r : State) :
    (holdingData addr s r).fb.readBytes 1 (s.plen.toNat + 1) = addr :: cipherText s := by
  have h := readBytes_received_addressed r.fb (BitVec.ofNat 8 (s.plen.toNat + 6)) addr (cipherText s) (dataTag addr s)
  rwa [length_cipherText] at h

theorem readBytes_holdingData_tag (addr : Byte) (s r : State) :
    (holdingData addr s r).fb.readBytes (2 + s.plen.toNat) 4 = dataTag addr s := by
  have h := readBytes_received_tag r.fb (BitVec.ofNat 8 (s.plen.toNat + 6)) addr (cipherText s) (dataTag addr s)
    (length_macTag _ _ _)
  rwa [length_cipherText] at h

theorem toNat_holdingData_rxpos (addr : Byte) {s : State} (r : State) (h : s.plen.toNat ≤ 121) :
    (holdingData addr s r).rxpos.toNat = s.plen.toNat + 6 := by
  have hpos := toNat_holding_rxpos r (BitVec.ofNat 8 (s.plen.toNat + 6)) addr (body := cipherText s) (dataTag addr s)
    (by rwa [length_cipherText])
  rwa [length_cipherText] at hpos

/-- With the sender's keys and counter the tag verifies (R150). -/
theorem dataVerified_holdingData (addr : Byte) {s r : State} (hc : s.config = r.config) (hk : s.keys = r.keys)
    (hctr : s.ctr = r.ctr) : DataVerified s.plen.toNat (holdingData addr s r) := by
  have hctr' : (holdingData addr s r).ctr = s.ctr := hctr.symm
  rw [DataVerified, readBytes_holdingData_addressed, readBytes_holdingData_tag, hctr', addCnt_eq_counterAt]
  exact macTag_congr hk.symm hc.symm _ _

/-- Decryption with the sender's key and counter gives the payload back (R151). -/
theorem read_dataDecrypted_body (addr : Byte) {s r : State} (hc : s.config = r.config) (hk : s.keys = r.keys)
    (hctr : s.ctr = r.ctr) {j : Nat} (hj : j < s.plen.toNat) :
    Memory.read (dataDecrypted s.plen.toNat (holdingData addr s r)).fb (2 + j) = Memory.read s.pb j := by
  have henc : encryptUnder (holdingData addr s r) .enc = encryptUnder s .enc := encryptUnder_congr hc.symm hk.symm .enc
  have hctr' : (holdingData addr s r).ctr = s.ctr := hctr.symm
  rw [dataDecrypted, ctrCrypt_read, if_pos (by omega), henc, hctr', Nat.add_sub_cancel_left, addCnt, ← keystream,
    read_holdingData_body _ _ _ hj, BitVec.xor_assoc, BitVec.xor_self, BitVec.xor_zero]

theorem read_dataDecrypted_addr (addr : Byte) (s r : State) :
    Memory.read (dataDecrypted s.plen.toNat (holdingData addr s r)).fb 1 = addr := by
  rw [dataDecrypted, ctrCrypt_read, if_neg (by omega), read_holdingData_addr]

theorem responseWord_dataResult (addr : Byte) (s r : State) :
    responseWord 0 (Framer.dataResult (holdingData addr s r)).code =
      if r.role = .slave ∧ addr ≠ 0 then 0x0005#16 else 0x0001#16 := by
  have hrole : (holdingData addr s r).role = r.role := rfl
  rw [Framer.dataResult, hrole, read_holdingData_addr]
  split_ifs <;> rfl

/-- The receiver that holds the frame processes it as a data frame that verifies. -/
theorem execRxproc_holdingData (addr : Byte) {s r : State} (hs : s.Inv) (hc : s.config = r.config)
    (hk : s.keys = r.keys) (hctr : s.ctr = r.ctr) (hkrdy : r.krdy = true) :
    execRxproc (holdingData addr s r) = .next (Framer.processedData s.plen.toNat (holdingData addr s r)) := by
  have hplen := plen_le_of_inv hs
  obtain ⟨-, hmax, -⟩ := acceptable_of_inv hs hc
  refine Framer.execRxproc_of_verified_data rfl hkrdy (toNat_holdingData_rxpos addr r hplen) hmax.le ?_
    (dataVerified_holdingData addr hc hk hctr)
  rw [read_holdingData_length, dataLength_bit hplen]

/-- Settles O51: the sender's frame is what the receiver holds when it freezes; there the tag verifies, and the same blocks
of the keystream undo the encryption. -/
theorem dataFrameKeepsTheCountersInLockstep : Obligations.DataFrameKeepsTheCountersInLockstep := by
  intro s r addr hs _ hc hk hctr hskrdy hrkrdy hown harmed hpos
  obtain ⟨s', hsend, hframes, hsctr⟩ := run_buildd_send addr hs hown hskrdy
  have hl := acceptable_of_inv hs hc
  have hdecl := dataLength_declares (plen_le_of_inv hs)
  rw [← length_cipherText s] at hl
  have hreceive := run_receive_process (s := s) (addr := addr) (body := cipherText s) (tag := dataTag addr s) hl harmed hpos
    (by rwa [length_cipherText]) (length_macTag _ _ _) (execRxproc_holdingData addr hs hc hk hctr hrkrdy)
  rw [length_cipherText] at hreceive
  refine ⟨dataFrame addr s, s', hsend, hframes, length_dataFrame addr s, _, hreceive, ?_, read_dataDecrypted_addr addr s r,
    fun j hj => read_dataDecrypted_body addr hc hk hctr hj, ?_⟩
  · rw [← responseWord_dataResult addr s r]
    rfl
  · rw [hsctr, hctr]
    rfl

/-! ## Sync frames -/

/-- The receiver that holds the sync frame of `s`. -/
def holdingSync (addr : Byte) (s r : State) : State :=
  holding r (syncLength s) addr (clearText s) (syncTag s)

theorem read_holdingSync_length (addr : Byte) (s r : State) : (holdingSync addr s r).fb.read 0 = syncLength s :=
  read_received_length _ _ _ _ _

theorem read_holdingSync_body (addr : Byte) (s r : State) {j : Nat} (hj : j < s.plen.toNat) :
    (holdingSync addr s r).fb.read (2 + j) = Memory.read s.pb j :=
  (read_received_body _ _ _ _ _ (by rwa [length_clearText])).trans (getD_clearText s hj)

theorem readBytes_holdingSync_body (addr : Byte) (s r : State) :
    (holdingSync addr s r).fb.readBytes 2 s.plen.toNat = clearText s := by
  have h := readBytes_received_body r.fb (syncLength s) addr (clearText s) (syncTag s)
  rwa [length_clearText] at h

theorem readBytes_holdingSync_tag (addr : Byte) (s r : State) :
    (holdingSync addr s r).fb.readBytes (2 + s.plen.toNat) 4 = syncTag s := by
  have h := readBytes_received_tag r.fb (syncLength s) addr (clearText s) (syncTag s) (length_macTag _ _ _)
  rwa [length_clearText] at h

theorem toNat_holdingSync_rxpos (addr : Byte) {s : State} (r : State) (h : s.plen.toNat ≤ 121) :
    (holdingSync addr s r).rxpos.toNat = s.plen.toNat + 6 := by
  have hpos := toNat_holding_rxpos r (syncLength s) addr (body := clearText s) (syncTag s) (by rwa [length_clearText])
  rwa [length_clearText] at hpos

/-- The tag of a sync frame verifies whatever the counters are (R149). -/
theorem syncVerified_holdingSync (addr : Byte) {s r : State} (hc : s.config = r.config) (hk : s.keys = r.keys) :
    SyncVerified s.plen.toNat (holdingSync addr s r) := by
  rw [SyncVerified, readBytes_holdingSync_body, readBytes_holdingSync_tag]
  exact macTag_congr hk.symm hc.symm _ _

theorem execRxproc_holdingSync (addr : Byte) {s r : State} (hs : s.Inv) (hc : s.config = r.config) (hk : s.keys = r.keys)
    (hkrdy : r.krdy = true) (hlen : 4 ≤ s.plen.toNat) :
    execRxproc (holdingSync addr s r) = .next (Framer.processedSync (holdingSync addr s r)) := by
  obtain ⟨-, hmax, -⟩ := acceptable_of_inv hs hc
  refine Framer.execRxproc_of_verified_sync rfl hkrdy (toNat_holdingSync_rxpos addr r (plen_le_of_inv hs)) hmax.le ?_
    (syncVerified_holdingSync addr hc hk) hlen
  rw [read_holdingSync_length, syncLength, sync_flag_bit]

/-- The counter that the receiver takes is the sender's. -/
theorem syncCounter_holdingSync (addr : Byte) {s : State} (r : State) (hlen : 4 ≤ s.plen.toNat) :
    syncCounter (holdingSync addr s r).fb 2 = syncCtr addr s := by
  apply bytes_ext
  intro j _
  rw [byteAt_syncCounter]
  split_ifs with hj
  · rw [read_holdingSync_body _ _ _ (by omega), byteAt_syncCtr addr hlen hj]
  · rw [syncCtr, byteAt_syncCounter, if_neg hj]

/-- Settles O52: the tag of a sync frame names no counter, and both ends take theirs from the same payload bytes. -/
theorem syncFrameAlignsTheCounters : Obligations.SyncFrameAlignsTheCounters := by
  intro s r addr hs _ hc hk hskrdy hrkrdy hrole hown hlen harmed hpos
  obtain ⟨s', hsend, hframes, hsctr⟩ := run_builds_send addr hs hrole hown hskrdy hlen
  have hl := acceptable_of_inv hs hc
  have hdecl := syncLength_declares (plen_le_of_inv hs)
  rw [← length_clearText s] at hl
  have hreceive := run_receive_process (s := s) (addr := addr) (body := clearText s) (tag := syncTag s) hl harmed hpos
    (by rwa [length_clearText]) (length_macTag _ _ _) (execRxproc_holdingSync addr hs hc hk hrkrdy hlen)
  rw [length_clearText] at hreceive
  have hctr : (Framer.processedSync (holdingSync addr s r)).ctr = syncCtr addr s := syncCounter_holdingSync addr r hlen
  refine ⟨syncFrame addr s, s', hsend, hframes, length_syncFrame addr s, _, hreceive, rfl, rfl, hctr.trans hsctr.symm,
    fun j hj => ?_, ?_⟩
  · rw [hctr, byteAt_syncCtr addr hlen hj]
  · rw [hctr]
    exact pktCnt_syncCounter _ _

end Sys2Proof.TwoEngines
end

section
/-! PROOFS. The textual form (spec 30_encoding.md R67, R68): a line is written from words, read back into these words, and
assembled. -/

namespace Sys2Proof.Text

open Sys2Proof Sys2Proof.Machine

/-! ## Lines and their words -/

/-- No comment and no quoted text starts in these characters. -/
def clean (cs : List Char) : Bool := cs.all fun c => c != ';' && c != '"'

theorem clean_append {cs ds : List Char} (h : clean cs = true) (h' : clean ds = true) : clean (cs ++ ds) = true := by
  rw [clean, List.all_append, Bool.and_eq_true]
  exact ⟨h, h'⟩

theorem clean_of_plain {cs : List Char} (h : cs.all plainChar = true) : clean cs = true := by
  rw [clean, List.all_eq_true]
  intro c hc
  have hplain := List.all_eq_true.mp h c hc
  simp only [plainChar, Bool.and_eq_true] at hplain
  rw [Bool.and_eq_true]
  exact ⟨hplain.1.2, hplain.2⟩

/-- A clean line is read as its words. -/
theorem assembleLine_of_clean {line : String} {cs : List Char} (hline : line.toList = cs) (hclean : clean cs = true) :
    assembleLine line = assembleSplit (splitArrow (lineWords cs [])) := by
  have hsemi : ';' ∉ cs := fun h => absurd (List.all_eq_true.mp hclean _ h) (by decide)
  have hquote : ¬cs.any (· = '"') = true := by
    rw [List.any_eq_true]
    rintro ⟨c, hc, heq⟩
    obtain rfl := of_decide_eq_true heq
    exact absurd (List.all_eq_true.mp hclean _ hc) (by decide)
  rw [assembleLine, hline, dropComment_of_not_mem cs hsemi, if_neg hquote]

/-- A line without an arrow. -/
theorem assembleLine_of_words {line : String} {cs : List Char} {ws : List (List Char)} (hline : line.toList = cs)
    (hclean : clean cs = true) (hwords : lineWords cs [] = ws) (harrow : ['-', '>'] ∉ ws) :
    assembleLine line = assembleWords ws := by
  rw [assembleLine_of_clean hline hclean, hwords, splitArrow_none ws harrow, assembleSplit]

/-- A word as it stands in a line, other than the arrow. -/
def isWord (w : List Char) : Bool := w.all plainChar && w != [] && w != ['-', '>']

theorem plain_of_isWord {w : List Char} (h : isWord w = true) : w.all plainChar = true := by
  simp only [isWord, Bool.and_eq_true] at h
  exact h.1.1

theorem ne_nil_of_isWord {w : List Char} (h : isWord w = true) : w ≠ [] := by
  simp only [isWord, Bool.and_eq_true, bne_iff_ne] at h
  exact h.1.2

theorem ne_arrow_of_isWord {w : List Char} (h : isWord w = true) : w ≠ ['-', '>'] := by
  simp only [isWord, Bool.and_eq_true, bne_iff_ne] at h
  exact h.2

/-- What follows ends the word before it. -/
def EndsWord (cs : List Char) : Prop := ∀ word, lineWords cs word = endWord word (lineWords cs [])

theorem endsWord_nil : EndsWord [] := fun _ => rfl

theorem endsWord_blank (cs : List Char) : EndsWord (' ' :: cs) := fun _ => rfl

theorem endsWord_comma (cs : List Char) : EndsWord (',' :: cs) := fun _ => rfl

/-- A word is read up to where it ends. -/
theorem lineWords_word {w cs : List Char} (hw : w.all plainChar = true) (hne : w ≠ []) (hcs : EndsWord cs) :
    lineWords (w ++ cs) [] = w :: lineWords cs [] := by
  rw [lineWords_plain w cs [] hw, List.append_nil, hcs, endWord_reverse w _ hne]

/-! ## Bytes as words -/

/-- A byte as a word of its own. -/
def byteWord (b : Byte) : List Char := '0' :: 'x' :: hexChars b

@[simp] theorem toList_byteText (b : Byte) : (byteText b).toList = byteWord b := String.toList_ofList

theorem readByte_byteWord (b : Byte) : readByte (byteWord b) = some b := readByte_hexChars b

theorem plain_byteWord (b : Byte) : (byteWord b).all plainChar = true := plain_hexChars b

theorem byteWord_ne_nil (b : Byte) : byteWord b ≠ [] := List.cons_ne_nil _ _

theorem byteWord_ne_arrow (b : Byte) : byteWord b ≠ ['-', '>'] := by simp [byteWord]

theorem lineWords_byteWord (b : Byte) {cs : List Char} (hcs : EndsWord cs) :
    lineWords (byteWord b ++ cs) [] = byteWord b :: lineWords cs [] :=
  lineWords_word (plain_byteWord b) (byteWord_ne_nil b) hcs

theorem hexDigit_ne_dash : ∀ n : BitVec 4, hexDigit n ≠ '-' := by decide

theorem hexChars_ne_arrow (b : Byte) : hexChars b ≠ ['-', '>'] := by
  simp [hexChars, hexDigit_ne_dash]

/-- The words of a string of byte pairs. -/
def hexWords (bs : List Byte) : List (List Char) := bs.map hexChars

@[simp] theorem toList_hexText (bs : List Byte) : (hexText bs).toList = bs.flatMap fun b => ' ' :: hexChars b :=
  String.toList_ofList

theorem clean_hexText (bs : List Byte) : clean (hexText bs).toList = true := by
  rw [toList_hexText, clean, List.all_flatMap, List.all_eq_true]
  exact fun b _ => clean_append (cs := [' ']) rfl (clean_of_plain (plain_hexChars b))

theorem endsWord_hexText (bs : List Byte) : EndsWord (hexText bs).toList := by
  rw [toList_hexText]
  intro word
  rw [lineWords_hexText, lineWords_hexText]
  rfl

theorem lineWords_hexText_nil (bs : List Byte) : lineWords (hexText bs).toList [] = hexWords bs := by
  rw [toList_hexText, lineWords_hexText]
  rfl

theorem arrow_not_mem_hexWords (bs : List Byte) : ['-', '>'] ∉ hexWords bs := by
  rw [hexWords, List.mem_map]
  rintro ⟨b, -, h⟩
  exact hexChars_ne_arrow b h

/-! ## Operands -/

/-- The words of the operands, with a comma between them. -/
def operandWords : List Byte → List (List Char)
  | [] => []
  | [x] => [byteWord x]
  | x :: xs => byteWord x :: [','] :: operandWords xs

theorem clean_operandText (ops : List Byte) : clean (operandText ops).toList = true := by
  induction ops with
  | nil => rfl
  | cons x xs ih =>
    have hx : clean (byteWord x) = true := clean_of_plain (plain_byteWord x)
    cases xs with
    | nil => simpa [operandText] using clean_append (cs := [' ']) rfl hx
    | cons y ys =>
      simpa [operandText] using clean_append (cs := [' ']) rfl (clean_append hx (clean_append (cs := [',']) rfl ih))

theorem lineWords_operandText (ops : List Byte) {cs : List Char} (hcs : EndsWord cs) (word : List Char) :
    lineWords ((operandText ops).toList ++ cs) word = endWord word (operandWords ops ++ lineWords cs []) := by
  induction ops generalizing word with
  | nil => exact hcs word
  | cons x xs ih =>
    cases xs with
    | nil =>
      have hx := lineWords_byteWord x hcs
      simp [operandText, operandWords, hx]
    | cons y ys =>
      have hrest := lineWords_byteWord x (endsWord_comma ((operandText (y :: ys)).toList ++ cs))
      have ih := ih []
      simp [operandText, operandWords, hrest, ih, endWord]

theorem arrow_not_mem_operandWords (ops : List Byte) : ['-', '>'] ∉ operandWords ops := by
  induction ops with
  | nil => simp [operandWords]
  | cons x xs ih =>
    cases xs with
    | nil => simpa [operandWords] using (byteWord_ne_arrow x).symm
    | cons y ys => simpa [operandWords] using ⟨(byteWord_ne_arrow x).symm, ih⟩

theorem moreOperands_operandWords (x : Byte) (xs : List Byte) :
    moreOperands ([','] :: operandWords (x :: xs)) = some (x :: xs) := by
  induction xs generalizing x with
  | nil => simp [operandWords, moreOperands, readByte_byteWord]
  | cons y ys ih => simp [operandWords, moreOperands, readByte_byteWord, ih y]

/-- The operands are read back. -/
theorem readOperands_operandWords (ops : List Byte) : readOperands (operandWords ops) = some ops := by
  cases ops with
  | nil => rfl
  | cons x xs =>
    cases xs with
    | nil => simp [operandWords, readOperands, moreOperands, readByte_byteWord]
    | cons y ys => simp [operandWords, readOperands, readByte_byteWord, moreOperands_operandWords]

/-! ## Commands -/

theorem assembleWord_instr (i : Instr) : assembleWord (opcodeRow i).mnemonic (asmOperands i) = some (encode i) := by
  cases i <;> rfl

theorem opcodeTable_mnemonic_isWord : ∀ r ∈ opcodeTable, isWord r.mnemonic.toList = true := by decide

theorem isWord_mnemonic (i : Instr) : isWord (opcodeRow i).mnemonic.toList = true :=
  opcodeTable_mnemonic_isWord _ (Encoding.opcodeRow_mem_opcodeTable i)

/-- The first words of the pseudo-instructions and the events (R68). -/
def specialWords : List String := ["LDMK", "LDCTR", "LDBLK", "LDFB", "EXPECT", "PUTS", "@RX", "@TXC", "@RXS"]

theorem opcodeTable_mnemonic_not_special : ∀ r ∈ opcodeTable, r.mnemonic ∉ specialWords := by decide

theorem assembleWords_of_not_special {m : String} (hm : m ∉ specialWords) (operands : List (List Char)) :
    assembleWords (m.toList :: operands) = readCommand m.toList operands none := by
  rw [assembleWords.eq_def]
  simp only [String.ofList_toList]
  split
  case h_10 => rfl
  all_goals exact absurd (by decide) hm

theorem assembleWords_mnemonic (i : Instr) (operands : List (List Char)) :
    assembleWords ((opcodeRow i).mnemonic.toList :: operands) =
      readCommand (opcodeRow i).mnemonic.toList operands none :=
  assembleWords_of_not_special (opcodeTable_mnemonic_not_special _ (Encoding.opcodeRow_mem_opcodeTable i)) operands

theorem readCommand_instr (i : Instr) (r : Option ResponseWord) :
    readCommand (opcodeRow i).mnemonic.toList (operandWords (asmOperands i)) r = some [⟨.command (encode i), r⟩] := by
  rw [readCommand, readOperands_operandWords, String.ofList_toList]
  simp [assembleWord_instr]

/-- The words of a command. -/
def commandWords (i : Instr) : List (List Char) := (opcodeRow i).mnemonic.toList :: operandWords (asmOperands i)

theorem arrow_not_mem_commandWords (i : Instr) : ['-', '>'] ∉ commandWords i := by
  rw [commandWords, List.mem_cons, not_or]
  exact ⟨(ne_arrow_of_isWord (isWord_mnemonic i)).symm, arrow_not_mem_operandWords _⟩

theorem clean_toAssembly (i : Instr) : clean (toAssembly i).toList = true := by
  rw [toAssembly, String.toList_append]
  exact clean_append (clean_of_plain (plain_of_isWord (isWord_mnemonic i))) (clean_operandText _)

theorem lineWords_toAssembly (i : Instr) {cs : List Char} (hcs : EndsWord cs) :
    lineWords ((toAssembly i).toList ++ cs) [] = commandWords i ++ lineWords cs [] := by
  have hends : EndsWord ((operandText (asmOperands i)).toList ++ cs) := by
    intro word
    rw [lineWords_operandText _ hcs, lineWords_operandText _ hcs]
    rfl
  rw [toAssembly, String.toList_append, List.append_assoc,
    lineWords_word (plain_of_isWord (isWord_mnemonic i)) (ne_nil_of_isWord (isWord_mnemonic i)) hends,
    lineWords_operandText _ hcs]
  rfl

theorem assembleLine_toAssembly (i : Instr) :
    assembleLine (toAssembly i) = some [⟨.command (encode i), none⟩] := by
  have hwords := lineWords_toAssembly i endsWord_nil
  rw [List.append_nil] at hwords
  rw [assembleLine_of_words rfl (clean_toAssembly i) hwords (by simpa [lineWords, endWord] using arrow_not_mem_commandWords i)]
  simpa [lineWords, endWord, commandWords, assembleWords_mnemonic] using readCommand_instr i none

/-- The digits of a response. -/
def responseDigits (r : ResponseWord) : List Char := hexChars (r.extractLsb' 8 8) ++ hexChars (r.extractLsb' 0 8)

theorem plain_responseDigits (r : ResponseWord) : (responseDigits r).all plainChar = true := by
  rw [responseDigits, List.all_append, plain_hexChars, plain_hexChars]
  rfl

/-- The arrow and the response as they follow a command. -/
def arrowText (r : ResponseWord) : List Char := ' ' :: '-' :: '>' :: ' ' :: responseDigits r

theorem lineWords_arrowText (r : ResponseWord) : lineWords (arrowText r) [] = [['-', '>'], responseDigits r] := by
  have hdigits := lineWords_word (plain_responseDigits r) (by simp [responseDigits, hexChars]) endsWord_nil
  have harrow := lineWords_word (w := ['-', '>']) (by decide) (by decide) (endsWord_blank (responseDigits r))
  rw [List.append_nil] at hdigits
  refine harrow.trans (congrArg _ ?_)
  rw [lineWords_blank, hdigits]
  rfl

theorem assembleLine_toAssembly_response (i : Instr) (r : ResponseWord) :
    assembleLine (toAssembly i ++ " -> " ++ responseText r) = some [⟨.command (encode i), some r⟩] := by
  have hline : (toAssembly i ++ " -> " ++ responseText r).toList = (toAssembly i).toList ++ arrowText r := by
    simp [responseText, responseDigits, arrowText]
  have hclean : clean ((toAssembly i).toList ++ arrowText r) = true :=
    clean_append (clean_toAssembly i) (clean_append (cs := [' ', '-', '>', ' ']) rfl (clean_of_plain (plain_responseDigits r)))
  rw [assembleLine_of_clean hline hclean, lineWords_toAssembly i (cs := arrowText r) (endsWord_blank _), lineWords_arrowText,
    splitArrow_arrow _ _ (arrow_not_mem_commandWords i), commandWords, assembleSplit, responseDigits, readResponse_digits]
  exact readCommand_instr i (some r)

/-! ## Pseudo-instructions and events -/

/-- A line of one word and a string of byte pairs. -/
theorem assembleLine_hex {m : String} (hm : isWord m.toList = true) (bs : List Byte) :
    assembleLine (m ++ hexText bs) = assembleWords (m.toList :: hexWords bs) := by
  refine assembleLine_of_words (String.toList_append ..) (clean_append (clean_of_plain (plain_of_isWord hm)) (clean_hexText bs))
    ?_ ?_
  · rw [lineWords_word (plain_of_isWord hm) (ne_nil_of_isWord hm) (endsWord_hexText bs), lineWords_hexText_nil]
  · rw [List.mem_cons, not_or]
    exact ⟨(ne_arrow_of_isWord hm).symm, arrow_not_mem_hexWords bs⟩

theorem readHex_hexWords (bs : List Byte) : readHex (hexWords bs) = some bs := readHex_hexChars bs

/-- The words of an offset and a string of byte pairs. -/
def offsetWords (off : Byte) (bs : List Byte) : List (List Char) := byteWord off :: [','] :: hexWords bs

theorem readOffsetHex_offsetWords (off : Byte) (bs : List Byte) (expand : Byte → List Byte → Option (List AsmLine)) :
    readOffsetHex (offsetWords off bs) expand = expand off bs := by
  simp [readOffsetHex, offsetWords, readByte_byteWord, readHex_hexWords]

/-- An offset and a string of byte pairs as text. -/
def offsetText (off : Byte) (bs : List Byte) : List Char := byteWord off ++ ',' :: (hexText bs).toList

theorem clean_offsetText (off : Byte) (bs : List Byte) : clean (offsetText off bs) = true :=
  clean_append (clean_of_plain (plain_byteWord off)) (clean_append (cs := [',']) rfl (clean_hexText bs))

theorem lineWords_offsetText (off : Byte) (bs : List Byte) : lineWords (offsetText off bs) [] = offsetWords off bs := by
  rw [offsetText, lineWords_byteWord off (endsWord_comma _), lineWords_comma, lineWords_hexText_nil]
  rfl

theorem arrow_not_mem_offsetWords (off : Byte) (bs : List Byte) : ['-', '>'] ∉ offsetWords off bs := by
  simpa [offsetWords] using ⟨(byteWord_ne_arrow off).symm, arrow_not_mem_hexWords bs⟩

theorem assembleLine_ldfb (off : Byte) (bs : List Byte) :
    assembleLine ("LDFB " ++ byteText off ++ "," ++ hexText bs) = pseudoLdfb off bs := by
  have hline : ("LDFB " ++ byteText off ++ "," ++ hexText bs).toList = "LDFB".toList ++ ' ' :: offsetText off bs := by
    simp [offsetText]
  have hwords : lineWords ("LDFB".toList ++ ' ' :: offsetText off bs) [] = "LDFB".toList :: offsetWords off bs := by
    rw [lineWords_word (by decide) (by decide) (endsWord_blank _), lineWords_blank, lineWords_offsetText]
    rfl
  rw [assembleLine_of_words hline (clean_append (cs := "LDFB ".toList) rfl (clean_offsetText off bs)) hwords
    (by simpa using arrow_not_mem_offsetWords off bs)]
  exact readOffsetHex_offsetWords off bs pseudoLdfb

theorem assembleLine_expectFb (off : Byte) (bs : List Byte) :
    assembleLine ("EXPECT FB " ++ byteText off ++ "," ++ hexText bs) = pseudoExpectFb off bs := by
  have hline : ("EXPECT FB " ++ byteText off ++ "," ++ hexText bs).toList =
      "EXPECT".toList ++ ' ' :: ("FB".toList ++ ' ' :: offsetText off bs) := by
    simp [offsetText]
  have hwords : lineWords ("EXPECT".toList ++ ' ' :: ("FB".toList ++ ' ' :: offsetText off bs)) [] =
      "EXPECT".toList :: "FB".toList :: offsetWords off bs := by
    rw [lineWords_word (by decide) (by decide) (endsWord_blank _), lineWords_blank,
      lineWords_word (by decide) (by decide) (endsWord_blank _), lineWords_blank, lineWords_offsetText]
    rfl
  rw [assembleLine_of_words hline (clean_append (cs := "EXPECT FB ".toList) rfl (clean_offsetText off bs)) hwords
    (by simpa using arrow_not_mem_offsetWords off bs)]
  exact readOffsetHex_offsetWords off bs pseudoExpectFb

theorem assembleLine_rx (b : Byte) : assembleLine ("@RX " ++ byteText b) = some [⟨.rxByte b, none⟩] := by
  have hline : ("@RX " ++ byteText b).toList = "@RX".toList ++ ' ' :: byteWord b := by simp
  have hword := lineWords_byteWord b endsWord_nil
  rw [List.append_nil] at hword
  have hwords : lineWords ("@RX".toList ++ ' ' :: byteWord b) [] = ["@RX".toList, byteWord b] := by
    rw [lineWords_word (by decide) (by decide) (endsWord_blank _), lineWords_blank, hword]
    rfl
  rw [assembleLine_of_words hline (clean_append (cs := "@RX ".toList) rfl (clean_of_plain (plain_byteWord b))) hwords
    (by simpa using (byteWord_ne_arrow b).symm)]
  exact congrArg (Option.map fun b => pseudoRxs [b]) (readByte_byteWord b)

theorem assembleLine_txc : assembleLine "@TXC" = some [⟨.txComplete, none⟩] := rfl

/-! ### One line a byte -/

theorem mapIdx_eq_map_range (bs : List Byte) (line : Nat → Byte → AsmLine) :
    bs.mapIdx line = (List.range bs.length).map fun k => line k (bs.getD k 0) := by
  apply List.ext_getElem (by simp)
  intro k hk hk'
  have hlt : k < bs.length := by simpa using hk
  simp [List.getD, hlt]

theorem indexedLines_of_fits (line : Byte → Byte → AsmLine) {off : Nat} {bs : List Byte} (h : off + bs.length ≤ 256) :
    indexedLines line off bs =
      some ((List.range bs.length).map fun k => line (BitVec.ofNat 8 (off + k)) (bs.getD k 0)) := by
  rw [indexedLines, if_pos h, mapIdx_eq_map_range]

theorem indexedLines_of_past (line : Byte → Byte → AsmLine) {off : Nat} {bs : List Byte} (h : 256 < off + bs.length) :
    indexedLines line off bs = none := if_neg (by omega)

theorem loadLines_of_length (op : Byte) {size : Nat} {bs : List Byte} (h : bs.length = size) (hsize : size ≤ 256) :
    loadLines op size bs =
      some ((List.range size).map fun k => commandLine op (BitVec.ofNat 8 k) (bs.getD k 0)) := by
  rw [loadLines, if_pos h, indexedLines_of_fits _ (by omega), h]
  simp

theorem loadLines_of_other_length (op : Byte) {size : Nat} {bs : List Byte} (h : bs.length ≠ size) :
    loadLines op size bs = none := if_neg h

/-! ### Loads and streams -/

theorem assembleLine_ldmk (bs : List Byte) : assembleLine ("LDMK" ++ hexText bs) = loadLines 0x10 16 bs :=
  (assembleLine_hex rfl bs).trans (congrArg (Option.bind · pseudoLdmk) (readHex_hexWords bs))

theorem assembleLine_ldctr (bs : List Byte) : assembleLine ("LDCTR" ++ hexText bs) = loadLines 0x12 8 bs :=
  (assembleLine_hex rfl bs).trans (congrArg (Option.bind · pseudoLdctr) (readHex_hexWords bs))

theorem assembleLine_ldblk (bs : List Byte) : assembleLine ("LDBLK" ++ hexText bs) = loadLines 0x14 8 bs :=
  (assembleLine_hex rfl bs).trans (congrArg (Option.bind · pseudoLdblk) (readHex_hexWords bs))

theorem assembleLine_puts (bs : List Byte) : assembleLine ("PUTS" ++ hexText bs) = some (pseudoPuts bs) :=
  (assembleLine_hex rfl bs).trans (congrArg (Option.map pseudoPuts) (readHex_hexWords bs))

theorem assembleLine_rxs (bs : List Byte) : assembleLine ("@RXS" ++ hexText bs) = some (pseudoRxs bs) :=
  (assembleLine_hex rfl bs).trans (congrArg (Option.map pseudoRxs) (readHex_hexWords bs))

/-! ### Quoted text -/

/-- A character that a quoted text can hold (R68): ASCII, no quote, no comment. -/
def Quotable (c : Byte) : Prop := c.toNat < 128 ∧ c ≠ 0x22 ∧ c ≠ 0x3B

/-- The character of a byte. -/
def charOf (c : Byte) : Char := Char.ofNat c.toNat

theorem toNat_charOf {c : Byte} (h : c.toNat < 128) : (charOf c).toNat = c.toNat := by
  rw [charOf, Char.toNat_ofNat, if_pos (.inl (by omega))]

theorem charOf_ne {c d : Byte} (h : c.toNat < 128) (hd : d.toNat < 128) (hne : c ≠ d) : charOf c ≠ charOf d := by
  intro heq
  have hnat : c.toNat = d.toNat := by rw [← toNat_charOf h, heq, toNat_charOf hd]
  exact hne (BitVec.eq_of_toNat_eq hnat)

theorem quotedBytes_textChars {bs : List Byte} (h : ∀ c ∈ bs, Quotable c) :
    quotedBytes (bs.map charOf ++ ['"']) = some bs := by
  induction bs with
  | nil => rfl
  | cons c bs ih =>
    obtain ⟨⟨hascii, hquote, -⟩, hrest⟩ := List.forall_mem_cons.mp h
    have hne : charOf c ≠ '"' := charOf_ne (d := 0x22) hascii (by decide) hquote
    simp [quotedBytes, hne, toNat_charOf hascii, hascii, ih hrest]

/-- A quoted text holds no comment. -/
theorem semicolon_not_mem_textChars {bs : List Byte} (h : ∀ c ∈ bs, Quotable c) : ';' ∉ bs.map charOf := by
  rw [List.mem_map]
  rintro ⟨c, hc, heq⟩
  obtain ⟨hascii, -, hsemi⟩ := h c hc
  exact charOf_ne (d := 0x3B) hascii (by decide) hsemi heq

theorem assembleLine_quoted {bs : List Byte} (h : ∀ c ∈ bs, Quotable c) :
    assembleLine ("PUTS \"" ++ String.ofList (bs.map charOf) ++ "\"") = some (pseudoPuts bs) := by
  have hline : ("PUTS \"" ++ String.ofList (bs.map charOf) ++ "\"").toList =
      "PUTS \"".toList ++ (bs.map charOf ++ ['"']) := by simp
  have hsemi : ';' ∉ "PUTS \"".toList ++ (bs.map charOf ++ ['"']) := by
    have := semicolon_not_mem_textChars h
    simp [-List.mem_map, this]
  rw [assembleLine, hline, dropComment_of_not_mem _ hsemi, if_pos (by simp)]
  exact congrArg (Option.map pseudoPuts) (quotedBytes_textChars h)

/-! ## The statement -/

theorem assembleLine_load {op : Byte} {size : Nat} {m : String} {bs : List Byte}
    (hload : assembleLine (m ++ hexText bs) = loadLines op size bs) (hsize : size ≤ 256) :
    (bs.length = size → assembleLine (m ++ hexText bs) =
      some ((List.range size).map fun k => commandLine op (BitVec.ofNat 8 k) (bs.getD k 0))) ∧
    (bs.length ≠ size → assembleLine (m ++ hexText bs) = none) :=
  ⟨fun h => hload.trans (loadLines_of_length op h hsize), fun h => hload.trans (loadLines_of_other_length op h)⟩

/-- Settles O60: each line is clean (or quoted), so it is read as the words it was written from, and each word is read back
as the byte or byte pairs it was written from. -/
theorem assemblyGivesTheCommandWord : Obligations.AssemblyGivesTheCommandWord := by
  refine ⟨fun i => ⟨assembleWord_instr i, assembleLine_toAssembly i, assembleLine_toAssembly_response i⟩,
    assembleLine_rx, assembleLine_txc, fun bs => ?_⟩
  obtain ⟨hldmk, hldmkNone⟩ := assembleLine_load (assembleLine_ldmk bs) (by decide)
  obtain ⟨hldctr, hldctrNone⟩ := assembleLine_load (assembleLine_ldctr bs) (by decide)
  obtain ⟨hldblk, hldblkNone⟩ := assembleLine_load (assembleLine_ldblk bs) (by decide)
  refine ⟨hldmk, hldmkNone, hldctr, hldblk, fun h => ⟨hldctrNone h, hldblkNone h⟩, fun off hfits => ⟨?_, ?_⟩,
    fun off hpast => ⟨?_, ?_⟩, assembleLine_puts bs, assembleLine_rxs bs, assembleLine_quoted⟩
  · exact (assembleLine_ldfb off bs).trans (indexedLines_of_fits _ hfits)
  · exact (assembleLine_expectFb off bs).trans (indexedLines_of_fits _ hfits)
  · exact (assembleLine_ldfb off bs).trans (indexedLines_of_past _ hpast)
  · exact (assembleLine_expectFb off bs).trans (indexedLines_of_past _ hpast)

end Sys2Proof.Text
end
